-- ==== Sys2Proof/Word.lean ====
section
/-! DEFINITION. The word types of AESCORE (00_scope.md R4, R5): bytes, 32-bit words and blocks of four words. -/

namespace Sys2Proof

/-- A byte: an element of GF(2^8) (00_scope.md R7) or an 8-bit table entry. -/
abbrev Byte := BitVec 8

/-- A 32-bit word, the width of the host bus and of the ENGINE (00_scope.md R4). -/
abbrev Word := BitVec 32

/-- Four words `w[0..3]`: a block, the IV, the chaining value or a round key (00_scope.md section 6). -/
structure Quad where
  w0 : Word
  w1 : Word
  w2 : Word
  w3 : Word
deriving DecidableEq, Repr

end Sys2Proof
end

