-- ==== Sys2Proof/Syntax.lean ====
section
/-! DEFINITION. The commands of AESCORE, one constructor per row of spec/opcode_table.json. -/

namespace Sys2Proof

/-- A command (30_encoding.md R61). The block index of `BLK_ENC` and `BLK_DEC` is the number written in a host program
(R67); `Instr.WellFormed` says which numbers have an encoding. -/
inductive Instr where
  /-- `NOP` (44_control.md R122). -/
  | nop
  /-- `EXPAND_KEY` (41_key_schedule.md R86). -/
  | expandKey
  /-- `LOAD_IV` (43_cbc.md R110). -/
  | loadIv
  /-- `BLK_ENC b` (42_block.md R102). -/
  | blkEnc (b : Nat)
  /-- `BLK_DEC b` (42_block.md R103). -/
  | blkDec (b : Nat)
  /-- `CBC_ENC` (43_cbc.md R112). -/
  | cbcEnc
  /-- `CBC_DEC` (43_cbc.md R113). -/
  | cbcDec
deriving DecidableEq, Repr

end Sys2Proof
end

