-- ==== Sys2Proof/WellFormed.lean ====
section
/-! DEFINITION. Which commands have an encoding: the block index fits the 8-bit `BLK` field. -/

namespace Sys2Proof

/-- A block index fits `BLK` (30_encoding.md R62, R67: `b` in 0..255). Whether the block exists is another matter, checked
when the command completes (`BLK_RANGE`). -/
abbrev blkFits (b : Nat) : Bool := decide (b < 256)

/-- The command has an encoding (30_encoding.md R60, R62). -/
def Instr.wellFormed : Instr → Bool
  | .nop => true
  | .expandKey => true
  | .loadIv => true
  | .blkEnc b => blkFits b
  | .blkDec b => blkFits b
  | .cbcEnc => true
  | .cbcDec => true

/-- `Instr.wellFormed` as a proposition. -/
abbrev Instr.WellFormed (i : Instr) : Prop := i.wellFormed = true

end Sys2Proof
end

