-- ==== Sys2Proof/Decode.lean ====
section
/-! DEFINITION. The command decoder, total on all 2^32 words (30_encoding.md R60 to R66), and the encoder. -/

namespace Sys2Proof

/-- Why a word is `ILLEGAL_CMD` (30_encoding.md R63, R64; 60_exceptions.md R130 code 1). -/
inductive DecodeError where
  /-- `OP` is 0x7 to 0xF (R64). -/
  | reservedOp
  /-- A reserved bit, [7:4] or [31:16], is set (R63). -/
  | reservedBits
  /-- `BLK` is not 0 for an `OP` that has no block operand (R63). -/
  | blkNotZero
deriving DecidableEq, Repr

/-- `OP`, bits [3:0] (30_encoding.md R60). -/
def opField (w : Word) : BitVec 4 := w.extractLsb' 0 4

/-- The reserved bits [7:4] (30_encoding.md R60). -/
def reservedLow (w : Word) : BitVec 4 := w.extractLsb' 4 4

/-- `BLK`, bits [15:8] (30_encoding.md R60, R62). -/
def blkField (w : Word) : BitVec 8 := w.extractLsb' 8 8

/-- The reserved bits [31:16] (30_encoding.md R60). -/
def reservedHigh (w : Word) : BitVec 16 := w.extractLsb' 16 16

/-- A command without a block operand needs `BLK = 0` (30_encoding.md R63). -/
def withoutBlk (i : Instr) (w : Word) : Except DecodeError Instr :=
  if blkField w = 0 then .ok i else .error .blkNotZero

/-- The opcode map (30_encoding.md R61, R64), for a word whose reserved bits are 0. -/
def decodeOp (w : Word) : Except DecodeError Instr :=
  match (opField w).toNat with
  | 0 => withoutBlk .nop w
  | 1 => withoutBlk .expandKey w
  | 2 => withoutBlk .loadIv w
  | 3 => .ok (.blkEnc (blkField w).toNat)
  | 4 => .ok (.blkDec (blkField w).toNat)
  | 5 => withoutBlk .cbcEnc w
  | 6 => withoutBlk .cbcDec w
  | _ => .error .reservedOp

/-- Decode a command word (30_encoding.md R65): one of the seven commands, or an illegal word with its reason. -/
def decode (w : Word) : Except DecodeError Instr :=
  if 7 ≤ (opField w).toNat then .error .reservedOp
  else if reservedLow w ≠ 0 ∨ reservedHigh w ≠ 0 then .error .reservedBits
  else decodeOp w

/-- A word with `OP = op` and `BLK = b`, reserved bits 0 (30_encoding.md R60, R68). -/
def commandWord (op : BitVec 4) (b : BitVec 8) : Word := (b.setWidth 32 <<< 8) ||| op.setWidth 32

/-- The word of a command (30_encoding.md R61, R68). -/
def encode : Instr → Word
  | .nop => commandWord 0x0 0
  | .expandKey => commandWord 0x1 0
  | .loadIv => commandWord 0x2 0
  | .blkEnc b => commandWord 0x3 (BitVec.ofNat 8 b)
  | .blkDec b => commandWord 0x4 (BitVec.ofNat 8 b)
  | .cbcEnc => commandWord 0x5 0
  | .cbcDec => commandWord 0x6 0

/-- The word whose bits, numbered as spec/opcode_table.json numbers them, are `w`: a command is one 32-bit word (R66), and
bits at or above `nbits` are 0. -/
def tableWord (nbits w : Nat) : Word := BitVec.ofNat 32 (w % 2 ^ nbits)

/-- What the decoder reads from an opcode-table word. -/
def decodeTableWord (nbits w : Nat) : Option Instr :=
  match decode (tableWord nbits w) with
  | .ok i => some i
  | .error _ => none

/-! The decoding of every constructor, each from a word written out bit by bit from the pattern column of
30_encoding.md R61 (`b` bits chosen for the block commands). -/

theorem decode_nop : decode 0b0000000000000000_00000000_0000_0000 = .ok .nop := by decide
theorem decode_expandKey : decode 0b0000000000000000_00000000_0000_0001 = .ok .expandKey := by decide
theorem decode_loadIv : decode 0b0000000000000000_00000000_0000_0010 = .ok .loadIv := by decide
theorem decode_blkEnc : decode 0b0000000000000000_10110001_0000_0011 = .ok (.blkEnc 0xb1) := by decide
theorem decode_blkDec : decode 0b0000000000000000_00000010_0000_0100 = .ok (.blkDec 2) := by decide
theorem decode_cbcEnc : decode 0b0000000000000000_00000000_0000_0101 = .ok .cbcEnc := by decide
theorem decode_cbcDec : decode 0b0000000000000000_00000000_0000_0110 = .ok .cbcDec := by decide

end Sys2Proof
end

