-- ==== Sys2Proof/Config.lean ====
section
/-! DEFINITION. What one machine fixes (its parameters) and what the spec leaves free (the opaque constants). -/

namespace Sys2Proof

/-- The parameters of one AESCORE (00_scope.md R4, 92_eei_decisions.md D2, D13). They are plain data in `State.cfg`, so a
statement over all states holds for every legal value of them (log 8). DESIGN CHOICE. -/
structure Config.Params where
  /-- `AES_BASE`, the bus address of the register window: OPEN. -/
  aesBase : Nat
  /-- `DBUF_BLOCKS` less one, so that every value is a legal one (1..256). -/
  blocksLessOne : BitVec 8
deriving DecidableEq, Repr

/-- A DRAW: the value read from the n-th unspecified location that is read (00_scope.md section 6; 93 U1 to U4). It has no
body: nothing can be proved about the value, and two draws need not agree. Free value, log 2. -/
opaque Config.draw : Nat → Word

/-- How many HOST steps come before the ENGINE's n-th step, at most: any finite number, the weak fairness of
44_control.md R123 (93 U13). It has no body. Free value, log 5. -/
opaque Config.engineDelay : Nat → Nat

end Sys2Proof
end

