-- ==== Sys2Proof/Machine/State.lean ====
section
/-! DEFINITION. The state of AESCORE (10_state.md R22, R40), its faults and refusals, and the state after reset
(70_reset_and_hazards.md R150). -/

namespace Sys2Proof
namespace Machine

/-- The error codes (60_exceptions.md R130). Codes 6 to 15 are reserved and never produced (93 U8), so they have no
constructor. -/
inductive ErrCode where
  | none
  | illegalCmd
  | keyLength
  | blockLength
  | noSchedule
  | blkRange
deriving DecidableEq, Repr

/-- The table state (10_state.md R37): S-box, inverse S-box and the eight substitution-mix tables. -/
structure Tables where
  sbox : Vector Byte 256
  invSbox : Vector Byte 256
  subMix0 : Vector Word 256
  subMix1 : Vector Word 256
  subMix2 : Vector Word 256
  subMix3 : Vector Word 256
  invSubMix0 : Vector Word 256
  invSubMix1 : Vector Word 256
  invSubMix2 : Vector Word 256
  invSubMix3 : Vector Word 256
deriving DecidableEq, Repr

/-- Tables of zeros: what the model stores before the table-generation step. No read sees it (10_state.md R37: every read
while `TABLES_READY = 0` is a draw). DESIGN CHOICE, log 4. -/
def Tables.blank : Tables where
  sbox := .replicate 256 0
  invSbox := .replicate 256 0
  subMix0 := .replicate 256 0
  subMix1 := .replicate 256 0
  subMix2 := .replicate 256 0
  subMix3 := .replicate 256 0
  invSubMix0 := .replicate 256 0
  invSubMix1 := .replicate 256 0
  invSubMix2 := .replicate 256 0
  invSubMix3 := .replicate 256 0

/-- The bytes of DBUF that have been written since reset, as (window offset, byte) pairs with offsets rising
(10_state.md R39; 20_memory.md R43). A byte that is not listed has no value: a word with such a byte reads as a draw. -/
abbrev Memory := List Host.Cell

/-- The canonical form: offsets strictly rising. No byte equals what an unlisted offset reads as, because an unlisted
offset has no value. -/
def Memory.wf : Memory → Bool
  | [] => true
  | [_] => true
  | c :: d :: rest => decide (c.1 < d.1) && Memory.wf (d :: rest)

/-- One thing that reaches the device from outside, in the order in which it arrives (20_memory.md R51). The list of these
in `State.inputs` is what is left of the host program (30_encoding.md R67, R68). -/
inductive BusInput where
  /-- `MemRead(addr, size)`, a host read of `size` bytes at a bus address (00_scope.md R6). -/
  | read (addr size : Nat)
  /-- `MemWrite(addr, size, v)`, a host write. -/
  | write (addr size : Nat) (v : Word)
  /-- `wait`: `rd STATUS`, again and again until bit 0 reads 0 (30_encoding.md R68). One step is one read. -/
  | wait
  /-- The platform asserts the reset input (70_reset_and_hazards.md R151). -/
  | reset
deriving DecidableEq, Repr

/-- What the last bus access was answered with. The model's own field, log 6. -/
inductive BusResponse where
  /-- No access since reset. -/
  | none
  /-- A read in the window returned this word (20_memory.md R44). -/
  | data (v : Word)
  /-- A write in the window was taken by the bus; whether the device dropped or ignored it shows elsewhere. -/
  | written
  /-- The address is outside the window: the access did not reach the device (20_memory.md R43). -/
  | notSelected
deriving DecidableEq, Repr

/-- The state: every register and memory of 10_state.md R22, the two hidden fields of R40, the machine's parameters, and
the model's own fields for free values, scheduling and the host. -/
structure State where
  /-- The parameters of this machine (00_scope.md R4). -/
  cfg : Config.Params
  /-- `CTRL`: DONE_IE, ERR_IE, OVR_IE in bits 0, 1, 2 (R25). -/
  ctrl : BitVec 3
  /-- `STATUS.BUSY` (R26). -/
  busy : Bool
  /-- `STATUS.TABLES_READY` (R26). -/
  tablesReady : Bool
  /-- `STATUS.KS_VALID` (R26). -/
  ksValid : Bool
  /-- `IRQ_STATUS`: DONE, ERR, OVR in bits 0, 1, 2 (R27). -/
  irq : BitVec 3
  /-- `ERR.CODE` (R34). -/
  err : ErrCode
  /-- `KEYLEN[7:0]` (R28). -/
  keylen : BitVec 8
  /-- `LEN[15:0]` (R32). -/
  len : BitVec 16
  /-- `KEY[0..7]` (R29). -/
  key : Vector Word 8
  /-- `IV[0..3]` (R30). -/
  iv : Quad
  /-- `CV[0..3]` (R31). -/
  cv : Quad
  /-- `NR` (R35). -/
  nr : BitVec 4
  /-- `KS[0..59]` (R36). -/
  ks : Vector Word 60
  /-- `IKS[0..59]` (R36). -/
  iks : Vector Word 60
  /-- `SBOX`, `INV_SBOX`, `SUB_MIX_0..3`, `INV_SUB_MIX_0..3` (R37). -/
  tables : Tables
  /-- `DBUF` (R39). -/
  mem : Memory
  /-- `PENDING` (R40). -/
  pending : Option Word
  /-- `GEN_PENDING` (R40). -/
  genPending : Bool
  /-- How many draws have been taken: the argument of the next one. The model's own, log 2. -/
  draws : Nat
  /-- How many ENGINE steps and resets there have been: the argument of `Config.engineDelay`. The model's own, log 5. -/
  engineTurns : Nat
  /-- HOST steps taken since the ENGINE became enabled. The model's own, log 5. -/
  waited : Nat
  /-- The bus accesses still to come, the next one first. The model's own, log 6. -/
  inputs : List BusInput
  /-- The answer to the last bus access. The model's own, log 6. -/
  response : BusResponse
deriving DecidableEq, Repr

/-- The faults. -/
inductive Fault where
  /-- A host access inside the window that is not 32 bits wide or not word-aligned (20_memory.md R45), raised by `busRead`
  and `busWrite`; it has no effect on the device. Safe: the spec itself calls it a fault of the HOST step. -/
  | busError (offset size : Nat)
deriving DecidableEq, Repr

/-- The refusals. -/
inductive Refusal where
  /-- An instruction without a meaning, raised by an arm of `exec`; no arm does so. Safe. -/
  | notModelled (mnemonic : String)
deriving DecidableEq, Repr

/-- The state after reset (70_reset_and_hazards.md R150), in the reference configuration of `DBUF_BLOCKS = 256`
(00_scope.md R4) with `AES_BASE` at 0 (DESIGN CHOICE, log 8). `KS`, `IKS` and the tables are unspecified: the zeros stored
here are seen by no read (DESIGN CHOICE, logs 3 and 4). -/
def State.reset : State where
  cfg := { aesBase := 0, blocksLessOne := 255 }
  ctrl := 0
  busy := true
  tablesReady := false
  ksValid := false
  irq := 0
  err := .none
  keylen := 0
  len := 0
  key := .replicate 8 0
  iv := ⟨0, 0, 0, 0⟩
  cv := ⟨0, 0, 0, 0⟩
  nr := 0
  ks := .replicate 60 0
  iks := .replicate 60 0
  tables := Tables.blank
  mem := []
  pending := none
  genPending := true
  draws := 0
  engineTurns := 0
  waited := 0
  inputs := []
  response := .none

end Machine
end Sys2Proof
end

