-- ==== Sys2Proof/Machine/Flags.lean ====
section
/-! DEFINITION. The status, interrupt and error registers as words, their bits, and the interrupt line. -/

namespace Sys2Proof
namespace Machine

/-- `IRQ_STATUS.DONE` and `CTRL.DONE_IE`, bit 0 (10_state.md R25, R27). -/
def doneBit : BitVec 3 := 0b001

/-- `IRQ_STATUS.ERR` and `CTRL.ERR_IE`, bit 1 (10_state.md R25, R27). -/
def errBit : BitVec 3 := 0b010

/-- `IRQ_STATUS.OVR` and `CTRL.OVR_IE`, bit 2 (10_state.md R25, R27). -/
def ovrBit : BitVec 3 := 0b100

/-- The value of `ERR.CODE` (60_exceptions.md R130). -/
def errValue : ErrCode → BitVec 4
  | .none => 0
  | .illegalCmd => 1
  | .keyLength => 2
  | .blockLength => 3
  | .noSchedule => 4
  | .blkRange => 5

/-- `STATUS` as it reads: BUSY, TABLES_READY, KS_VALID in bits 0, 1, 2 (10_state.md R26). -/
def statusWord (s : State) : Word :=
  (BitVec.ofBool s.ksValid ++ BitVec.ofBool s.tablesReady ++ BitVec.ofBool s.busy).setWidth 32

/-- `NROUNDS` as it reads: `NR` while `KS_VALID = 1`, else 0 (10_state.md R35). -/
def nroundsWord (s : State) : Word := if s.ksValid then s.nr.setWidth 32 else 0

/-- The bits a completion sets: DONE always, ERR with a code other than 0 (44_control.md R121; 10_state.md R27). -/
def completionBits (code : ErrCode) : BitVec 3 :=
  match code with
  | .none => doneBit
  | _ => doneBit ||| errBit

/-- The effect on `IRQ_STATUS` of writing `v`: each bit written as 1 is cleared (10_state.md R27). -/
def writeOneToClear (irq v : BitVec 3) : BitVec 3 := irq &&& ~~~v

/-- The interrupt output (60_exceptions.md R135): some source is pending and enabled. -/
def irqLine (s : State) : Bool := decide (s.irq &&& s.ctrl ≠ 0)

end Machine
end Sys2Proof
end

