-- ==== Sys2Proof/Machine/Operands.lean ====
section
/-! DEFINITION. Bytes of words, rotations, GF(2^8) arithmetic, blocks of four words, and the operand forms: the block
index, the key length and the byte count. -/

namespace Sys2Proof
namespace Machine

/-! ### Bytes of a word -/

/-- `byte_k(w)`, counted from the most significant byte (00_scope.md R5). -/
def byteK (k : Nat) (w : Word) : Byte := w.extractLsb' (8 * (3 - k)) 8

/-- `pack(b0, b1, b2, b3)` (00_scope.md R6; big-endian, 20_memory.md R42). -/
def pack (b0 b1 b2 b3 : Byte) : Word := b0 ++ b1 ++ b2 ++ b3

/-- `rotl32(w, n)` (00_scope.md R6). -/
def rotl32 (w : Word) (n : Nat) : Word := w.rotateLeft n

/-- `rotr32(w, n)` (00_scope.md R6). -/
def rotr32 (w : Word) (n : Nat) : Word := rotl32 w ((32 - n) % 32)

/-- `rotl8(b, n)` (00_scope.md R6). -/
def rotl8 (b : Byte) (n : Nat) : Byte := b.rotateLeft n

/-! ### GF(2^8) -/

/-- Multiplication by x modulo 0x11B (00_scope.md R7). The constant is the low byte of 0x11B: the shift has already
discarded bit 8. -/
def xtime (b : Byte) : Byte := if b.getLsbD 7 then (b <<< 1) ^^^ 0x1B else b <<< 1

/-- The sum of `a · x^i` over the lowest `n` bits `i` of `b`. -/
def gmulBits : Nat → Byte → Byte → Byte
  | 0, _, _ => 0
  | n + 1, a, b => (if b.getLsbD 0 then a else 0) ^^^ gmulBits n (xtime a) (b >>> 1)

/-- Multiplication in GF(2^8) modulo 0x11B (00_scope.md R7): the product polynomial, each power of x reduced by `xtime`. -/
def gmul (a b : Byte) : Byte := gmulBits 8 a b

/-- The S-box affine map (40_tables.md R73). -/
def affine (b : Byte) : Byte := b ^^^ rotl8 b 1 ^^^ rotl8 b 2 ^^^ rotl8 b 3 ^^^ rotl8 b 4 ^^^ 0x63

/-! ### Four words -/

/-- Word `j` of a block. -/
def quadGet (q : Quad) (j : Fin 4) : Word :=
  match j with
  | 0 => q.w0
  | 1 => q.w1
  | 2 => q.w2
  | 3 => q.w3

/-- Replace word `j` of a block. -/
def quadSet (q : Quad) (j : Fin 4) (v : Word) : Quad :=
  match j with
  | 0 => { q with w0 := v }
  | 1 => { q with w1 := v }
  | 2 => { q with w2 := v }
  | 3 => { q with w3 := v }

/-- Word by word exclusive OR. -/
def quadXor (p q : Quad) : Quad := ⟨p.w0 ^^^ q.w0, p.w1 ^^^ q.w1, p.w2 ^^^ q.w2, p.w3 ^^^ q.w3⟩

/-! ### Operands -/

/-- The number of blocks of DBUF, `DBUF_BLOCKS` in 1..256 (00_scope.md R4). -/
def dbufBlocks (cfg : Config.Params) : Nat := cfg.blocksLessOne.toNat + 1

/-- `DBUF_BYTES` (00_scope.md R4). -/
def dbufBytes (cfg : Config.Params) : Nat := 16 * dbufBlocks cfg

/-- The window offset of DBUF word `i` (20_memory.md R43). -/
def dbufOffset (i : Nat) : Nat := 0x1000 + 4 * i

/-- The first DBUF word of block `b` (30_encoding.md R62; 20_memory.md R48). -/
def blockStart (b : Nat) : Nat := 4 * b

/-- `b < DBUF_BLOCKS` (30_encoding.md R62). -/
def blockInRange (cfg : Config.Params) (b : Nat) : Bool := decide (b < dbufBlocks cfg)

/-- `Nk` for a legal `KEYLEN`, none for any other (41_key_schedule.md R86; 10_state.md R28). -/
def keyWords (keylen : BitVec 8) : Option Nat :=
  match keylen.toNat with
  | 16 => some 4
  | 24 => some 6
  | 32 => some 8
  | _ => none

/-- `NR = Nk + 6` (00_scope.md R4). -/
def roundsOf (nk : Nat) : Nat := nk + 6

/-- `KS_ROWS = (NR + 1) × 4` (00_scope.md R4). -/
def rowsOf (nk : Nat) : Nat := (roundsOf nk + 1) * 4

/-- `LEN div 16`, the number of blocks of a CBC command (43_cbc.md R111). -/
def cbcBlocks (len : BitVec 16) : Nat := len.toNat / 16

/-- `LEN` is a multiple of 16 and at most `DBUF_BYTES` (43_cbc.md R111). -/
def lenLegal (cfg : Config.Params) (len : BitVec 16) : Bool :=
  decide (len.toNat % 16 = 0) && decide (len.toNat ≤ dbufBytes cfg)

end Machine
end Sys2Proof
end

