-- ==== Sys2Proof/Machine/Ops.lean ====
section
/-! DEFINITION. The named operations over memory and registers that the meanings share: bytes and words of DBUF, draws,
blocks, the completion of a command (the device's "trap entry", 60_exceptions.md R137) and the write-drop rule. The device
has no trap return (60_exceptions.md R138): the host acknowledges by a write of `IRQ_STATUS`. -/

namespace Sys2Proof
namespace Machine

/-! ### Bytes of DBUF -/

/-- The byte at a window offset of DBUF, none where nothing has been written since reset (10_state.md R39). -/
def memRead : Memory → Nat → Option Byte
  | [], _ => none
  | (b, v) :: rest, a => if a = b then some v else memRead rest a

/-- Write one byte, keeping the canonical form. -/
def memWrite : Memory → Nat → Byte → Memory
  | [], a, v => [(a, v)]
  | (b, u) :: rest, a, v =>
    if a < b then (a, v) :: (b, u) :: rest
    else if a = b then (a, v) :: rest
    else (b, u) :: memWrite rest a v

/-! ### Words of DBUF -/

/-- The word at a window offset, big-endian (20_memory.md R42); none unless all of it has been written. -/
def memReadWord (m : Memory) (a : Nat) : Option Word :=
  match memRead m a, memRead m (a + 1), memRead m (a + 2), memRead m (a + 3) with
  | some b0, some b1, some b2, some b3 => some (pack b0 b1 b2 b3)
  | _, _, _, _ => none

/-- Write a word at a window offset, big-endian (20_memory.md R42). -/
def memWriteWord (m : Memory) (a : Nat) (w : Word) : Memory :=
  memWrite (memWrite (memWrite (memWrite m a (byteK 0 w)) (a + 1) (byteK 1 w)) (a + 2) (byteK 2 w)) (a + 3) (byteK 3 w)

/-- Take a draw (00_scope.md section 6; 92_eei_decisions.md D29): a fresh free value, and the state that has used it up. -/
def draw (s : State) : Word × State := (Config.draw s.draws, { s with draws := s.draws + 1 })

/-- `DbufRead(i)` (20_memory.md R48): DBUF word `i`, or a draw if it was never written since reset. -/
def dbufRead (i : Nat) (s : State) : Word × State :=
  match memReadWord s.mem (dbufOffset i) with
  | some w => (w, s)
  | none => draw s

/-- `DbufWrite(i, w)` (20_memory.md R48). -/
def dbufWrite (i : Nat) (w : Word) (s : State) : State := { s with mem := memWriteWord s.mem (dbufOffset i) w }

/-! ### Blocks of DBUF -/

/-- Read the four words of block `b` in index order (20_memory.md R48); each unwritten word is a draw of its own. -/
def readBlock (b : Nat) (s : State) : Quad × State :=
  let r0 := dbufRead (blockStart b) s
  let r1 := dbufRead (blockStart b + 1) r0.2
  let r2 := dbufRead (blockStart b + 2) r1.2
  let r3 := dbufRead (blockStart b + 3) r2.2
  (⟨r0.1, r1.1, r2.1, r3.1⟩, r3.2)

/-- Write the four words of block `b` (20_memory.md R48). -/
def writeBlock (b : Nat) (q : Quad) (s : State) : State :=
  dbufWrite (blockStart b + 3) q.w3
    (dbufWrite (blockStart b + 2) q.w2 (dbufWrite (blockStart b + 1) q.w1 (dbufWrite (blockStart b) q.w0 s)))

/-! ### The ENGINE -/

/-- The end of an ENGINE step: `BUSY` falls (44_control.md R121; 40_tables.md R81), and the model's scheduling fields start
over for the next one (log 5). -/
def engineDone (s : State) : State := { s with busy := false, engineTurns := s.engineTurns + 1, waited := 0 }

/-- The completion of a command with an error code, 0 on success (44_control.md R121; 60_exceptions.md R131, R137):
`ERR` and `IRQ_STATUS` record it, `BUSY` falls and the pending word is gone. This is all that an error does, and the
device's whole "trap entry": it saves no context and changes no mode. -/
def complete (code : ErrCode) (s : State) : State :=
  engineDone { s with err := code, irq := s.irq ||| completionBits code, pending := none }

/-! ### Host writes -/

/-- The write-drop rule (20_memory.md R49): while `BUSY = 1` a write of a command input changes nothing but
`IRQ_STATUS.OVR`. -/
def unlessBusy (s written : State) : State := if s.busy then { s with irq := s.irq ||| ovrBit } else written

end Machine
end Sys2Proof
end

