-- ==== Sys2Proof/Machine/Tables.lean ====
section
/-! DEFINITION. The table generator (40_tables.md): the walk, the tables it fills, the round constants, and the word
substitutions that look the tables up. -/

namespace Sys2Proof
namespace Machine

/-- Entry `b` of a table. -/
def lookup {α : Type} (v : Vector α 256) (b : Byte) : α := v[b.toNat]'b.isLt

/-- Replace entry `b` of a table. -/
def putEntry {α : Type} (v : Vector α 256) (b : Byte) (x : α) : Vector α 256 := v.set b.toNat x b.isLt

/-- An entry of `SUB_MIX_0`, from the substituted byte (40_tables.md R77). -/
def mixEntry (s : Byte) : Word := pack (gmul s 0x02) s s (gmul s 0x03)

/-- An entry of `INV_SUB_MIX_0`, from the inversely substituted byte (40_tables.md R78). -/
def invMixEntry (y : Byte) : Word := pack (gmul y 0x0e) (gmul y 0x09) (gmul y 0x0d) (gmul y 0x0b)

/-- `Fill(x, xi)` (40_tables.md R80): the entries of the pair `(x, inv(x))` in all ten tables. -/
def fill (x xi : Byte) (t : Tables) : Tables :=
  let s := affine xi
  { sbox := putEntry t.sbox x s
    invSbox := putEntry t.invSbox s x
    subMix0 := putEntry t.subMix0 x (mixEntry s)
    subMix1 := putEntry t.subMix1 x (rotr32 (mixEntry s) 8)
    subMix2 := putEntry t.subMix2 x (rotr32 (mixEntry s) 16)
    subMix3 := putEntry t.subMix3 x (rotr32 (mixEntry s) 24)
    invSubMix0 := putEntry t.invSubMix0 s (invMixEntry x)
    invSubMix1 := putEntry t.invSubMix1 s (rotr32 (invMixEntry x) 8)
    invSubMix2 := putEntry t.invSubMix2 s (rotr32 (invMixEntry x) 16)
    invSubMix3 := putEntry t.invSubMix3 s (rotr32 (invMixEntry x) 24) }

/-- The loop of `GenTables` (40_tables.md R71, R80): `n` pairs of the walk from `(x, xi)`, by the generator 0x03 and its
inverse 0xF6. -/
def fillWalk : Nat → Byte → Byte → Tables → Tables
  | 0, _, _, t => t
  | n + 1, x, xi, t => fillWalk n (gmul x 0x03) (gmul xi 0xF6) (fill x xi t)

/-- `GenTables()` (40_tables.md R80): the pair `(0, 0)` (R72), then the 255 pairs of the walk. Every entry is written, so
what the tables held before does not matter. Irreducible, so that no proof unrolls the walk by accident. -/
@[irreducible] def genTables (t : Tables) : Tables := fillWalk 255 0x01 0x01 (fill 0x00 0x00 t)

/-- `SUB_MIX_k` (10_state.md R37). -/
def subMixTable (t : Tables) (k : Fin 4) : Vector Word 256 :=
  match k with
  | 0 => t.subMix0
  | 1 => t.subMix1
  | 2 => t.subMix2
  | 3 => t.subMix3

/-- `INV_SUB_MIX_k` (10_state.md R37). -/
def invSubMixTable (t : Tables) (k : Fin 4) : Vector Word 256 :=
  match k with
  | 0 => t.invSubMix0
  | 1 => t.invSubMix1
  | 2 => t.invSubMix2
  | 3 => t.invSubMix3

/-- `RCON[0..10]` (40_tables.md R79), constant from reset (10_state.md R38). -/
def rconTable : Vector Byte 11 := #v[0x00, 0x01, 0x02, 0x04, 0x08, 0x10, 0x20, 0x40, 0x80, 0x1b, 0x36]

/-- `RCON[i]` as the key schedule reads it; its index is at most 10 (41_key_schedule.md R87). -/
def rcon (i : Nat) : Byte := rconTable.toList.getD i 0

/-- `SubWord(w)` (40_tables.md R83). -/
def subWord (t : Tables) (w : Word) : Word :=
  pack (lookup t.sbox (byteK 0 w)) (lookup t.sbox (byteK 1 w)) (lookup t.sbox (byteK 2 w)) (lookup t.sbox (byteK 3 w))

/-- `InvSubWord(w)` (40_tables.md R83). -/
def invSubWord (t : Tables) (w : Word) : Word :=
  pack (lookup t.invSbox (byteK 0 w)) (lookup t.invSbox (byteK 1 w)) (lookup t.invSbox (byteK 2 w))
    (lookup t.invSbox (byteK 3 w))

/-- The table-generation step (40_tables.md R81). It sets neither `DONE` nor `ERR`. -/
def tableStep (s : State) : State :=
  engineDone { s with tables := genTables s.tables, tablesReady := true, genPending := false }

end Machine
end Sys2Proof
end

