-- ==== Sys2Proof/Machine/KeySchedule.lean ====
section
/-! DEFINITION. The key-schedule engine (41_key_schedule.md): forward and inverse expansion, and `EXPAND_KEY`. -/

namespace Sys2Proof
namespace Machine

/-- `RotWord(w)` (41_key_schedule.md R85). -/
def rotWord (w : Word) : Word := rotl32 w 8

/-- The word that the loop of `ExpandForward` mixes into `W[i-Nk]` (41_key_schedule.md R87). -/
def forwardMix (t : Tables) (nk i : Nat) (prev : Word) : Word :=
  if i % nk = 0 then subWord t (rotWord prev) ^^^ ((rcon (i / nk)).setWidth 32 <<< 24)
  else if nk = 8 ∧ i % nk = 4 then subWord t prev
  else prev

/-- `W[i]` from the words before it, `i` being how many there are (41_key_schedule.md R87). -/
def forwardWord (t : Tables) (key : Vector Word 8) (nk : Nat) (W : List Word) : Word :=
  let i := W.length
  if i < nk then key.toList.getD i 0
  else W.getD (i - nk) 0 ^^^ forwardMix t nk i (W.getD (i - 1) 0)

/-- The first `n` words of `ExpandForward` (41_key_schedule.md R87). -/
def expandForward (t : Tables) (key : Vector Word 8) (nk : Nat) : Nat → List Word
  | 0 => []
  | n + 1 => expandForward t key nk n ++ [forwardWord t key nk (expandForward t key nk n)]

/-- `InvMixWord(w)` (41_key_schedule.md R89): the inverse-mix lookups, keyed by the S-box values of the bytes. -/
def invMixWord (t : Tables) (w : Word) : Word :=
  lookup t.invSubMix0 (lookup t.sbox (byteK 0 w)) ^^^ lookup t.invSubMix1 (lookup t.sbox (byteK 1 w))
    ^^^ lookup t.invSubMix2 (lookup t.sbox (byteK 2 w)) ^^^ lookup t.invSubMix3 (lookup t.sbox (byteK 3 w))

/-- `V[n]` of `ExpandInverse` (41_key_schedule.md R89): group `n div 4` comes from forward group `NR - (n div 4)`, in the
natural word order; the first and last groups are copied. -/
def inverseWord (t : Tables) (W : List Word) (nr n : Nat) : Word :=
  let w := W.getD (4 * (nr - n / 4) + n % 4) 0
  if n / 4 = 0 ∨ n / 4 = nr then w else invMixWord t w

/-- `ExpandInverse(W, NR)` (41_key_schedule.md R89). -/
def expandInverse (t : Tables) (W : List Word) (nr : Nat) : List Word :=
  (List.range ((nr + 1) * 4)).map (inverseWord t W nr)

/-- A schedule's 60 words of storage: its rows, then zeros (41_key_schedule.md R86). -/
def storeSchedule (W : List Word) : Vector Word 60 :=
  ⟨((W ++ List.replicate 60 0).take 60).toArray, by simp⟩

/-- Word `i` of a stored schedule; the transforms read words 0..59 only (log 12). -/
def scheduleWord (v : Vector Word 60) (i : Nat) : Word := v.toList.getD i 0

/-- The forward schedule of a key of `nk` words. -/
def forwardSchedule (t : Tables) (key : Vector Word 8) (nk : Nat) : List Word := expandForward t key nk (rowsOf nk)

/-- The inverse schedule of a key of `nk` words. -/
def inverseSchedule (t : Tables) (key : Vector Word 8) (nk : Nat) : List Word :=
  expandInverse t (forwardSchedule t key nk) (roundsOf nk)

/-- The writes of a successful `EXPAND_KEY` (41_key_schedule.md R86, R88). -/
def loadSchedule (nk : Nat) (s : State) : State :=
  { s with
    ks := storeSchedule (forwardSchedule s.tables s.key nk)
    iks := storeSchedule (inverseSchedule s.tables s.key nk)
    nr := BitVec.ofNat 4 (roundsOf nk)
    ksValid := true }

/-- `EXPAND_KEY` (41_key_schedule.md R86). -/
def execExpandKey (s : State) : Host.Outcome State Fault Refusal :=
  match keyWords s.keylen with
  | none => .next (complete .keyLength s)
  | some nk => .next (complete .none (loadSchedule nk s))

end Machine
end Sys2Proof
end

