-- ==== Sys2Proof/Machine/Block.lean ====
section
/-! DEFINITION. The block transform (42_block.md): `EncryptBlock`, `DecryptBlock`, `BLK_ENC` and `BLK_DEC`. -/

namespace Sys2Proof
namespace Machine

/-- Round key `k`, words `4k..4k+3` of a schedule (00_scope.md section 6). -/
def roundKey (v : Vector Word 60) (k : Nat) : Quad :=
  ⟨scheduleWord v (4 * k), scheduleWord v (4 * k + 1), scheduleWord v (4 * k + 2), scheduleWord v (4 * k + 3)⟩

/-! ### Encryption -/

/-- One output word of a table round: byte `k` comes from the `k`-th argument (42_block.md R100). -/
def mixColumn (t : Tables) (a b c d : Word) : Word :=
  lookup t.subMix0 (byteK 0 a) ^^^ lookup t.subMix1 (byteK 1 b) ^^^ lookup t.subMix2 (byteK 2 c)
    ^^^ lookup t.subMix3 (byteK 3 d)

/-- One output word of the final round: raw S-box, no mix (42_block.md R100). -/
def subColumn (t : Tables) (a b c d : Word) : Word :=
  pack (lookup t.sbox (byteK 0 a)) (lookup t.sbox (byteK 1 b)) (lookup t.sbox (byteK 2 c)) (lookup t.sbox (byteK 3 d))

/-- One table round before its round key: output word `j` takes byte `k` from input word `j + k` (42_block.md R100). -/
def encMix (t : Tables) (s : Quad) : Quad :=
  ⟨mixColumn t s.w0 s.w1 s.w2 s.w3, mixColumn t s.w1 s.w2 s.w3 s.w0,
   mixColumn t s.w2 s.w3 s.w0 s.w1, mixColumn t s.w3 s.w0 s.w1 s.w2⟩

/-- The final round before its round key (42_block.md R100). -/
def encFinal (t : Tables) (s : Quad) : Quad :=
  ⟨subColumn t s.w0 s.w1 s.w2 s.w3, subColumn t s.w1 s.w2 s.w3 s.w0,
   subColumn t s.w2 s.w3 s.w0 s.w1, subColumn t s.w3 s.w0 s.w1 s.w2⟩

/-- `n` table rounds, the first of them round `rd` (42_block.md R100). -/
def encRounds (t : Tables) (ks : Vector Word 60) : Nat → Nat → Quad → Quad
  | 0, _, s => s
  | n + 1, rd, s => encRounds t ks n (rd + 1) (quadXor (encMix t s) (roundKey ks rd))

/-- `EncryptBlock(x)` (42_block.md R100). -/
def encryptBlock (t : Tables) (ks : Vector Word 60) (nr : Nat) (x : Quad) : Quad :=
  quadXor (encFinal t (encRounds t ks (nr - 1) 1 (quadXor x (roundKey ks 0)))) (roundKey ks nr)

/-! ### Decryption -/

/-- One output word of an inverse table round (42_block.md R101). -/
def invMixColumn (t : Tables) (a b c d : Word) : Word :=
  lookup t.invSubMix0 (byteK 0 a) ^^^ lookup t.invSubMix1 (byteK 1 b) ^^^ lookup t.invSubMix2 (byteK 2 c)
    ^^^ lookup t.invSubMix3 (byteK 3 d)

/-- One output word of the final inverse round (42_block.md R101). -/
def invSubColumn (t : Tables) (a b c d : Word) : Word :=
  pack (lookup t.invSbox (byteK 0 a)) (lookup t.invSbox (byteK 1 b)) (lookup t.invSbox (byteK 2 c))
    (lookup t.invSbox (byteK 3 d))

/-- One inverse table round before its round key: output word `j` takes byte `k` from input word `j - k`
(42_block.md R101). -/
def decMix (t : Tables) (s : Quad) : Quad :=
  ⟨invMixColumn t s.w0 s.w3 s.w2 s.w1, invMixColumn t s.w1 s.w0 s.w3 s.w2,
   invMixColumn t s.w2 s.w1 s.w0 s.w3, invMixColumn t s.w3 s.w2 s.w1 s.w0⟩

/-- The final inverse round before its round key (42_block.md R101). -/
def decFinal (t : Tables) (s : Quad) : Quad :=
  ⟨invSubColumn t s.w0 s.w3 s.w2 s.w1, invSubColumn t s.w1 s.w0 s.w3 s.w2,
   invSubColumn t s.w2 s.w1 s.w0 s.w3, invSubColumn t s.w3 s.w2 s.w1 s.w0⟩

/-- `n` inverse table rounds, the first of them round `rd` (42_block.md R101). -/
def decRounds (t : Tables) (iks : Vector Word 60) : Nat → Nat → Quad → Quad
  | 0, _, s => s
  | n + 1, rd, s => decRounds t iks n (rd + 1) (quadXor (decMix t s) (roundKey iks rd))

/-- `DecryptBlock(c)` (42_block.md R101). -/
def decryptBlock (t : Tables) (iks : Vector Word 60) (nr : Nat) (c : Quad) : Quad :=
  quadXor (decFinal t (decRounds t iks (nr - 1) 1 (quadXor c (roundKey iks 0)))) (roundKey iks nr)

/-! ### One chained block -/

/-- `EncryptBlock` with the schedule of a state. -/
def encryptWith (s : State) (x : Quad) : Quad := encryptBlock s.tables s.ks s.nr.toNat x

/-- `DecryptBlock` with the schedule of a state. -/
def decryptWith (s : State) (c : Quad) : Quad := decryptBlock s.tables s.iks s.nr.toNat c

/-- Encrypt DBUF block `b` in place under the chaining value `c`; the next chaining value is the ciphertext
(42_block.md R102; 43_cbc.md R112). -/
def chainEncrypt (b : Nat) (c : Quad) (s : State) : Quad × State :=
  let r := readBlock b s
  let y := encryptWith s (quadXor r.1 c)
  (y, writeBlock b y r.2)

/-- Decrypt DBUF block `b` in place under the chaining value `c`; the next chaining value is the ciphertext saved before
the write (42_block.md R103; 43_cbc.md R113; 70_reset_and_hazards.md R162). -/
def chainDecrypt (b : Nat) (c : Quad) (s : State) : Quad × State :=
  let r := readBlock b s
  (r.1, writeBlock b (quadXor (decryptWith s r.1) c) r.2)

/-! ### The commands -/

/-- `BLK_ENC b` (42_block.md R102), its errors in the order of 60_exceptions.md R132. -/
def execBlkEnc (b : Nat) (s : State) : Host.Outcome State Fault Refusal :=
  if !s.ksValid then .next (complete .noSchedule s)
  else if !blockInRange s.cfg b then .next (complete .blkRange s)
  else
    let r := chainEncrypt b s.cv s
    .next (complete .none { r.2 with cv := r.1 })

/-- `BLK_DEC b` (42_block.md R103), its errors in the order of 60_exceptions.md R132. -/
def execBlkDec (b : Nat) (s : State) : Host.Outcome State Fault Refusal :=
  if !s.ksValid then .next (complete .noSchedule s)
  else if !blockInRange s.cfg b then .next (complete .blkRange s)
  else
    let r := chainDecrypt b s.cv s
    .next (complete .none { r.2 with cv := r.1 })

end Machine
end Sys2Proof
end

