-- ==== Sys2Proof/Machine/Cbc.lean ====
section
/-! DEFINITION. The CBC chain driver (43_cbc.md): `LOAD_IV`, `CBC_ENC` and `CBC_DEC`. -/

namespace Sys2Proof
namespace Machine

/-- `LOAD_IV` (43_cbc.md R110). -/
def execLoadIv (s : State) : Host.Outcome State Fault Refusal := .next (complete .none { s with cv := s.iv })

/-- The block loop of `CBC_ENC` (43_cbc.md R112): `n` blocks from block `b`, chaining from `c`. -/
def cbcEncLoop : Nat → Nat → Quad → State → Quad × State
  | 0, _, c, s => (c, s)
  | n + 1, b, c, s =>
    let r := chainEncrypt b c s
    cbcEncLoop n (b + 1) r.1 r.2

/-- The block loop of `CBC_DEC` (43_cbc.md R113): `n` blocks from block `b`, chaining from `c`. -/
def cbcDecLoop : Nat → Nat → Quad → State → Quad × State
  | 0, _, c, s => (c, s)
  | n + 1, b, c, s =>
    let r := chainDecrypt b c s
    cbcDecLoop n (b + 1) r.1 r.2

/-- `CBC_ENC` (43_cbc.md R112), its errors in the order of 60_exceptions.md R132. -/
def execCbcEnc (s : State) : Host.Outcome State Fault Refusal :=
  if !s.ksValid then .next (complete .noSchedule s)
  else if !lenLegal s.cfg s.len then .next (complete .blockLength s)
  else
    let r := cbcEncLoop (cbcBlocks s.len) 0 s.iv s
    .next (complete .none { r.2 with cv := r.1 })

/-- `CBC_DEC` (43_cbc.md R113), its errors in the order of 60_exceptions.md R132. -/
def execCbcDec (s : State) : Host.Outcome State Fault Refusal :=
  if !s.ksValid then .next (complete .noSchedule s)
  else if !lenLegal s.cfg s.len then .next (complete .blockLength s)
  else
    let r := cbcDecLoop (cbcBlocks s.len) 0 s.iv s
    .next (complete .none { r.2 with cv := r.1 })

end Machine
end Sys2Proof
end

