-- ==== Sys2Proof/Machine/Control.lean ====
section
/-! DEFINITION. The control command `NOP` (44_control.md R122). -/

namespace Sys2Proof
namespace Machine

/-- `NOP` (44_control.md R122): it completes with no effect. -/
def execNop (s : State) : Host.Outcome State Fault Refusal := .next (complete .none s)

end Machine
end Sys2Proof
end

