-- ==== Sys2Proof/Machine/Dispatch.lean ====
section
/-! DEFINITION. One arm per command: its completion step (44_control.md R121). -/

namespace Sys2Proof
namespace Machine

/-- The completion of a decoded command (44_control.md R121). -/
def exec (i : Instr) (s : State) : Host.Outcome State Fault Refusal :=
  match i with
  | .nop => Sys2Proof.Machine.execNop s
  | .expandKey => Sys2Proof.Machine.execExpandKey s
  | .loadIv => Sys2Proof.Machine.execLoadIv s
  | .blkEnc b => Sys2Proof.Machine.execBlkEnc b s
  | .blkDec b => Sys2Proof.Machine.execBlkDec b s
  | .cbcEnc => Sys2Proof.Machine.execCbcEnc s
  | .cbcDec => Sys2Proof.Machine.execCbcDec s

end Machine
end Sys2Proof
end

