-- ==== Sys2Proof/Machine/Engine.lean ====
section
/-! DEFINITION. The ENGINE (10_state.md R20; 44_control.md R121): when it is enabled, when it moves, and its step. -/

namespace Sys2Proof
namespace Machine

/-- The ENGINE has an enabled step: `BUSY = 1`, with the table-generation step or a latched command to take
(10_state.md R20; 44_control.md R121). -/
def engineEnabled (s : State) : Bool := s.busy && (s.genPending || s.pending.isSome)

/-- Which agent moves where both could (10_state.md R20): the ENGINE once its free delay has passed, or when the host has
no access to make. Any finite number of HOST steps may come first (44_control.md R123). Log 5. -/
def engineMoves (s : State) : Bool :=
  engineEnabled s && (s.inputs.isEmpty || decide (Config.engineDelay s.engineTurns ≤ s.waited))

/-- The latched command word, while the ENGINE has one to complete (10_state.md R40). -/
def latchedWord (s : State) : Option Word := if s.busy && !s.genPending then s.pending else none

/-- The command the ENGINE has to complete; none for an illegal word, which writes nothing (60_exceptions.md R131). -/
def pendingInstr (s : State) : Option Instr :=
  match latchedWord s with
  | none => none
  | some w =>
    match decode w with
    | .ok i => some i
    | .error _ => none

/-- The completion step of a command word (44_control.md R121): an illegal word reports `ILLEGAL_CMD` and does nothing
else (30_encoding.md R63, R64). -/
def completeWord (w : Word) (s : State) : Host.Outcome State Fault Refusal :=
  match decode w with
  | .ok i => exec i s
  | .error _ => .next (complete .illegalCmd s)

/-- The ENGINE's step: the table-generation step after a reset (40_tables.md R81; 70_reset_and_hazards.md R152), else the
completion of the latched word. -/
def engineStep (s : State) : Host.Outcome State Fault Refusal :=
  if s.genPending then .next (tableStep s)
  else
    match s.pending with
    | some w => completeWord w s
    | none => .next s

/-- The state in which the ENGINE's next step completes `w` and nothing else can move: the tables are generated first if
they were not (70_reset_and_hazards.md R152), the word is latched as by an accepted `CMD` write (44_control.md R120), and
the host makes no access. Log 13. -/
def placeCommand (w : Word) (s : State) : State :=
  let r := if s.genPending then tableStep s else s
  { r with busy := true, pending := some w, inputs := [] }

end Machine
end Sys2Proof
end

