-- ==== Sys2Proof/Machine/Bus.lean ====
section
/-! DEFINITION. The host bus (20_memory.md): the address map, what each location reads as, what a write does, and the HOST
step. -/

namespace Sys2Proof
namespace Machine

/-! ### The address map -/

/-- A location of the window (20_memory.md R43). -/
inductive Loc where
  | id
  | ctrl
  | status
  | irqStatus
  | cmd
  | err
  | keylen
  | len
  | nrounds
  | key (i : Fin 8)
  | iv (j : Fin 4)
  | cv (j : Fin 4)
  | ks (i : Fin 60)
  | iks (i : Fin 60)
  | dbuf (i : Nat)
  | sbox (b : Byte)
  | invSbox (b : Byte)
  | rcon (i : Fin 11)
  | subMix (k : Fin 4) (b : Byte)
  | invSubMix (k : Fin 4) (b : Byte)
  | reserved
deriving DecidableEq, Repr

/-- The size of the window in bytes (20_memory.md R43). -/
def windowBytes : Nat := 0x5000

/-- The offset of a bus address in the window, none outside it (20_memory.md R43). -/
def busOffset (cfg : Config.Params) (addr : Nat) : Option Nat :=
  if cfg.aesBase ≤ addr ∧ addr < cfg.aesBase + windowBytes then some (addr - cfg.aesBase) else none

/-- The registers at offsets 0x000 to 0x0FC (20_memory.md R43). -/
def locateRegister (off : Nat) : Loc :=
  if off = 0x000 then .id
  else if off = 0x004 then .ctrl
  else if off = 0x008 then .status
  else if off = 0x00C then .irqStatus
  else if off = 0x010 then .cmd
  else if off = 0x014 then .err
  else if off = 0x018 then .keylen
  else if off = 0x01C then .len
  else if off = 0x020 then .nrounds
  else if h : 0x040 ≤ off ∧ off < 0x060 then .key ⟨(off - 0x040) / 4, by omega⟩
  else if h : 0x060 ≤ off ∧ off < 0x070 then .iv ⟨(off - 0x060) / 4, by omega⟩
  else if h : 0x070 ≤ off ∧ off < 0x080 then .cv ⟨(off - 0x070) / 4, by omega⟩
  else .reserved

/-- The table windows at offsets 0x2000 to 0x4FFC (20_memory.md R43). -/
def locateTable (off : Nat) : Loc :=
  if 0x2000 ≤ off ∧ off < 0x2400 then .sbox (BitVec.ofNat 8 ((off - 0x2000) / 4))
  else if 0x2400 ≤ off ∧ off < 0x2800 then .invSbox (BitVec.ofNat 8 ((off - 0x2400) / 4))
  else if h : 0x2800 ≤ off ∧ off < 0x282C then .rcon ⟨(off - 0x2800) / 4, by omega⟩
  else if h : 0x3000 ≤ off ∧ off < 0x4000 then
    .subMix ⟨(off - 0x3000) / 0x400, by omega⟩ (BitVec.ofNat 8 ((off - 0x3000) % 0x400 / 4))
  else if h : 0x4000 ≤ off ∧ off < 0x5000 then
    .invSubMix ⟨(off - 0x4000) / 0x400, by omega⟩ (BitVec.ofNat 8 ((off - 0x4000) % 0x400 / 4))
  else .reserved

/-- The location at a word-aligned offset of the window (20_memory.md R43). -/
def locate (cfg : Config.Params) (off : Nat) : Loc :=
  if off < 0x100 then locateRegister off
  else if h : 0x100 ≤ off ∧ off < 0x1F0 then .ks ⟨(off - 0x100) / 4, by omega⟩
  else if h : 0x200 ≤ off ∧ off < 0x2F0 then .iks ⟨(off - 0x200) / 4, by omega⟩
  else if 0x1000 ≤ off ∧ off < 0x1000 + dbufBytes cfg then .dbuf ((off - 0x1000) / 4)
  else locateTable off

/-- The offset of a named location (20_memory.md R43; 30_encoding.md R67); for `reserved`, the first reserved offset. -/
def offsetOf : Loc → Nat
  | .id => 0x000
  | .ctrl => 0x004
  | .status => 0x008
  | .irqStatus => 0x00C
  | .cmd => 0x010
  | .err => 0x014
  | .keylen => 0x018
  | .len => 0x01C
  | .nrounds => 0x020
  | .key i => 0x040 + 4 * i.val
  | .iv j => 0x060 + 4 * j.val
  | .cv j => 0x070 + 4 * j.val
  | .ks i => 0x100 + 4 * i.val
  | .iks i => 0x200 + 4 * i.val
  | .dbuf i => dbufOffset i
  | .sbox b => 0x2000 + 4 * b.toNat
  | .invSbox b => 0x2400 + 4 * b.toNat
  | .rcon i => 0x2800 + 4 * i.val
  | .subMix k b => 0x3000 + 0x400 * k.val + 4 * b.toNat
  | .invSubMix k b => 0x4000 + 0x400 * k.val + 4 * b.toNat
  | .reserved => 0x024

/-! ### What a pending command writes -/

/-- The command writes `KS`, `IKS` and `NROUNDS` (20_memory.md R50). -/
def writesSchedule : Instr → Bool
  | .expandKey => true
  | .nop | .loadIv | .blkEnc _ | .blkDec _ | .cbcEnc | .cbcDec => false

/-- The command writes `CV` (20_memory.md R50). -/
def writesCv : Instr → Bool
  | .loadIv | .blkEnc _ | .blkDec _ | .cbcEnc | .cbcDec => true
  | .nop | .expandKey => false

/-- The command names the block of DBUF word `n`, `LEN` being `len` (20_memory.md R50). A command that will fail is not
told apart from one that will not (log 7). -/
def writesDbufWord (i : Instr) (len : BitVec 16) (n : Nat) : Bool :=
  match i with
  | .blkEnc b => decide (n / 4 = b)
  | .blkDec b => decide (n / 4 = b)
  | .cbcEnc => decide (n / 4 < cbcBlocks len)
  | .cbcDec => decide (n / 4 < cbcBlocks len)
  | .nop | .expandKey | .loadIv => false

/-- The pending operation satisfies `p` (20_memory.md R50). -/
def pendingWrites (s : State) (p : Instr → Bool) : Bool :=
  match pendingInstr s with
  | some i => p i
  | none => false

/-! ### Reads -/

/-- A value that a read sees unless it is hidden; a hidden one reads as a draw. -/
def unlessHidden (hidden : Bool) (w : Word) : Option Word := if hidden then none else some w

/-- The table windows read as draws: before the tables are ready (10_state.md R37) and during table generation
(20_memory.md R50). -/
def tablesHidden (s : State) : Bool := !s.tablesReady || (s.busy && s.genPending)

/-- `KS` and `IKS` read as draws: while `KS_VALID = 0` (10_state.md R36, R41) and while `EXPAND_KEY` is pending
(20_memory.md R50). -/
def scheduleHidden (s : State) : Bool := !s.ksValid || pendingWrites s writesSchedule

/-- What the location reads as, none where the read is a draw: a schedule that is not valid (10_state.md R36, R41), a
table that is not ready (R37), a DBUF word never written (R39), or a location that the pending operation writes
(20_memory.md R50). -/
def locValue (s : State) (l : Loc) : Option Word :=
  match l with
  | .id => some 0x41455301
  | .ctrl => some (s.ctrl.setWidth 32)
  | .status => some (statusWord s)
  | .irqStatus => some (s.irq.setWidth 32)
  | .cmd => some 0
  | .err => some ((errValue s.err).setWidth 32)
  | .keylen => some (s.keylen.setWidth 32)
  | .len => some (s.len.setWidth 32)
  | .nrounds => unlessHidden (pendingWrites s writesSchedule) (nroundsWord s)
  | .key i => some s.key[i]
  | .iv j => some (quadGet s.iv j)
  | .cv j => unlessHidden (pendingWrites s writesCv) (quadGet s.cv j)
  | .ks i => unlessHidden (scheduleHidden s) s.ks[i]
  | .iks i => unlessHidden (scheduleHidden s) s.iks[i]
  | .dbuf n => if pendingWrites s (writesDbufWord · s.len n) then none else memReadWord s.mem (dbufOffset n)
  | .sbox b => unlessHidden (tablesHidden s) ((lookup s.tables.sbox b).setWidth 32)
  | .invSbox b => unlessHidden (tablesHidden s) ((lookup s.tables.invSbox b).setWidth 32)
  | .rcon i => some (rconTable[i].setWidth 32)
  | .subMix k b => unlessHidden (tablesHidden s) (lookup (subMixTable s.tables k) b)
  | .invSubMix k b => unlessHidden (tablesHidden s) (lookup (invSubMixTable s.tables k) b)
  | .reserved => some 0

/-- `MemRead` of a location: its value, or a draw. It changes no architectural state (20_memory.md R47). -/
def readLoc (l : Loc) (s : State) : Word × State :=
  match locValue s l with
  | some w => (w, s)
  | none => draw s

/-! ### Writes -/

/-- `MemWrite` of a location (20_memory.md R46, R47, R49): the side effects are those of R47 and no others. -/
def writeLoc (l : Loc) (v : Word) (s : State) : State :=
  match l with
  | .ctrl => { s with ctrl := v.setWidth 3 }
  | .irqStatus => { s with irq := writeOneToClear s.irq (v.setWidth 3) }
  | .cmd => unlessBusy s { s with pending := some v, busy := true }
  | .keylen => unlessBusy s { s with keylen := v.setWidth 8, ksValid := false }
  | .len => unlessBusy s { s with len := v.setWidth 16 }
  | .key i => unlessBusy s { s with key := s.key.set i v, ksValid := false }
  | .iv j => unlessBusy s { s with iv := quadSet s.iv j v }
  | .dbuf n => unlessBusy s (dbufWrite n v s)
  | .id | .status | .err | .nrounds | .cv _ | .ks _ | .iks _ | .sbox _ | .invSbox _ | .rcon _ | .subMix _ _
  | .invSubMix _ _ | .reserved => s

/-! ### The HOST step -/

/-- An access of this size at this offset is a legal one (20_memory.md R44, R45). -/
def accessLegal (off size : Nat) : Bool := decide (size = 4) && decide (off % 4 = 0)

/-- A host read (20_memory.md R43 to R45). -/
def busRead (addr size : Nat) (s : State) : Host.Outcome State Fault Refusal :=
  match busOffset s.cfg addr with
  | none => .next { s with response := .notSelected }
  | some off =>
    if accessLegal off size then
      let r := readLoc (locate s.cfg off) s
      .next { r.2 with response := .data r.1 }
    else .fault (.busError off size)

/-- A host write (20_memory.md R43 to R45). -/
def busWrite (addr size : Nat) (v : Word) (s : State) : Host.Outcome State Fault Refusal :=
  match busOffset s.cfg addr with
  | none => .next { s with response := .notSelected }
  | some off =>
    if accessLegal off size then .next { writeLoc (locate s.cfg off) v s with response := .written }
    else .fault (.busError off size)

/-- The platform's reset (70_reset_and_hazards.md R151): the state of R150, the pending command gone. The machine's
parameters stay, and so do the model's own counter of draws and the accesses still to come (log 11). -/
def resetDevice (s : State) : State :=
  { State.reset with
    cfg := s.cfg
    draws := s.draws
    engineTurns := s.engineTurns + 1
    inputs := s.inputs }

/-- Take one HOST step off the ENGINE's delay, if the ENGINE is waiting (log 5). -/
def hostTick (s : State) : State := if engineEnabled s then { s with waited := s.waited + 1 } else s

/-- The HOST's step: its next access, or none left (70_reset_and_hazards.md R166; log 10). -/
def hostStep (s : State) : Host.Outcome State Fault Refusal :=
  match s.inputs with
  | [] => .next s
  | .read addr size :: rest => busRead addr size { hostTick s with inputs := rest }
  | .write addr size v :: rest => busWrite addr size v { hostTick s with inputs := rest }
  | .wait :: rest =>
    busRead (s.cfg.aesBase + offsetOf .status) 4 { hostTick s with inputs := if s.busy then .wait :: rest else rest }
  | .reset :: rest => .next (resetDevice { s with inputs := rest })

/-! ### Host programs -/

/-- `wr NAME, v` (30_encoding.md R67). -/
def hostWrite (cfg : Config.Params) (l : Loc) (v : Word) : BusInput := .write (cfg.aesBase + offsetOf l) 4 v

/-- `rd NAME` (30_encoding.md R67). -/
def hostRead (cfg : Config.Params) (l : Loc) : BusInput := .read (cfg.aesBase + offsetOf l) 4

/-- A command pseudo-instruction: `wr CMD, <encoding>` (30_encoding.md R67, R68). -/
def hostCommand (cfg : Config.Params) (i : Instr) : BusInput := hostWrite cfg .cmd (encode i)

/-- `clr_irq m`: `wr IRQ_STATUS, m` (30_encoding.md R67, R68). -/
def hostClearIrq (cfg : Config.Params) (m : Word) : BusInput := hostWrite cfg .irqStatus m

end Machine
end Sys2Proof
end

