-- ==== Sys2Proof/Machine/Step.lean ====
section
/-! DEFINITION. One step of the machine: the ENGINE's or the HOST's (10_state.md R20; 20_memory.md R51). -/

namespace Sys2Proof
namespace Machine

/-- One step: the two agents' steps are serialised (20_memory.md R51). -/
def step (s : State) : Host.Outcome State Fault Refusal := if engineMoves s then engineStep s else hostStep s

/-- `s` with the command word that spec/opcode_table.json numbers `w` latched, so that the very next step completes it
(log 13). -/
def State.withFetchWord (s : State) (nbits w : Nat) : State := placeCommand (tableWord nbits w) s

end Machine
end Sys2Proof
end

