-- ==== Sys2Proof/Safety.lean ====
section
/-! DEFINITION. The terms in which claims are stated: the invariant of every run, blocks of DBUF as data, sequences of
commands, what a machine with no valid schedule may not reveal, and the textbook round functions that the table rounds
stand for. Nothing here is used by `step`. -/

namespace Sys2Proof
namespace Machine

/-! ### DBUF -/

/-- Every byte held lies in the DBUF window (20_memory.md R43; 10_state.md R39). -/
def memInWindow (cfg : Config.Params) (m : Memory) : Bool :=
  m.all fun c => decide (0x1000 ≤ c.1) && decide (c.1 < 0x1000 + dbufBytes cfg)

/-- DBUF is written by whole words only (20_memory.md R44, R48): a word's four bytes are all written or all not. -/
def memWholeWords (m : Memory) : Prop :=
  ∀ i k, k < 4 → (memRead m (dbufOffset i + k)).isSome = (memRead m (dbufOffset i)).isSome

/-- Block `b` of DBUF, if all its four words have been written. -/
def memBlock (m : Memory) (b : Nat) : Option Quad :=
  match memReadWord m (dbufOffset (blockStart b)), memReadWord m (dbufOffset (blockStart b + 1)),
    memReadWord m (dbufOffset (blockStart b + 2)), memReadWord m (dbufOffset (blockStart b + 3)) with
  | some w0, some w1, some w2, some w3 => some ⟨w0, w1, w2, w3⟩
  | _, _, _, _ => none

/-- `x` is what an ENGINE read of block `b` may give: each written word is its own value, each unwritten word any value
(20_memory.md R48). -/
def blockReadsAs (m : Memory) (b : Nat) (x : Quad) : Prop :=
  ∀ (j : Fin 4) (w : Word), memReadWord m (dbufOffset (blockStart b + j.val)) = some w → quadGet x j = w

/-- The offset `a` is one of the 16 bytes of block `b`. -/
def inBlock (b a : Nat) : Prop := dbufOffset (blockStart b) ≤ a ∧ a < dbufOffset (blockStart b) + 16

/-! ### The invariant -/

/-- The stored schedules and round count are the expansion of the current key (10_state.md R26, R88). -/
def scheduleIsOfKey (s : State) : Prop :=
  ∃ nk, keyWords s.keylen = some nk ∧ s.nr = BitVec.ofNat 4 (roundsOf nk)
    ∧ s.ks = storeSchedule (forwardSchedule s.tables s.key nk)
    ∧ s.iks = storeSchedule (inverseSchedule s.tables s.key nk)

/-- What holds in every state of every run. -/
structure Inv (s : State) : Prop where
  /-- DBUF is in canonical form. -/
  memWf : Memory.wf s.mem = true
  /-- DBUF lies in its window. -/
  memIn : memInWindow s.cfg s.mem = true
  /-- DBUF is written by whole words. -/
  memWhole : memWholeWords s.mem
  /-- `BUSY = 1` exactly while the ENGINE has a step to take (10_state.md R20, R40). -/
  busyIff : s.busy = true ↔ (s.genPending = true ∨ s.pending.isSome = true)
  /-- No command is latched before the tables are generated (10_state.md R40; 70_reset_and_hazards.md R152). -/
  genAlone : s.genPending = true → s.pending = none
  /-- The tables are ready exactly when their generation is past (40_tables.md R81). -/
  readyIff : s.tablesReady = !s.genPending
  /-- Ready tables hold the generated values (10_state.md R26). -/
  tablesGen : s.tablesReady = true → s.tables = genTables Tables.blank
  /-- A valid schedule needs ready tables. -/
  validReady : s.ksValid = true → s.tablesReady = true
  /-- A valid schedule is the expansion of the current key (10_state.md R26; 41_key_schedule.md R88). -/
  validKey : s.ksValid = true → scheduleIsOfKey s

/-! ### Sequences of steps and commands -/

/-- `n` steps, stopping at the first that answers no next state. -/
def stepN : Nat → State → Host.Outcome State Fault Refusal
  | 0, s => .next s
  | n + 1, s =>
    match step s with
    | .next t => stepN n t
    | .fault f => .fault f
    | .refused r => .refused r

/-- Run commands one after another, each to its completion. -/
def execAll : List Instr → State → Host.Outcome State Fault Refusal
  | [], s => .next s
  | i :: is, s =>
    match exec i s with
    | .next t => execAll is t
    | .fault f => .fault f
    | .refused r => .refused r

/-! ### What is hidden -/

/-- A state with its schedule storage cleared. -/
def clearSchedule (s : State) : State :=
  { s with ks := .replicate 60 0, iks := .replicate 60 0, nr := 0 }

/-- A state as an observer may know it: a schedule that is not valid is not there (10_state.md R36, R41). -/
def forgetSchedule (s : State) : State := if s.ksValid then s else clearSchedule s

/-- A function of states applied to the state of an outcome. -/
def mapOutcome (f : State → State) : Host.Outcome State Fault Refusal → Host.Outcome State Fault Refusal
  | .next s => .next (f s)
  | .fault r => .fault r
  | .refused r => .refused r

/-! ### The textbook round functions

A block is the 4x4 byte state with word `j` as column `j` and `byte_k` as row `k` (42_block.md R104). The MixColumns
coefficients are those of 40_tables.md R76; the rest is what 42_block.md R100 and R101 say their lookups realise. -/

/-- SubBytes on a block. -/
def textSubBytes (t : Tables) (s : Quad) : Quad := ⟨subWord t s.w0, subWord t s.w1, subWord t s.w2, subWord t s.w3⟩

/-- InvSubBytes on a block. -/
def textInvSubBytes (t : Tables) (s : Quad) : Quad :=
  ⟨invSubWord t s.w0, invSubWord t s.w1, invSubWord t s.w2, invSubWord t s.w3⟩

/-- The column whose row `k` is row `k` of the `k`-th argument. -/
def textColumn (a b c d : Word) : Word := pack (byteK 0 a) (byteK 1 b) (byteK 2 c) (byteK 3 d)

/-- ShiftRows: row `k` of column `j` comes from column `j + k` (42_block.md R100). -/
def textShiftRows (s : Quad) : Quad :=
  ⟨textColumn s.w0 s.w1 s.w2 s.w3, textColumn s.w1 s.w2 s.w3 s.w0,
   textColumn s.w2 s.w3 s.w0 s.w1, textColumn s.w3 s.w0 s.w1 s.w2⟩

/-- InvShiftRows: row `k` of column `j` comes from column `j - k` (42_block.md R101). -/
def textInvShiftRows (s : Quad) : Quad :=
  ⟨textColumn s.w0 s.w3 s.w2 s.w1, textColumn s.w1 s.w0 s.w3 s.w2,
   textColumn s.w2 s.w1 s.w0 s.w3, textColumn s.w3 s.w2 s.w1 s.w0⟩

/-- A circulant matrix with first row `c0 c1 c2 c3` applied to a column (40_tables.md R76). -/
def textCirculant (c0 c1 c2 c3 : Byte) (w : Word) : Word :=
  let row (a b c d : Byte) : Byte :=
    gmul (byteK 0 w) a ^^^ gmul (byteK 1 w) b ^^^ gmul (byteK 2 w) c ^^^ gmul (byteK 3 w) d
  pack (row c0 c1 c2 c3) (row c3 c0 c1 c2) (row c2 c3 c0 c1) (row c1 c2 c3 c0)

/-- MixColumns on a column: first row 02 03 01 01, so first column 02 01 01 03 (40_tables.md R76). -/
def textMixColumn (w : Word) : Word := textCirculant 0x02 0x03 0x01 0x01 w

/-- InvMixColumns on a column: first row 0e 0b 0d 09, so first column 0e 09 0d 0b (40_tables.md R76). -/
def textInvMixColumn (w : Word) : Word := textCirculant 0x0e 0x0b 0x0d 0x09 w

/-- MixColumns on a block. -/
def textMixColumns (s : Quad) : Quad :=
  ⟨textMixColumn s.w0, textMixColumn s.w1, textMixColumn s.w2, textMixColumn s.w3⟩

/-- InvMixColumns on a block. -/
def textInvMixColumns (s : Quad) : Quad :=
  ⟨textInvMixColumn s.w0, textInvMixColumn s.w1, textInvMixColumn s.w2, textInvMixColumn s.w3⟩

/-- The middle rounds of the textbook cipher (42_block.md R104): rounds `rd` to `rd + n - 1`. -/
def textRounds (t : Tables) (key : Nat → Quad) : Nat → Nat → Quad → Quad
  | 0, _, s => s
  | n + 1, rd, s =>
    textRounds t key n (rd + 1) (quadXor (textMixColumns (textShiftRows (textSubBytes t s))) (key rd))

/-- The textbook cipher (42_block.md R104) with round keys `key 0 .. key nr`. -/
def textCipher (t : Tables) (key : Nat → Quad) (nr : Nat) (x : Quad) : Quad :=
  quadXor (textShiftRows (textSubBytes t (textRounds t key (nr - 1) 1 (quadXor x (key 0))))) (key nr)

/-- The middle rounds of the textbook inverse cipher, with the forward round keys from `rd` downwards. -/
def textInvRounds (t : Tables) (key : Nat → Quad) : Nat → Quad → Quad
  | 0, s => s
  | n + 1, s =>
    textInvRounds t key n
      (textInvMixColumns (quadXor (textInvSubBytes t (textInvShiftRows s)) (key (n + 1))))

/-- The textbook inverse cipher (42_block.md R104) with the forward round keys `key nr .. key 0`. -/
def textInvCipher (t : Tables) (key : Nat → Quad) (nr : Nat) (c : Quad) : Quad :=
  quadXor (textInvSubBytes t (textInvShiftRows (textInvRounds t key (nr - 1) (quadXor c (key nr))))) (key 0)

end Machine
end Sys2Proof
end

