-- ==== Sys2Proof/Certificates/Slice0/Obligations.lean ====
section
/-! DEFINITION. The statements for the provers. Each docstring names the rules of spec/ that it formalises. A register is
named by its location (`Loc`) or its field of `State`; an offset is written as 20_memory.md R43 writes it. -/

open Sys2Proof Sys2Proof.Machine

/-! ### Reset -/

/-- 70_reset_and_hazards.md R150, every row of its table: what each register reads as after reset, that the unspecified
locations read as draws, that no command is pending, and that table generation is the ENGINE's next step. -/
def Obligations.ResetLeavesTheStatedValues : Prop :=
  let r := State.reset
  locValue r .id = some 0x41455301 ∧ r.ctrl = 0 ∧ r.busy = true ∧ r.tablesReady = false ∧ r.ksValid = false
    ∧ locValue r .status = some 0x00000001 ∧ r.irq = 0 ∧ errValue r.err = 0 ∧ r.keylen = 0 ∧ r.len = 0 ∧ r.nr = 0
    ∧ locValue r .nrounds = some 0 ∧ (∀ i : Fin 8, r.key[i] = 0) ∧ (∀ j, quadGet r.iv j = 0) ∧ (∀ j, quadGet r.cv j = 0)
    ∧ (∀ i, locValue r (.ks i) = none ∧ locValue r (.iks i) = none)
    ∧ (∀ b, locValue r (.sbox b) = none ∧ locValue r (.invSbox b) = none)
    ∧ (∀ k b, locValue r (.subMix k b) = none ∧ locValue r (.invSubMix k b) = none)
    ∧ rconTable.toList = [0x00, 0x01, 0x02, 0x04, 0x08, 0x10, 0x20, 0x40, 0x80, 0x1b, 0x36]
    ∧ (∀ i : Fin 11, locValue r (.rcon i) = some (rconTable[i].setWidth 32))
    ∧ (∀ n, locValue r (.dbuf n) = none) ∧ r.pending = none ∧ r.genPending = true
    ∧ engineStep r = .next (tableStep r)

/-- 70_reset_and_hazards.md R151: a reset that arrives, with whatever command pending, puts the device in the reset state.
What becomes of the model's own counters and of the machine's parameters is the model's choice (log 11). -/
def Obligations.PlatformResetDiscardsEverything : Prop :=
  ∀ (s : State) (rest : List BusInput), s.inputs = .reset :: rest →
    hostStep s = .next { State.reset with
      cfg := s.cfg, draws := s.draws, engineTurns := s.engineTurns + 1, inputs := rest }
    ∧ (engineMoves s = false → step s = hostStep s)

/-- 70_reset_and_hazards.md R152: after reset, in any configuration and with any accesses to come, the only ENGINE step is
table generation; before it `STATUS` reads 1, command inputs are dropped with `OVR`, table reads are draws; after it
`STATUS` reads 2. -/
def Obligations.AfterResetTablesComeFirst : Prop :=
  ∀ (cfg : Config.Params) (l : List BusInput),
    let r : State := { State.reset with cfg := cfg, inputs := l }
    latchedWord r = none
    ∧ (∃ t, engineStep r = .next t ∧ t.tablesReady = true ∧ locValue t .status = some 0x00000002)
    ∧ locValue r .status = some 0x00000001
    ∧ (∀ v, writeLoc .cmd v r = { r with irq := 0b100 } ∧ writeLoc .keylen v r = { r with irq := 0b100 }
        ∧ writeLoc .len v r = { r with irq := 0b100 } ∧ (∀ i, writeLoc (.key i) v r = { r with irq := 0b100 })
        ∧ (∀ j, writeLoc (.iv j) v r = { r with irq := 0b100 })
        ∧ (∀ n, writeLoc (.dbuf n) v r = { r with irq := 0b100 }))
    ∧ (∀ b, locValue r (.sbox b) = none ∧ locValue r (.invSbox b) = none)
    ∧ (∀ k b, locValue r (.subMix k b) = none ∧ locValue r (.invSubMix k b) = none)

/-! ### The invariant -/

/-- `Inv` holds at reset. -/
def Obligations.ResetMeetsTheInvariant : Prop := Inv State.reset

/-- Every step keeps `Inv`: DBUF in canonical form and in its window, `BUSY` exactly while the ENGINE has a step, ready
tables the generated ones, and a valid schedule the expansion of the current key (10_state.md R20, R26, R40;
41_key_schedule.md R88). -/
def Obligations.EveryStepKeepsTheInvariant : Prop := ∀ s t : State, Inv s → step s = .next t → Inv t

/-! ### Commands as words -/

/-- 30_encoding.md R60 to R62: decoding the word of a command gives the command back, for every block index. -/
def Obligations.DecodeUndoesEncode : Prop := ∀ i : Instr, i.WellFormed → decode (encode i) = .ok i

/-- 30_encoding.md R61, R65: the decoder accepts exactly the words that match a row of the table under its mask, each as
that row's command with `b` the bits [15:8], and every accepted word is the encoding of what it decodes to. -/
def Obligations.DecodeAcceptsExactlyTheTable : Prop :=
  ∀ w : Word,
    (decode w = .ok .nop ↔ w &&& 0xFFFFFFFF = 0x00000000)
    ∧ (decode w = .ok .expandKey ↔ w &&& 0xFFFFFFFF = 0x00000001)
    ∧ (decode w = .ok .loadIv ↔ w &&& 0xFFFFFFFF = 0x00000002)
    ∧ (∀ b, decode w = .ok (.blkEnc b) ↔ w &&& 0xFFFF00FF = 0x00000003 ∧ b = w.toNat / 256 % 256)
    ∧ (∀ b, decode w = .ok (.blkDec b) ↔ w &&& 0xFFFF00FF = 0x00000004 ∧ b = w.toNat / 256 % 256)
    ∧ (decode w = .ok .cbcEnc ↔ w &&& 0xFFFFFFFF = 0x00000005)
    ∧ (decode w = .ok .cbcDec ↔ w &&& 0xFFFFFFFF = 0x00000006)
    ∧ (∀ i, decode w = .ok i → i.WellFormed ∧ encode i = w)

/-- 30_encoding.md R63, R64: a reserved `OP`, a reserved bit, or a `BLK` that its `OP` does not use makes the word illegal,
the write that latches it is accepted all the same, and its completion raises `ILLEGAL_CMD` with no other effect. -/
def Obligations.IllegalWordsReportIllegalCmd : Prop :=
  ∀ (w : Word) (s : State),
    (7 ≤ (w.extractLsb' 0 4).toNat ∨ w.extractLsb' 4 4 ≠ 0 ∨ w.extractLsb' 16 16 ≠ 0
      ∨ (w.extractLsb' 8 8 ≠ 0 ∧ (w.extractLsb' 0 4).toNat ≠ 3 ∧ (w.extractLsb' 0 4).toNat ≠ 4)) →
    (∃ e, decode w = .error e)
    ∧ (s.busy = false → writeLoc .cmd w s = { s with pending := some w, busy := true })
    ∧ completeWord w s = .next { s with
        err := .illegalCmd, irq := s.irq ||| 0b011, busy := false, pending := none,
        engineTurns := s.engineTurns + 1, waited := 0 }

/-- Words written out from the patterns of 30_encoding.md R61 and the vectors of 95_test_vectors.md decode to what they
stand for (sanity). -/
def Obligations.WrittenOutWordsDecode : Prop :=
  decode 0x00000000 = .ok .nop ∧ decode 0x00000001 = .ok .expandKey ∧ decode 0x00000002 = .ok .loadIv
    ∧ decode 0x0000ff03 = .ok (.blkEnc 255) ∧ decode 0x00000304 = .ok (.blkDec 3)
    ∧ decode 0x00000005 = .ok .cbcEnc ∧ decode 0x00000006 = .ok .cbcDec
    ∧ decode 0x00000007 = .error .reservedOp ∧ decode 0x00000101 = .error .blkNotZero
    ∧ decode 0x00010003 = .error .reservedBits

/-! ### The two agents -/

/-- When the latched word decodes to a command and the ENGINE moves, the step is `exec` of that command at this state,
with nothing added around it (44_control.md R121); and `withFetchWord` places a word so that the next step completes it. -/
def Obligations.StepRunsTheLatchedCommand : Prop :=
  (∀ (s : State) (w : Word) (i : Instr), s.busy = true → s.genPending = false → s.pending = some w → decode w = .ok i →
    engineMoves s = true → step s = exec i s)
  ∧ (∀ s : State, s.inputs = [] → engineEnabled s = true → engineMoves s = true)
  ∧ (∀ (s : State) (nbits w : Nat),
      step (s.withFetchWord nbits w) = completeWord (tableWord nbits w) (s.withFetchWord nbits w))

/-- When the ENGINE does not move, the step is the host's next access, taken off the list, with the ENGINE's wait counted
if it is enabled; `wait` reads `STATUS` and stays until `BUSY = 0`; with no access left the state stays as it is
(10_state.md R20; 20_memory.md R51; 30_encoding.md R68). -/
def Obligations.StepRunsTheHostAccess : Prop :=
  ∀ s : State, engineMoves s = false →
    let ticked : State := { s with waited := if engineEnabled s then s.waited + 1 else s.waited }
    (s.inputs = [] → step s = .next s)
    ∧ (∀ addr size rest, s.inputs = .read addr size :: rest → step s = busRead addr size { ticked with inputs := rest })
    ∧ (∀ addr size v rest, s.inputs = .write addr size v :: rest →
        step s = busWrite addr size v { ticked with inputs := rest })
    ∧ (∀ rest, s.inputs = .wait :: rest → step s = .next { ticked with
        inputs := if s.busy then s.inputs else rest, response := .data (statusWord s) })

/-- 44_control.md R123: an enabled ENGINE takes its step after at most `Config.engineDelay` HOST steps, whatever they are,
as long as none of them is a reset or a bus error. The delay is a free value; the statement holds for every value of it. -/
def Obligations.EngineMovesWithinItsDelay : Prop :=
  ∀ s : State, engineEnabled s = true → BusInput.reset ∉ s.inputs →
    (∀ (k : Nat) (f : Fault), k ≤ Config.engineDelay s.engineTurns - s.waited → stepN k s ≠ .fault f) →
    ∃ (k : Nat) (t : State), k ≤ Config.engineDelay s.engineTurns - s.waited ∧ stepN k s = .next t
      ∧ engineMoves t = true ∧ t.pending = s.pending ∧ t.genPending = s.genPending

/-! ### The address map and the bus -/

/-- 20_memory.md R43: every row of the offset map, the reserved rows, and that an access outside the window does not reach
the device. -/
def Obligations.AddressMapIsTheTable : Prop :=
  (∀ cfg : Config.Params,
    locate cfg 0x000 = .id ∧ locate cfg 0x004 = .ctrl ∧ locate cfg 0x008 = .status ∧ locate cfg 0x00C = .irqStatus
    ∧ locate cfg 0x010 = .cmd ∧ locate cfg 0x014 = .err ∧ locate cfg 0x018 = .keylen ∧ locate cfg 0x01C = .len
    ∧ locate cfg 0x020 = .nrounds
    ∧ (∀ i : Fin 8, locate cfg (0x040 + 4 * i.val) = .key i)
    ∧ (∀ j : Fin 4, locate cfg (0x060 + 4 * j.val) = .iv j)
    ∧ (∀ j : Fin 4, locate cfg (0x070 + 4 * j.val) = .cv j)
    ∧ (∀ i : Fin 60, locate cfg (0x100 + 4 * i.val) = .ks i)
    ∧ (∀ i : Fin 60, locate cfg (0x200 + 4 * i.val) = .iks i)
    ∧ (∀ n, n < 4 * dbufBlocks cfg → locate cfg (0x1000 + 4 * n) = .dbuf n)
    ∧ (∀ b : Byte, locate cfg (0x2000 + 4 * b.toNat) = .sbox b)
    ∧ (∀ b : Byte, locate cfg (0x2400 + 4 * b.toNat) = .invSbox b)
    ∧ (∀ i : Fin 11, locate cfg (0x2800 + 4 * i.val) = .rcon i)
    ∧ (∀ (k : Fin 4) (b : Byte), locate cfg (0x3000 + 0x400 * k.val + 4 * b.toNat) = .subMix k b)
    ∧ (∀ (k : Fin 4) (b : Byte), locate cfg (0x4000 + 0x400 * k.val + 4 * b.toNat) = .invSubMix k b)
    ∧ (∀ off, (0x024 ≤ off ∧ off < 0x040) ∨ (0x080 ≤ off ∧ off < 0x100) ∨ (0x1F0 ≤ off ∧ off < 0x200)
        ∨ (0x2F0 ≤ off ∧ off < 0x1000) ∨ (0x1000 + dbufBytes cfg ≤ off ∧ off < 0x2000)
        ∨ (0x282C ≤ off ∧ off < 0x3000) → locate cfg off = .reserved))
  ∧ (∀ (s : State) (addr size : Nat) (v : Word), addr < s.cfg.aesBase ∨ s.cfg.aesBase + 0x5000 ≤ addr →
      busRead addr size s = .next { s with response := .notSelected }
      ∧ busWrite addr size v s = .next { s with response := .notSelected })

/-- 20_memory.md R44, R45: in the window an access of four bytes at a word-aligned offset is a read or write of the
location there; any other access is a bus error and nothing else. -/
def Obligations.OnlyAlignedWordAccesses : Prop :=
  ∀ (s : State) (off size : Nat) (v : Word), off < 0x5000 →
    (size = 4 ∧ off % 4 = 0 →
      busRead (s.cfg.aesBase + off) size s
        = .next { (readLoc (locate s.cfg off) s).2 with response := .data (readLoc (locate s.cfg off) s).1 }
      ∧ busWrite (s.cfg.aesBase + off) size v s
        = .next { writeLoc (locate s.cfg off) v s with response := .written })
    ∧ (size ≠ 4 ∨ off % 4 ≠ 0 →
      busRead (s.cfg.aesBase + off) size s = .fault (.busError off size)
      ∧ busWrite (s.cfg.aesBase + off) size v s = .fault (.busError off size))

/-- 20_memory.md R47: no read has a side effect. The count of draws and the answer are the model's own fields. -/
def Obligations.ReadsHaveNoSideEffect : Prop :=
  ∀ (s t : State) (addr size : Nat), busRead addr size s = .next t →
    t = { s with draws := t.draws, response := t.response }

/-- What each register reads as while the ENGINE is idle (10_state.md R24 to R39): the constant, the flags in their bits,
`NROUNDS` only under a valid schedule, the tables once they are ready, a DBUF word once it is written. -/
def Obligations.IdleReadsReturnTheRegisters : Prop :=
  ∀ s : State, s.busy = false →
    locValue s .id = some 0x41455301 ∧ locValue s .ctrl = some (s.ctrl.setWidth 32)
    ∧ locValue s .status = some (BitVec.ofNat 32 (2 * s.tablesReady.toNat + 4 * s.ksValid.toNat))
    ∧ locValue s .irqStatus = some (s.irq.setWidth 32) ∧ locValue s .cmd = some 0
    ∧ locValue s .err = some ((errValue s.err).setWidth 32)
    ∧ locValue s .keylen = some (s.keylen.setWidth 32) ∧ locValue s .len = some (s.len.setWidth 32)
    ∧ locValue s .nrounds = some (if s.ksValid then s.nr.setWidth 32 else 0)
    ∧ (∀ i, locValue s (.key i) = some s.key[i]) ∧ (∀ j, locValue s (.iv j) = some (quadGet s.iv j))
    ∧ (∀ j, locValue s (.cv j) = some (quadGet s.cv j))
    ∧ (s.ksValid = true → ∀ i, locValue s (.ks i) = some s.ks[i] ∧ locValue s (.iks i) = some s.iks[i])
    ∧ (s.tablesReady = true → ∀ b, locValue s (.sbox b) = some ((lookup s.tables.sbox b).setWidth 32)
        ∧ locValue s (.invSbox b) = some ((lookup s.tables.invSbox b).setWidth 32)
        ∧ ∀ k, locValue s (.subMix k b) = some (lookup (subMixTable s.tables k) b)
          ∧ locValue s (.invSubMix k b) = some (lookup (invSubMixTable s.tables k) b))
    ∧ (∀ i : Fin 11, locValue s (.rcon i) = some (rconTable[i].setWidth 32))
    ∧ (∀ n, locValue s (.dbuf n) = memReadWord s.mem (0x1000 + 4 * n)) ∧ locValue s .reserved = some 0

/-- An accepted write of a read-write register reads back as written, in the bits the register has, and stores the value and
does nothing else (but that a write of `KEY[i]` or `KEYLEN` clears `KS_VALID`); the other words of an array keep their
values. `CTRL` is written so in any state, the others while `BUSY = 0` (10_state.md R25, R28 to R30, R32, R39; 20_memory.md
R47, R48). -/
def Obligations.WrittenRegistersReadBack : Prop :=
  (∀ (s : State) (v : Word),
    locValue (writeLoc .ctrl v s) .ctrl = some (v &&& 0x00000007)
    ∧ writeLoc .ctrl v s = { s with ctrl := v.setWidth 3 })
  ∧ ∀ (s : State) (v : Word), s.busy = false →
    locValue (writeLoc .keylen v s) .keylen = some (v &&& 0x000000FF)
    ∧ writeLoc .keylen v s = { s with keylen := v.setWidth 8, ksValid := false }
    ∧ locValue (writeLoc .len v s) .len = some (v &&& 0x0000FFFF)
    ∧ writeLoc .len v s = { s with len := v.setWidth 16 }
    ∧ (∀ i k, locValue (writeLoc (.key i) v s) (.key k) = if k = i then some v else locValue s (.key k))
    ∧ (∀ i, writeLoc (.key i) v s = { s with key := (writeLoc (.key i) v s).key, ksValid := false })
    ∧ (∀ j k, locValue (writeLoc (.iv j) v s) (.iv k) = if k = j then some v else locValue s (.iv k))
    ∧ (∀ j, writeLoc (.iv j) v s = { s with iv := (writeLoc (.iv j) v s).iv })
    ∧ (∀ n k, locValue (writeLoc (.dbuf n) v s) (.dbuf k) = if k = n then some v else locValue s (.dbuf k))
    ∧ (∀ n, writeLoc (.dbuf n) v s = { s with mem := (writeLoc (.dbuf n) v s).mem })

/-- 20_memory.md R42 for DBUF: byte `n` of the buffer is `byte_{n mod 4}` of word `n div 4`, byte 0 the high byte. -/
def Obligations.DbufBytesAreBigEndian : Prop :=
  ∀ (s : State) (i : Nat) (w : Word) (n : Nat),
    (n / 4 = i → memRead (dbufWrite i w s).mem (0x1000 + n) = some ((w >>> (8 * (3 - n % 4))).setWidth 8))
    ∧ (n / 4 ≠ i → memRead (dbufWrite i w s).mem (0x1000 + n) = memRead s.mem (0x1000 + n))

/-- 10_state.md R27: writing `v` to `IRQ_STATUS` clears the bits that are 1 in `v`, leaves the others, and is accepted
whatever `BUSY` is; nothing else changes. -/
def Obligations.IrqStatusIsWriteOneToClear : Prop :=
  ∀ (s : State) (v : Word),
    ∃ t, writeLoc .irqStatus v s = t ∧ t = { s with irq := t.irq }
      ∧ ∀ k, k < 3 → t.irq.getLsbD k = (s.irq.getLsbD k && !v.getLsbD k)

/-- 10_state.md R41: an accepted write of `KEY[i]` or `KEYLEN` clears `KS_VALID`, even with the old value, and changes
neither `KS`, `IKS` nor `NR`; then those reads are draws, `NROUNDS` reads 0 and every cipher command fails with
`NO_SCHEDULE`; a dropped write invalidates nothing. -/
def Obligations.KeyWriteInvalidatesTheSchedule : Prop :=
  ∀ (s : State) (v : Word) (l : Loc), (l = .keylen ∨ ∃ i, l = .key i) →
    let t := writeLoc l v s
    t.ks = s.ks ∧ t.iks = s.iks ∧ t.nr = s.nr
    ∧ (s.busy = true → t.ksValid = s.ksValid ∧ t.key = s.key ∧ t.keylen = s.keylen)
    ∧ (s.busy = false →
        t.ksValid = false ∧ (∀ i, locValue t (.ks i) = none ∧ locValue t (.iks i) = none)
        ∧ locValue t .nrounds = some 0
        ∧ ∀ b, exec (.blkEnc b) t = .next (complete .noSchedule t) ∧ exec (.blkDec b) t = .next (complete .noSchedule t)
          ∧ exec .cbcEnc t = .next (complete .noSchedule t) ∧ exec .cbcDec t = .next (complete .noSchedule t))

/-- 20_memory.md R49: while `BUSY = 1` a write of a command input changes nothing but `OVR`; `CTRL` and `IRQ_STATUS` are
written as always; read-only and reserved locations ignore the write without `OVR`; and no HOST step but a reset changes an
input of the running command. -/
def Obligations.WritesWhileBusyAreDropped : Prop :=
  (∀ (s : State) (v : Word), s.busy = true →
    writeLoc .cmd v s = { s with irq := s.irq ||| 0b100 } ∧ writeLoc .keylen v s = { s with irq := s.irq ||| 0b100 }
    ∧ writeLoc .len v s = { s with irq := s.irq ||| 0b100 }
    ∧ (∀ i, writeLoc (.key i) v s = { s with irq := s.irq ||| 0b100 })
    ∧ (∀ j, writeLoc (.iv j) v s = { s with irq := s.irq ||| 0b100 })
    ∧ (∀ n, writeLoc (.dbuf n) v s = { s with irq := s.irq ||| 0b100 })
    ∧ writeLoc .ctrl v s = { s with ctrl := v.setWidth 3 }
    ∧ writeLoc .irqStatus v s = { s with irq := s.irq &&& ~~~(v.setWidth 3) }
    ∧ ∀ l, (l = .id ∨ l = .status ∨ l = .err ∨ l = .nrounds ∨ l = .reserved ∨ (∃ j, l = .cv j) ∨ (∃ i, l = .ks i)
        ∨ (∃ i, l = .iks i) ∨ (∃ b, l = .sbox b) ∨ (∃ b, l = .invSbox b) ∨ (∃ i, l = .rcon i)
        ∨ (∃ k b, l = .subMix k b) ∨ ∃ k b, l = .invSubMix k b) → writeLoc l v s = s)
  ∧ (∀ s t : State, s.busy = true → s.inputs.head? ≠ some .reset → hostStep s = .next t →
      t.pending = s.pending ∧ t.busy = true ∧ t.key = s.key ∧ t.keylen = s.keylen ∧ t.iv = s.iv ∧ t.len = s.len
      ∧ t.mem = s.mem ∧ t.cv = s.cv ∧ t.ks = s.ks ∧ t.iks = s.iks ∧ t.nr = s.nr ∧ t.ksValid = s.ksValid
      ∧ t.tables = s.tables)

/-- 20_memory.md R46: reserved offsets read 0, and a write to a reserved or read-only location is ignored, busy or not. -/
def Obligations.ReservedAndReadOnlyIgnoreWrites : Prop :=
  ∀ (s : State) (v : Word),
    locValue s .reserved = some 0
    ∧ (∀ l, (l = .id ∨ l = .status ∨ l = .err ∨ l = .nrounds ∨ l = .reserved ∨ (∃ j, l = .cv j) ∨ (∃ i, l = .ks i)
        ∨ (∃ i, l = .iks i) ∨ (∃ b, l = .sbox b) ∨ (∃ b, l = .invSbox b) ∨ (∃ i, l = .rcon i)
        ∨ (∃ k b, l = .subMix k b) ∨ ∃ k b, l = .invSubMix k b) → writeLoc l v s = s)
    ∧ (∃ w, locValue (writeLoc .ctrl v s) .ctrl = some w ∧ w.toNat < 8)
    ∧ (∃ w, locValue (writeLoc .irqStatus v s) .irqStatus = some w ∧ w.toNat < 8)
    ∧ (∃ w, locValue (writeLoc .keylen v s) .keylen = some w ∧ w.toNat < 256)
    ∧ (∃ w, locValue (writeLoc .len v s) .len = some w ∧ w.toNat < 65536)

/-- 20_memory.md R50: while `BUSY = 1` a read of what the pending operation writes is a draw, and a read of every other
location but `STATUS` returns its current value, the one it reads as in the same state with the ENGINE idle
(`IdleReadsReturnTheRegisters` says which that is); `STATUS` shows `BUSY` and the old flags, `ERR` the previous code. That a
pending command hides its targets even where it will fail, that a CBC command's targets are the `LEN div 16` blocks whatever
`LEN` is, and that an illegal word has no targets, is the model's choice (log 7). -/
def Obligations.BusyReadsOfTargetsAreDraws : Prop :=
  (∀ (s : State) (w : Word) (i : Instr), s.busy = true → s.genPending = false → s.pending = some w → decode w = .ok i →
    ∀ l : Loc,
      let target : Prop :=
        (i = .expandKey ∧ (l = .nrounds ∨ (∃ n, l = .ks n) ∨ ∃ n, l = .iks n))
        ∨ ((i = .loadIv ∨ (∃ b, i = .blkEnc b) ∨ (∃ b, i = .blkDec b) ∨ i = .cbcEnc ∨ i = .cbcDec) ∧ ∃ j, l = .cv j)
        ∨ (∃ b k, (i = .blkEnc b ∨ i = .blkDec b) ∧ k < 4 ∧ l = .dbuf (4 * b + k))
        ∨ ((i = .cbcEnc ∨ i = .cbcDec) ∧ ∃ n, n < 4 * (s.len.toNat / 16) ∧ l = .dbuf n)
      (target → locValue s l = none)
      ∧ (¬ target → l ≠ .status → locValue s l = locValue { s with busy := false, pending := none } l))
  ∧ (∀ (s : State) (w : Word) (e : DecodeError), s.busy = true → s.genPending = false → s.pending = some w →
      decode w = .error e →
      ∀ l, l ≠ .status → locValue s l = locValue { s with busy := false, pending := none } l)
  ∧ (∀ (s : State) (l : Loc), s.busy = true → s.genPending = true →
      let table : Prop :=
        (∃ b, l = .sbox b) ∨ (∃ b, l = .invSbox b) ∨ (∃ k b, l = .subMix k b) ∨ ∃ k b, l = .invSubMix k b
      (table → locValue s l = none)
      ∧ (¬ table → l ≠ .status → locValue s l = locValue { s with busy := false, genPending := false } l))
  ∧ (∀ s : State, s.busy = true →
      locValue s .status = some (BitVec.ofNat 32 (1 + 2 * s.tablesReady.toNat + 4 * s.ksValid.toNat))
      ∧ locValue s .err = some ((errValue s.err).setWidth 32))

/-- A read whose value the spec leaves open (an invalid schedule, tables not ready, a DBUF word never written: 10_state.md
R36, R37, R39) returns the next free value and uses it up; the statement holds for every value of `Config.draw`. -/
def Obligations.UnspecifiedReadsAreFresh : Prop :=
  ∀ (s : State) (l : Loc),
    ((s.ksValid = false ∧ ((∃ i, l = .ks i) ∨ ∃ i, l = .iks i))
      ∨ (s.tablesReady = false ∧ ((∃ b, l = .sbox b) ∨ (∃ b, l = .invSbox b) ∨ (∃ k b, l = .subMix k b)
          ∨ ∃ k b, l = .invSubMix k b))
      ∨ ∃ n, l = .dbuf n ∧ memReadWord s.mem (0x1000 + 4 * n) = none) →
    readLoc l s = (Config.draw s.draws, { s with draws := s.draws + 1 })

/-- 44_control.md R120: a write of `CMD` with `BUSY = 0` latches the word, whatever it is, and sets `BUSY`; with `BUSY = 1`
it is dropped. -/
def Obligations.CmdWriteLatchesTheWord : Prop :=
  ∀ (s : State) (w : Word),
    (s.busy = false →
      busWrite (s.cfg.aesBase + 0x010) 4 w s = .next { s with pending := some w, busy := true, response := .written })
    ∧ (s.busy = true →
      busWrite (s.cfg.aesBase + 0x010) 4 w s = .next { s with irq := s.irq ||| 0b100, response := .written })

/-! ### Completion, errors, interrupt -/

/-- 44_control.md R121: a latched word always completes. The code is recorded in `ERR`, `DONE` is set, `ERR` too with a
code other than 0, `BUSY` falls and the word is gone; an illegal word reports `ILLEGAL_CMD`. -/
def Obligations.EveryWordCompletes : Prop :=
  ∀ (s : State) (w : Word), s.genPending = false → s.pending = some w →
    ∃ t, engineStep s = .next t ∧ t.busy = false ∧ t.pending = none
      ∧ t.irq = s.irq ||| (if errValue t.err = 0 then 0b001 else 0b011)
      ∧ ((∃ e, decode w = .error e) → t.err = .illegalCmd)
      ∧ (∀ i, decode w = .ok i → exec i s = .next t ∧ t.err ≠ .illegalCmd)

/-- 60_exceptions.md R131: a command that reports an error changes `ERR`, `DONE` and `ERR` of `IRQ_STATUS` and no other
register, no DBUF byte, no schedule. (`BUSY` and the pending word are the completion's, the last two fields the model's.) -/
def Obligations.ErrorsChangeNothingElse : Prop :=
  (∀ (i : Instr) (s t : State), exec i s = .next t → t.err ≠ .none →
    t = { s with err := t.err, irq := s.irq ||| 0b011, busy := false, pending := none,
                 engineTurns := s.engineTurns + 1, waited := 0 })
  ∧ (∀ (w : Word) (s t : State), completeWord w s = .next t → t.err ≠ .none →
    t = { s with err := t.err, irq := s.irq ||| 0b011, busy := false, pending := none,
                 engineTurns := s.engineTurns + 1, waited := 0 })

/-- 60_exceptions.md R132: one code per command, the first that applies of `ILLEGAL_CMD`, `NO_SCHEDULE` and the command's
own operand check; and no step sets both `OVR` and one of `DONE`, `ERR`. -/
def Obligations.ErrorPriorityIsFixed : Prop :=
  (∀ (w : Word) (s t : State), completeWord w s = .next t →
    t.err = match decode w with
      | .error _ => .illegalCmd
      | .ok .nop => .none
      | .ok .loadIv => .none
      | .ok .expandKey =>
        if s.keylen.toNat = 16 ∨ s.keylen.toNat = 24 ∨ s.keylen.toNat = 32 then .none else .keyLength
      | .ok (.blkEnc b) | .ok (.blkDec b) =>
        if s.ksValid = false then .noSchedule else if dbufBlocks s.cfg ≤ b then .blkRange else .none
      | .ok .cbcEnc | .ok .cbcDec =>
        if s.ksValid = false then .noSchedule
        else if s.len.toNat % 16 ≠ 0 ∨ 16 * dbufBlocks s.cfg < s.len.toNat then .blockLength
        else .none)
  ∧ (∀ s t : State, step s = .next t →
      ¬ (s.irq.getLsbD 2 = false ∧ t.irq.getLsbD 2 = true
        ∧ ((s.irq.getLsbD 0 = false ∧ t.irq.getLsbD 0 = true) ∨ (s.irq.getLsbD 1 = false ∧ t.irq.getLsbD 1 = true))))

/-- 60_exceptions.md R135: the interrupt output is the OR of the three sources, each pending and enabled. -/
def Obligations.IrqLineIsPendingAndEnabled : Prop :=
  ∀ s : State, irqLine s = ((s.irq.getLsbD 0 && s.ctrl.getLsbD 0) || (s.irq.getLsbD 1 && s.ctrl.getLsbD 1)
    || (s.irq.getLsbD 2 && s.ctrl.getLsbD 2))

/-- 60_exceptions.md R136: a pending source stays pending through every step except a reset or a write of `IRQ_STATUS`
with its bit 1; and `ERR.CODE` changes only at a completion or a reset. -/
def Obligations.PendingSourcesAreSticky : Prop :=
  (∀ (s t : State) (k : Nat), k < 3 → step s = .next t → s.irq.getLsbD k = true → t.irq.getLsbD k = false →
    s.inputs.head? = some .reset
    ∨ ∃ v, s.inputs.head? = some (.write (s.cfg.aesBase + 0x00C) 4 v) ∧ v.getLsbD k = true)
  ∧ (∀ s t : State, step s = .next t → t.err ≠ s.err →
    s.inputs.head? = some .reset ∨ (engineMoves s = true ∧ s.genPending = false))

/-- 60_exceptions.md R147: nothing makes an idle device busy but an accepted `CMD` write, and a reset. -/
def Obligations.OnlyCmdWakesTheEngine : Prop :=
  ∀ s t : State, s.busy = false → step s = .next t → t.busy = true →
    s.inputs.head? = some .reset
    ∨ ∃ v, s.inputs.head? = some (.write (s.cfg.aesBase + 0x010) 4 v) ∧ t.pending = some v

/-! ### The commands -/

/-- 44_control.md R122: `NOP` writes `ERR` to 0 and `DONE` to 1 and does nothing else, in any state; the word 0 is `NOP`, and
a word with `OP = 0` and any other bit set is illegal. -/
def Obligations.NopOnlyCompletes : Prop :=
  (∀ s : State, exec .nop s = .next { s with
    err := .none, irq := s.irq ||| 0b001, busy := false, pending := none, engineTurns := s.engineTurns + 1, waited := 0 })
  ∧ decode 0x00000000 = .ok .nop
  ∧ ∀ w : Word, w.extractLsb' 0 4 = 0 → w ≠ 0 → ∃ e, decode w = .error e

/-- 41_key_schedule.md R86, R87, R89: with a legal `KEYLEN`, `EXPAND_KEY` succeeds; `KS` follows the forward recurrence from
the key words, `IKS` is `KS` in reverse groups with the interior ones through `InvMixWord`, the words past the rows are 0,
`NR` and `KS_VALID` are set, and nothing else but the completion happens. With any other `KEYLEN` it reports `KEY_LENGTH`
and changes nothing else. Only the word 1 is this command. -/
def Obligations.ExpandKeyBuildsBothSchedules : Prop :=
  (∀ (s : State) (nk : Nat), (nk = 4 ∨ nk = 6 ∨ nk = 8) → s.keylen.toNat = 4 * nk →
    ∃ t, exec .expandKey s = .next t
      ∧ t = complete .none { s with ks := t.ks, iks := t.iks, nr := t.nr, ksValid := true }
      ∧ t.nr.toNat = nk + 6
      ∧ (∀ (i : Nat) (h : i < 8), i < nk → scheduleWord t.ks i = s.key[i])
      ∧ (∀ i, nk ≤ i → i < (nk + 7) * 4 →
          scheduleWord t.ks i = scheduleWord t.ks (i - nk) ^^^
            (if i % nk = 0 then
              subWord s.tables ((scheduleWord t.ks (i - 1)).rotateLeft 8) ^^^ ((rcon (i / nk)).setWidth 32 <<< 24)
            else if nk = 8 ∧ i % nk = 4 then subWord s.tables (scheduleWord t.ks (i - 1))
            else scheduleWord t.ks (i - 1)))
      ∧ (∀ g j, g ≤ nk + 6 → j < 4 →
          scheduleWord t.iks (4 * g + j) =
            if g = 0 ∨ g = nk + 6 then scheduleWord t.ks (4 * (nk + 6 - g) + j)
            else invMixWord s.tables (scheduleWord t.ks (4 * (nk + 6 - g) + j)))
      ∧ (∀ i, (nk + 7) * 4 ≤ i → i < 60 → scheduleWord t.ks i = 0 ∧ scheduleWord t.iks i = 0))
  ∧ (∀ s : State, s.keylen.toNat ≠ 16 → s.keylen.toNat ≠ 24 → s.keylen.toNat ≠ 32 →
      exec .expandKey s = .next (complete .keyLength s))
  ∧ (∀ w : Word, decode w = .ok .expandKey ↔ w = 0x00000001)

/-- 41_key_schedule.md R90, all five properties, of every valid schedule in a state that meets `Inv`. -/
def Obligations.SchedulesHaveTheirProperties : Prop :=
  ∀ (s : State) (nk : Nat), Inv s → s.ksValid = true → s.keylen.toNat = 4 * nk →
    (∀ (i : Nat) (h : i < 8), i < nk → scheduleWord s.ks i = s.key[i])
    ∧ (∀ j, j < 4 → scheduleWord s.iks j = scheduleWord s.ks (4 * (nk + 6) + j)
        ∧ scheduleWord s.iks (4 * (nk + 6) + j) = scheduleWord s.ks j)
    ∧ (∀ g j, 1 ≤ g → g ≤ nk + 5 → j < 4 →
        scheduleWord s.iks (4 * g + j) = invMixWord s.tables (scheduleWord s.ks (4 * (nk + 6 - g) + j)))
    ∧ (∀ i, nk ≤ i → i < (nk + 7) * 4 → i % nk ≠ 0 → (nk = 8 → i % 8 ≠ 4) →
        scheduleWord s.ks i = scheduleWord s.ks (i - nk) ^^^ scheduleWord s.ks (i - 1))
    ∧ invMixWord s.tables 0 = 0

/-- 41_key_schedule.md R88: a valid schedule stays valid and unchanged through every step but an accepted write of `KEY` or
`KEYLEN`, an `EXPAND_KEY`, or a reset; and no other command writes `KS`, `IKS` or `NR`. -/
def Obligations.ValidScheduleStaysUntilKeyWrite : Prop :=
  (∀ s t : State, step s = .next t → s.ksValid = true →
    (t.ksValid = true ∧ t.ks = s.ks ∧ t.iks = s.iks ∧ t.nr = s.nr)
    ∨ s.inputs.head? = some .reset
    ∨ (engineMoves s = true ∧ ∃ w, s.pending = some w ∧ decode w = .ok .expandKey)
    ∨ (s.busy = false ∧ ∃ v off, s.inputs.head? = some (.write (s.cfg.aesBase + off) 4 v)
        ∧ (off = 0x018 ∨ (0x040 ≤ off ∧ off < 0x060))))
  ∧ (∀ (i : Instr) (s t : State), i ≠ .expandKey → exec i s = .next t →
      t.ks = s.ks ∧ t.iks = s.iks ∧ t.nr = s.nr ∧ t.ksValid = s.ksValid)

/-- 43_cbc.md R110: `LOAD_IV` copies the IV to the chaining value, with or without a schedule, and only completes besides;
only the word 2 is this command. -/
def Obligations.LoadIvCopiesTheIv : Prop :=
  (∀ s : State, exec .loadIv s = .next (complete .none { s with cv := s.iv }))
  ∧ ∀ w : Word, decode w = .ok .loadIv ↔ w = 0x00000002

/-- 42_block.md R102: under a valid schedule and for a block that exists, `BLK_ENC b` encrypts the block XOR the chaining
value in place and leaves the ciphertext in the chaining value; an unwritten word of the block counts as any value. Without
a schedule, else for a block that does not exist, it reports the error and changes nothing else. Its word is
`0x00000003 | (b << 8)`. -/
def Obligations.BlkEncEncryptsInPlace : Prop :=
  ∀ (s : State) (b : Nat),
    (s.ksValid = true → b < dbufBlocks s.cfg →
      ∃ t x, exec (.blkEnc b) s = .next t ∧ blockReadsAs s.mem b x
        ∧ t.cv = encryptBlock s.tables s.ks s.nr.toNat (quadXor x s.cv)
        ∧ memBlock t.mem b = some t.cv
        ∧ (∀ a, ¬ inBlock b a → memRead t.mem a = memRead s.mem a)
        ∧ t = complete .none { s with mem := t.mem, cv := t.cv, draws := t.draws })
    ∧ (s.ksValid = false → exec (.blkEnc b) s = .next (complete .noSchedule s))
    ∧ (s.ksValid = true → dbufBlocks s.cfg ≤ b → exec (.blkEnc b) s = .next (complete .blkRange s))
    ∧ (b < 256 → decode (0x00000003 ||| BitVec.ofNat 32 b <<< 8) = .ok (.blkEnc b))

/-- 42_block.md R103: under a valid schedule and for a block that exists, `BLK_DEC b` decrypts the block in place, XORs the
chaining value into the result, and leaves the ciphertext it read in the chaining value; errors as `BLK_ENC`. Its word is
`0x00000004 | (b << 8)`. -/
def Obligations.BlkDecDecryptsInPlace : Prop :=
  ∀ (s : State) (b : Nat),
    (s.ksValid = true → b < dbufBlocks s.cfg →
      ∃ t x, exec (.blkDec b) s = .next t ∧ blockReadsAs s.mem b x
        ∧ memBlock t.mem b = some (quadXor (decryptBlock s.tables s.iks s.nr.toNat x) s.cv)
        ∧ t.cv = x
        ∧ (∀ a, ¬ inBlock b a → memRead t.mem a = memRead s.mem a)
        ∧ t = complete .none { s with mem := t.mem, cv := t.cv, draws := t.draws })
    ∧ (s.ksValid = false → exec (.blkDec b) s = .next (complete .noSchedule s))
    ∧ (s.ksValid = true → dbufBlocks s.cfg ≤ b → exec (.blkDec b) s = .next (complete .blkRange s))
    ∧ (b < 256 → decode (0x00000004 ||| BitVec.ofNat 32 b <<< 8) = .ok (.blkDec b))

/-- 43_cbc.md R111: under a valid schedule the two CBC commands report `BLOCK_LENGTH` exactly when `LEN` is no multiple of
16 or exceeds `DBUF_BYTES`, and then change nothing else; otherwise they touch blocks `0 .. LEN/16 - 1` only, none for 0. -/
def Obligations.CbcChecksTheLength : Prop :=
  ∀ (i : Instr) (s : State), (i = .cbcEnc ∨ i = .cbcDec) → s.ksValid = true →
    (s.len.toNat % 16 ≠ 0 ∨ 16 * dbufBlocks s.cfg < s.len.toNat → exec i s = .next (complete .blockLength s))
    ∧ (s.len.toNat % 16 = 0 → s.len.toNat ≤ 16 * dbufBlocks s.cfg →
        ∃ t, exec i s = .next t ∧ t.err = .none
          ∧ (∀ b, b < s.len.toNat / 16 → (memBlock t.mem b).isSome = true)
          ∧ (∀ a, a < 0x1000 ∨ 0x1000 + s.len.toNat ≤ a → memRead t.mem a = memRead s.mem a)
          ∧ (s.len = 0 → t.mem = s.mem ∧ t.cv = s.iv))

/-- 43_cbc.md R112: `CBC_ENC` succeeds under a valid schedule and a legal length; each block becomes the encryption of its
old value XOR the ciphertext before it, the IV for block 0; the chaining value ends as the last ciphertext, the IV if there
is none; nothing else changes. Without a schedule, else with an illegal length, it reports the error and changes nothing
else. Its word is 5. -/
def Obligations.CbcEncChainsCiphertext : Prop :=
  (∀ s : State, s.ksValid = true → s.len.toNat % 16 = 0 → s.len.toNat ≤ 16 * dbufBlocks s.cfg →
    ∃ (t : State) (x y : Nat → Quad), exec .cbcEnc s = .next t
      ∧ (∀ b, b < s.len.toNat / 16 → blockReadsAs s.mem b (x b) ∧ memBlock t.mem b = some (y b)
          ∧ y b = encryptBlock s.tables s.ks s.nr.toNat (quadXor (x b) (if b = 0 then s.iv else y (b - 1))))
      ∧ t.cv = (if s.len.toNat / 16 = 0 then s.iv else y (s.len.toNat / 16 - 1))
      ∧ (∀ a, a < 0x1000 ∨ 0x1000 + s.len.toNat ≤ a → memRead t.mem a = memRead s.mem a)
      ∧ t = complete .none { s with mem := t.mem, cv := t.cv, draws := t.draws })
  ∧ (∀ s : State, s.ksValid = false → exec .cbcEnc s = .next (complete .noSchedule s))
  ∧ (∀ s : State, s.ksValid = true → s.len.toNat % 16 ≠ 0 ∨ 16 * dbufBlocks s.cfg < s.len.toNat →
      exec .cbcEnc s = .next (complete .blockLength s))
  ∧ ∀ w : Word, decode w = .ok .cbcEnc ↔ w = 0x00000005

/-- 43_cbc.md R113, 70_reset_and_hazards.md R162: `CBC_DEC` succeeds under a valid schedule and a legal length; each block
becomes its decryption XOR the OLD ciphertext before it, the IV for block 0; the chaining value ends as the last old
ciphertext, the IV if there is none; nothing else changes. Errors as `CBC_ENC`. Its word is 6. -/
def Obligations.CbcDecChainsSavedCiphertext : Prop :=
  (∀ s : State, s.ksValid = true → s.len.toNat % 16 = 0 → s.len.toNat ≤ 16 * dbufBlocks s.cfg →
    ∃ (t : State) (x : Nat → Quad), exec .cbcDec s = .next t
      ∧ (∀ b, b < s.len.toNat / 16 → blockReadsAs s.mem b (x b)
          ∧ memBlock t.mem b = some (quadXor (decryptBlock s.tables s.iks s.nr.toNat (x b))
              (if b = 0 then s.iv else x (b - 1))))
      ∧ t.cv = (if s.len.toNat / 16 = 0 then s.iv else x (s.len.toNat / 16 - 1))
      ∧ (∀ a, a < 0x1000 ∨ 0x1000 + s.len.toNat ≤ a → memRead t.mem a = memRead s.mem a)
      ∧ t = complete .none { s with mem := t.mem, cv := t.cv, draws := t.draws })
  ∧ (∀ s : State, s.ksValid = false → exec .cbcDec s = .next (complete .noSchedule s))
  ∧ (∀ s : State, s.ksValid = true → s.len.toNat % 16 ≠ 0 ∨ 16 * dbufBlocks s.cfg < s.len.toNat →
      exec .cbcDec s = .next (complete .blockLength s))
  ∧ ∀ w : Word, decode w = .ok .cbcDec ↔ w = 0x00000006

/-! ### Frames -/

/-- What no command changes (10_state.md R25, R28 to R30, R32, R37; 44_control.md R121): the key, its length, the IV, the
byte count, `CTRL`, the tables, the parameters, the host's accesses; `OVR` stays as it was, and the bits `DONE` and `ERR`
are never cleared. What only some commands change: the schedule (`EXPAND_KEY`), the chaining value (not `NOP`, not
`EXPAND_KEY`). -/
def Obligations.CommandsKeepOtherRegisters : Prop :=
  ∀ (i : Instr) (s t : State), exec i s = .next t →
    t.cfg = s.cfg ∧ t.ctrl = s.ctrl ∧ t.tablesReady = s.tablesReady ∧ t.genPending = s.genPending
    ∧ t.tables = s.tables ∧ t.keylen = s.keylen ∧ t.len = s.len ∧ t.key = s.key ∧ t.iv = s.iv ∧ t.inputs = s.inputs
    ∧ t.response = s.response ∧ t.irq.getLsbD 2 = s.irq.getLsbD 2
    ∧ (∀ k, s.irq.getLsbD k = true → t.irq.getLsbD k = true)
    ∧ (i ≠ .expandKey → t.ks = s.ks ∧ t.iks = s.iks ∧ t.nr = s.nr ∧ t.ksValid = s.ksValid)
    ∧ ((i = .nop ∨ i = .expandKey) → t.cv = s.cv)
    ∧ ((i = .nop ∨ i = .expandKey ∨ i = .loadIv) → t.draws = s.draws)

/-- What the commands leave of DBUF: `NOP`, `EXPAND_KEY` and `LOAD_IV` leave every byte; `BLK_ENC b` and `BLK_DEC b` every
byte outside the 16 bytes at the offset of word `4b`; the CBC commands every byte outside blocks `0 .. LEN/16 - 1`
(20_memory.md R48; 43_cbc.md R112, R113). -/
def Obligations.CommandsKeepOtherDbufBytes : Prop :=
  ∀ (i : Instr) (s t : State) (a : Nat), exec i s = .next t →
    ((i = .nop ∨ i = .expandKey ∨ i = .loadIv) → memRead t.mem a = memRead s.mem a)
    ∧ (∀ b, (i = .blkEnc b ∨ i = .blkDec b) →
        a < dbufOffset (blockStart b) ∨ dbufOffset (blockStart b) + 16 ≤ a → memRead t.mem a = memRead s.mem a)
    ∧ ((i = .cbcEnc ∨ i = .cbcDec) →
        a < dbufOffset (blockStart 0) ∨ dbufOffset (blockStart (cbcBlocks s.len)) ≤ a → memRead t.mem a = memRead s.mem a)

/-! ### The cipher -/

/-- 42_block.md R104: under a valid schedule of a state that meets `Inv`, `DecryptBlock` undoes `EncryptBlock` on every
block, and the other way round. -/
def Obligations.DecryptBlockUndoesEncryptBlock : Prop :=
  ∀ (s : State) (x : Quad), Inv s → s.ksValid = true →
    decryptBlock s.tables s.iks s.nr.toNat (encryptBlock s.tables s.ks s.nr.toNat x) = x
    ∧ encryptBlock s.tables s.ks s.nr.toNat (decryptBlock s.tables s.iks s.nr.toNat x) = x

/-- 42_block.md R100, R104 with 40_tables.md R76: with the generated tables, `EncryptBlock` is the textbook cipher of
SubBytes, ShiftRows, MixColumns and AddRoundKey over the round keys of `KS`. The textbook functions are the model's own
reading of R76, R100 and R104 (log 14). -/
def Obligations.EncryptBlockIsTheTextbookCipher : Prop :=
  ∀ (t : Tables) (ks : Vector Word 60) (nr : Nat) (x : Quad),
    encryptBlock (genTables t) ks nr x = textCipher (genTables t) (roundKey ks) nr x

/-- 42_block.md R101, R104 with 41_key_schedule.md R89: under a valid schedule of a state that meets `Inv`, `DecryptBlock`
is the textbook inverse cipher over the FORWARD round keys, taken backwards. The textbook functions are the model's own
reading of R76, R101 and R104 (log 14). -/
def Obligations.DecryptBlockIsTheTextbookInverse : Prop :=
  ∀ (s : State) (c : Quad), Inv s → s.ksValid = true →
    decryptBlock s.tables s.iks s.nr.toNat c = textInvCipher s.tables (roundKey s.ks) s.nr.toNat c

/-- 42_block.md R105: `BLK_ENC b`, then `BLK_DEC b` with the chaining value put back, leaves a written block and every other
byte of DBUF as they were. -/
def Obligations.BlkDecUndoesBlkEnc : Prop :=
  ∀ (s t : State) (b : Nat) (x : Quad), Inv s → s.ksValid = true → b < dbufBlocks s.cfg → memBlock s.mem b = some x →
    exec (.blkEnc b) s = .next t →
    ∃ u, exec (.blkDec b) { t with cv := s.cv } = .next u ∧ u.mem = s.mem

/-- 43_cbc.md R114 item 1: `CBC_ENC`, then `CBC_DEC` with `IV` and `LEN` unchanged, restores DBUF, where the blocks had
been written. -/
def Obligations.CbcDecUndoesCbcEnc : Prop :=
  ∀ s t : State, Inv s → s.ksValid = true → s.len.toNat % 16 = 0 → s.len.toNat ≤ 16 * dbufBlocks s.cfg →
    (∀ b, b < s.len.toNat / 16 → (memBlock s.mem b).isSome = true) → exec .cbcEnc s = .next t →
    ∃ u, exec .cbcDec t = .next u ∧ u.mem = s.mem ∧ u.cv = t.cv

/-- 43_cbc.md R114 item 2, 42_block.md R105: `CBC_ENC` gives the same DBUF and chaining value as `LOAD_IV` followed by
`BLK_ENC 0 .. BLK_ENC n-1`. On blocks that have been written this is the spec's rule. On words that have not, the two runs
agree only because both take the same numbered draws in index order, which is the model's choice (log 2): the spec does not
say that two reads of an unwritten word agree (93_implementation_defined.md U3). -/
def Obligations.CbcEncIsBlockByBlock : Prop :=
  ∀ s : State, s.ksValid = true → s.len.toNat % 16 = 0 → s.len.toNat ≤ 16 * dbufBlocks s.cfg →
    ∃ t u, exec .cbcEnc s = .next t
      ∧ execAll (.loadIv :: (List.range (s.len.toNat / 16)).map .blkEnc) s = .next u
      ∧ u.mem = t.mem ∧ u.cv = t.cv ∧ u.err = t.err

/-- 43_cbc.md R114 item 2, 42_block.md R105: `CBC_DEC` gives the same DBUF and chaining value as `LOAD_IV` followed by
`BLK_DEC 0 .. BLK_DEC n-1`. On blocks that have been written this is the spec's rule. On words that have not, the two runs
agree only because both take the same numbered draws in index order, which is the model's choice (log 2): the spec does not
say that two reads of an unwritten word agree (93_implementation_defined.md U3). -/
def Obligations.CbcDecIsBlockByBlock : Prop :=
  ∀ s : State, s.ksValid = true → s.len.toNat % 16 = 0 → s.len.toNat ≤ 16 * dbufBlocks s.cfg →
    ∃ t u, exec .cbcDec s = .next t
      ∧ execAll (.loadIv :: (List.range (s.len.toNat / 16)).map .blkDec) s = .next u
      ∧ u.mem = t.mem ∧ u.cv = t.cv ∧ u.err = t.err

/-- 43_cbc.md R114 item 3: with `IV = 0` and `LEN = 16`, `CBC_ENC` leaves `EncryptBlock` of a written block 0 in block 0. -/
def Obligations.ZeroIvIsTheRawTransform : Prop :=
  ∀ (s : State) (x : Quad), s.ksValid = true → s.len = 16 → s.iv = ⟨0, 0, 0, 0⟩ → memBlock s.mem 0 = some x →
    ∃ t, exec .cbcEnc s = .next t ∧ memBlock t.mem 0 = some (encryptBlock s.tables s.ks s.nr.toNat x)

/-- 43_cbc.md R114 item 4: two runs of `CBC_ENC` that differ only in `IV` give a different ciphertext in every processed
block (that had been written before). -/
def Obligations.DifferentIvsDifferEverywhere : Prop :=
  ∀ (s t u : State) (iv : Quad), Inv s → s.ksValid = true → s.len.toNat % 16 = 0 →
    s.len.toNat ≤ 16 * dbufBlocks s.cfg → iv ≠ s.iv →
    (∀ b, b < s.len.toNat / 16 → (memBlock s.mem b).isSome = true) →
    exec .cbcEnc s = .next t → exec .cbcEnc { s with iv := iv } = .next u →
    ∀ b, b < s.len.toNat / 16 → memBlock t.mem b ≠ memBlock u.mem b

/-! ### The tables -/

/-- 00_scope.md R7: the multiplication is that of a field: commutative, associative, distributing over XOR, with 1 as unit,
`xtime` as multiplication by 2, and exactly one inverse for every byte other than 0. -/
def Obligations.GmulIsAFieldMultiplication : Prop :=
  (∀ a b : Byte, gmul a b = gmul b a) ∧ (∀ a b c : Byte, gmul (gmul a b) c = gmul a (gmul b c))
    ∧ (∀ a b c : Byte, gmul a (b ^^^ c) = gmul a b ^^^ gmul a c) ∧ (∀ a : Byte, gmul a 1 = a)
    ∧ (∀ b : Byte, gmul b 2 = xtime b) ∧ (∀ b : Byte, b ≠ 0 → ∃! c : Byte, gmul b c = 1)

/-- 40_tables.md R71: the walk by 0x03 and 0xF6 keeps its two bytes inverse to each other, visits every byte other than 0
exactly once in 255 steps, and then starts over. -/
def Obligations.WalkVisitsEveryByteOnce : Prop :=
  let x : Nat → Byte := fun k => (gmul · 0x03)^[k] 0x01
  let xi : Nat → Byte := fun k => (gmul · 0xF6)^[k] 0x01
  (∀ k, gmul (x k) (xi k) = 0x01) ∧ (∀ b : Byte, b ≠ 0 → ∃! k, k < 255 ∧ x k = b) ∧ x 255 = x 0

/-- 40_tables.md R74, R75, R77, R78: what the generated tables hold, whatever they held before. `SBOX` is the affine image
of the inverse, `INV_SBOX` undoes `SBOX`, and the mix tables are the products of the substituted byte and their rotations. -/
def Obligations.GeneratedTablesMeetTheirRules : Prop :=
  ∀ u : Tables,
    let t := genTables u
    (lookup t.sbox 0 = affine 0 ∧ ∀ b c : Byte, gmul b c = 1 → lookup t.sbox b = affine c)
    ∧ (∀ x : Byte, lookup t.invSbox (lookup t.sbox x) = x)
    ∧ (∀ x : Byte,
        let s := lookup t.sbox x
        lookup t.subMix0 x = pack (gmul s 0x02) s s (gmul s 0x03)
        ∧ lookup t.subMix1 x = pack (gmul s 0x03) (gmul s 0x02) s s
        ∧ lookup t.subMix2 x = pack s (gmul s 0x03) (gmul s 0x02) s
        ∧ lookup t.subMix3 x = pack s s (gmul s 0x03) (gmul s 0x02))
    ∧ (∀ s : Byte,
        let y := lookup t.invSbox s
        lookup t.invSubMix0 s = pack (gmul y 0x0e) (gmul y 0x09) (gmul y 0x0d) (gmul y 0x0b)
        ∧ lookup t.invSubMix1 s = pack (gmul y 0x0b) (gmul y 0x0e) (gmul y 0x09) (gmul y 0x0d)
        ∧ lookup t.invSubMix2 s = pack (gmul y 0x0d) (gmul y 0x0b) (gmul y 0x0e) (gmul y 0x09)
        ∧ lookup t.invSubMix3 s = pack (gmul y 0x09) (gmul y 0x0d) (gmul y 0x0b) (gmul y 0x0e))

/-- 40_tables.md R84: the properties and sample values of the generated tables. -/
def Obligations.GeneratedTablesHaveTheirProperties : Prop :=
  ∀ u : Tables,
    let t := genTables u
    (∀ x : Byte, lookup t.sbox x ≠ x ∧ lookup t.sbox x ≠ x ^^^ 0xff
      ∧ lookup t.invSbox (lookup t.sbox x) = x ∧ lookup t.sbox (lookup t.invSbox x) = x
      ∧ lookup t.subMix0 x ^^^ lookup t.subMix1 x ^^^ lookup t.subMix2 x ^^^ lookup t.subMix3 x
          = pack (lookup t.sbox x) (lookup t.sbox x) (lookup t.sbox x) (lookup t.sbox x)
      ∧ lookup t.invSubMix0 x ^^^ lookup t.invSubMix1 x ^^^ lookup t.invSubMix2 x ^^^ lookup t.invSubMix3 x
          = pack (lookup t.invSbox x) (lookup t.invSbox x) (lookup t.invSbox x) (lookup t.invSbox x))
    ∧ lookup t.sbox 0x00 = 0x63 ∧ lookup t.sbox 0x01 = 0x7c ∧ lookup t.sbox 0x53 = 0xed ∧ lookup t.invSbox 0x63 = 0x00
    ∧ lookup t.subMix0 0x00 = 0xc66363a5 ∧ lookup t.invSubMix0 0x00 = 0x51f4a750

/-- 40_tables.md R79: the round constants, and that from index 1 on each is `xtime` of the one before, from 1. -/
def Obligations.RoundConstantsAreThePowers : Prop :=
  rconTable.toList = [0x00, 0x01, 0x02, 0x04, 0x08, 0x10, 0x20, 0x40, 0x80, 0x1b, 0x36]
    ∧ (∀ i, 1 ≤ i → i ≤ 10 → rcon i = xtime^[i - 1] 0x01)
    ∧ ∀ nk i, (nk = 4 ∨ nk = 6 ∨ nk = 8) → nk ≤ i → i < (nk + 7) * 4 → 1 ≤ i / nk ∧ i / nk ≤ 10

/-- 40_tables.md R81: the table-generation step generates the tables, sets `TABLES_READY`, drops `BUSY`, and changes neither
`IRQ_STATUS` nor `ERR` nor anything else; afterwards it is not pending, so no second one follows without a reset. -/
def Obligations.TableStepGeneratesTheTables : Prop :=
  ∀ s : State, s.busy = true → s.genPending = true → engineMoves s = true →
    step s = .next { s with
      tables := genTables s.tables, tablesReady := true, busy := false, genPending := false,
      engineTurns := s.engineTurns + 1, waited := 0 }

/-- 40_tables.md R82: once ready, the tables never change until a reset, whichever agent moves; and every generation gives
the same tables. -/
def Obligations.ReadyTablesNeverChange : Prop :=
  (∀ s t : State, Inv s → s.tablesReady = true → step s = .next t → s.inputs.head? ≠ some .reset →
    t.tables = s.tables ∧ t.tablesReady = true)
  ∧ ∀ u v : Tables, genTables u = genTables v

/-! ### What stays hidden -/

/-- 10_state.md R36, R41: while `KS_VALID = 0` nothing depends on the schedule storage. A step of a state and a step of the
same state with the storage cleared agree in everything but that storage; so what the model stores there at reset (log 3)
reaches no read, no cipher result and no later state. -/
def Obligations.InvalidScheduleIsNeverSeen : Prop :=
  ∀ s : State, mapOutcome forgetSchedule (step s) = mapOutcome forgetSchedule (step (forgetSchedule s))
end

