-- ==== Sys2Proof/Laws/Bus.lean ====
section
/-! SUPPORT. The address map read backwards: a word-aligned offset is the offset of its location (20_memory.md R43). -/

namespace Sys2Proof
namespace Machine

theorem locateRegister_offset {off : Nat} (ha : off % 4 = 0) (h : locateRegister off ≠ .reserved) :
    offsetOf (locateRegister off) = off := by
  unfold locateRegister at h ⊢
  by_cases e : off = 0x000
  · rw [if_pos e]; exact e.symm
  rw [if_neg e] at h ⊢
  clear e
  by_cases e : off = 0x004
  · rw [if_pos e]; exact e.symm
  rw [if_neg e] at h ⊢
  clear e
  by_cases e : off = 0x008
  · rw [if_pos e]; exact e.symm
  rw [if_neg e] at h ⊢
  clear e
  by_cases e : off = 0x00C
  · rw [if_pos e]; exact e.symm
  rw [if_neg e] at h ⊢
  clear e
  by_cases e : off = 0x010
  · rw [if_pos e]; exact e.symm
  rw [if_neg e] at h ⊢
  clear e
  by_cases e : off = 0x014
  · rw [if_pos e]; exact e.symm
  rw [if_neg e] at h ⊢
  clear e
  by_cases e : off = 0x018
  · rw [if_pos e]; exact e.symm
  rw [if_neg e] at h ⊢
  clear e
  by_cases e : off = 0x01C
  · rw [if_pos e]; exact e.symm
  rw [if_neg e] at h ⊢
  clear e
  by_cases e : off = 0x020
  · rw [if_pos e]; exact e.symm
  rw [if_neg e] at h ⊢
  clear e
  iterate 3
    split
    · simp only [offsetOf]; omega
  iterate 3 rw [dif_neg (by assumption)] at h
  exact absurd rfl h

theorem locateTable_offset {off : Nat} (ha : off % 4 = 0) (h : locateTable off ≠ .reserved) :
    offsetOf (locateTable off) = off := by
  unfold locateTable at h ⊢
  iterate 2
    split
    · simp only [offsetOf, BitVec.toNat_ofNat]; omega
  iterate 2 rw [if_neg (by assumption)] at h
  iterate 3
    split
    · simp only [offsetOf, BitVec.toNat_ofNat]; omega
  iterate 3 rw [dif_neg (by assumption)] at h
  exact absurd rfl h

/-- A word-aligned offset is the offset of the location it holds (20_memory.md R43). -/
theorem locate_offset {cfg : Config.Params} {off : Nat} (ha : off % 4 = 0) (h : locate cfg off ≠ .reserved) :
    offsetOf (locate cfg off) = off := by
  unfold locate at h ⊢
  split
  · next e => rw [if_pos e] at h; exact locateRegister_offset ha h
  · next e0 =>
    split
    · simp only [offsetOf]; omega
    · next e1 =>
      split
      · simp only [offsetOf]; omega
      · next e2 =>
        split
        · simp only [offsetOf, dbufOffset]; omega
        · next e3 =>
          rw [if_neg e0, dif_neg e1, dif_neg e2, if_neg e3] at h
          exact locateTable_offset ha h

/-- The map gives DBUF words that exist only. -/
theorem locate_dbuf {cfg : Config.Params} {off n : Nat} (ha : off % 4 = 0) (h : locate cfg off = .dbuf n) :
    n < 4 * dbufBlocks cfg := by
  have e := locate_offset (cfg := cfg) ha (by rw [h]; simp)
  rw [h] at e
  simp only [offsetOf, dbufOffset] at e
  have : dbufBytes cfg = 16 * dbufBlocks cfg := rfl
  by_contra hn
  have hl : locate cfg off = locateTable off := by
    unfold locate
    rw [if_neg (by omega), dif_neg (by omega), dif_neg (by omega), if_neg (by omega)]
  rw [hl] at h
  unfold locateTable at h
  split at h
  · cases h
  split at h
  · cases h
  split at h
  · cases h
  split at h
  · cases h
  split at h
  · cases h
  cases h

end Machine
end Sys2Proof
end

