-- ==== Sys2Proof/Laws/Decode.lean ====
section
/-! SUPPORT. The fields of a command word, and what the decoder makes of each pair of fields (30_encoding.md R60 to R64). -/

namespace Sys2Proof

/-- The four fields of a word built from an `OP` and a `BLK`. -/
theorem commandWord_fields (op : BitVec 4) (b : BitVec 8) :
    opField (commandWord op b) = op ∧ reservedLow (commandWord op b) = 0 ∧ reservedHigh (commandWord op b) = 0
      ∧ blkField (commandWord op b) = b := by
  unfold opField reservedLow reservedHigh blkField commandWord
  refine ⟨?_, ?_, ?_, ?_⟩ <;> ext i hi <;> interval_cases i <;> simp

/-- The decoder on a word whose reserved bits are 0, by its `OP` and `BLK`. -/
theorem decode_commandWord (op : BitVec 4) (b : BitVec 8) :
    decode (commandWord op b) =
      match op.toNat with
      | 0 => if b = 0 then .ok .nop else .error .blkNotZero
      | 1 => if b = 0 then .ok .expandKey else .error .blkNotZero
      | 2 => if b = 0 then .ok .loadIv else .error .blkNotZero
      | 3 => .ok (.blkEnc b.toNat)
      | 4 => .ok (.blkDec b.toNat)
      | 5 => if b = 0 then .ok .cbcEnc else .error .blkNotZero
      | 6 => if b = 0 then .ok .cbcDec else .error .blkNotZero
      | _ => .error .reservedOp := by
  obtain ⟨h1, h2, h3, h4⟩ := commandWord_fields op b
  unfold decode decodeOp withoutBlk
  rw [h1, h2, h3, h4]
  simp only [ne_eq, not_true_eq_false, or_self, if_false]
  split
  · next h =>
    revert h
    generalize op.toNat = n
    intro h
    match n, h with
    | n + 7, _ => rfl
  · rfl

end Sys2Proof
end

