-- ==== Sys2Proof/Laws/Memory.lean ====
section
/-! SUPPORT. Bytes, words and blocks of DBUF: a read after a write, a write that leaves every other place alone, and the
canonical form that every write keeps. -/

namespace Sys2Proof
namespace Machine

/-! ### Bytes -/

theorem memRead_memWrite (m : Memory) (a b : Nat) (v : Byte) :
    memRead (memWrite m a v) b = if b = a then some v else memRead m b := by
  induction m with
  | nil => simp [memWrite, memRead]
  | cons c rest ih =>
    obtain ⟨k, u⟩ := c
    unfold memWrite
    by_cases h1 : a < k
    · simp [h1, memRead]
    · by_cases h2 : a = k
      · subst h2
        simp only [h1, if_false, if_true, memRead]
        by_cases hb : b = a <;> simp [hb]
      · simp only [h1, h2, if_false, memRead, ih]
        by_cases hb : b = k
        · subst hb; simp [Ne.symm h2]
        · simp [hb]

@[simp] theorem memRead_memWrite_self (m : Memory) (a : Nat) (v : Byte) : memRead (memWrite m a v) a = some v := by
  simp [memRead_memWrite]

theorem memRead_memWrite_ne (m : Memory) {a b : Nat} (v : Byte) (h : b ≠ a) :
    memRead (memWrite m a v) b = memRead m b := by simp [memRead_memWrite, h]

/-- Every offset in the memory is above `a`. -/
def allAbove (a : Nat) (m : Memory) : Prop := ∀ c ∈ m, a < c.1

theorem wf_cons (c : Host.Cell) (m : Memory) : Memory.wf (c :: m) = true ↔ allAbove c.1 m ∧ Memory.wf m = true := by
  induction m generalizing c with
  | nil => simp [Memory.wf, allAbove]
  | cons d rest ih =>
    simp only [Memory.wf, Bool.and_eq_true, decide_eq_true_eq]
    constructor
    · rintro ⟨hcd, hw⟩
      refine ⟨?_, hw⟩
      intro x hx
      rcases List.mem_cons.mp hx with rfl | hx
      · exact hcd
      · exact lt_trans hcd (((ih d).mp hw).1 x hx)
    · rintro ⟨ha, hw⟩
      exact ⟨ha d (List.mem_cons_self), hw⟩

theorem mem_memWrite (m : Memory) (a : Nat) (v : Byte) (c : Host.Cell) :
    c ∈ memWrite m a v → c = (a, v) ∨ c ∈ m := by
  induction m with
  | nil => simp [memWrite]
  | cons d rest ih =>
    obtain ⟨k, u⟩ := d
    unfold memWrite
    split
    · simp
    · split
      · simp only [List.mem_cons]
        rintro (h | h)
        · exact .inl h
        · exact .inr (.inr h)
      · simp only [List.mem_cons]
        rintro (h | h)
        · exact .inr (.inl h)
        · rcases ih h with h | h
          · exact .inl h
          · exact .inr (.inr h)

/-- A byte write keeps the canonical form. -/
theorem memWrite_wf (m : Memory) (a : Nat) (v : Byte) (h : Memory.wf m = true) : Memory.wf (memWrite m a v) = true := by
  induction m with
  | nil => rfl
  | cons d rest ih =>
    obtain ⟨k, u⟩ := d
    have ⟨hab, hwf⟩ := (wf_cons _ _).mp h
    unfold memWrite
    split
    · next hlt =>
      rw [wf_cons]
      refine ⟨?_, h⟩
      intro x hx
      rcases List.mem_cons.mp hx with rfl | hx
      · exact hlt
      · exact lt_trans hlt (hab x hx)
    · split
      · next heq => subst heq; rw [wf_cons]; exact ⟨hab, hwf⟩
      · next hlt hne =>
        rw [wf_cons]
        refine ⟨?_, ih hwf⟩
        intro x hx
        rcases mem_memWrite _ _ _ _ hx with rfl | hx
        · have : k < a := by omega
          simpa using this
        · exact hab x hx

/-- In the canonical form, memories that read alike are equal data. -/
theorem mem_ext {m n : Memory} (hm : Memory.wf m = true) (hn : Memory.wf n = true)
    (h : ∀ a, memRead m a = memRead n a) : m = n := by
  have key : ∀ {l : Memory} {k : Nat}, allAbove k l → ∀ a, a ≤ k → memRead l a = none := by
    intro l k hl a ha
    induction l with
    | nil => rfl
    | cons d rest ih =>
      obtain ⟨b, u⟩ := d
      have hb : k < b := hl (b, u) (List.mem_cons_self)
      have hne : a ≠ b := by omega
      simp only [memRead, hne, if_false]
      exact ih (fun x hx => hl x (List.mem_cons_of_mem _ hx))
  induction m generalizing n with
  | nil =>
    cases n with
    | nil => rfl
    | cons d rest => obtain ⟨b, u⟩ := d; simpa [memRead] using h b
  | cons c m ih =>
    cases n with
    | nil => obtain ⟨b, u⟩ := c; simpa [memRead] using h b
    | cons d n =>
      obtain ⟨b, u⟩ := c
      obtain ⟨e, v⟩ := d
      have ⟨hma, hmw⟩ := (wf_cons _ _).mp hm
      have ⟨hna, hnw⟩ := (wf_cons _ _).mp hn
      have hbe : b = e := by
        by_contra hne
        rcases Nat.lt_or_gt_of_ne hne with hlt | hgt
        · have := h b
          simp only [memRead, hne, if_true, if_false] at this
          rw [key hna b (Nat.le_of_lt hlt)] at this
          exact absurd this (by simp)
        · have := h e
          simp only [memRead, Ne.symm hne, if_true, if_false] at this
          rw [key hma e (Nat.le_of_lt hgt)] at this
          exact absurd this (by simp)
      subst hbe
      have huv : u = v := by simpa [memRead] using h b
      subst huv
      congr 1
      apply ih hmw hnw
      intro a
      by_cases hab : a = b
      · subst hab
        rw [key hma a (Nat.le_refl _), key hna a (Nat.le_refl _)]
      · simpa [memRead, hab] using h a

/-! ### Words -/

theorem byteK_pack (b0 b1 b2 b3 : Byte) :
    byteK 0 (pack b0 b1 b2 b3) = b0 ∧ byteK 1 (pack b0 b1 b2 b3) = b1 ∧ byteK 2 (pack b0 b1 b2 b3) = b2
      ∧ byteK 3 (pack b0 b1 b2 b3) = b3 := by
  refine ⟨?_, ?_, ?_, ?_⟩ <;>
  · apply BitVec.eq_of_getLsbD_eq
    intro i hi
    simp only [byteK, pack, BitVec.getLsbD_extractLsb', BitVec.getLsbD_append]
    have : i < 8 := hi
    interval_cases i <;> simp

theorem pack_byteK (w : Word) : pack (byteK 0 w) (byteK 1 w) (byteK 2 w) (byteK 3 w) = w := by
  apply BitVec.eq_of_getLsbD_eq
  intro i hi
  simp only [byteK, pack, BitVec.getLsbD_extractLsb', BitVec.getLsbD_append]
  have : i < 32 := hi
  interval_cases i <;> simp

/-- What a byte reads after a word write: the word's byte inside the word, what it was outside. -/
theorem memRead_memWriteWord (m : Memory) (a b : Nat) (w : Word) :
    memRead (memWriteWord m a w) b = if a ≤ b ∧ b < a + 4 then some (byteK (b - a) w) else memRead m b := by
  simp only [memWriteWord, memRead_memWrite]
  by_cases h3 : b = a + 3
  · subst h3; simp
  · by_cases h2 : b = a + 2
    · subst h2; simp
    · by_cases h1 : b = a + 1
      · subst h1; simp
      · by_cases h0 : b = a
        · subst h0; simp
        · have : ¬ (a ≤ b ∧ b < a + 4) := by omega
          simp [*]

@[simp] theorem memReadWord_memWriteWord_self (m : Memory) (a : Nat) (w : Word) :
    memReadWord (memWriteWord m a w) a = some w := by
  simp [memReadWord, memRead_memWriteWord, pack_byteK]

theorem memReadWord_memWriteWord_ne (m : Memory) {a b : Nat} (w : Word) (h : b + 4 ≤ a ∨ a + 4 ≤ b) :
    memReadWord (memWriteWord m a w) b = memReadWord m b := by
  have e : ∀ k, k < 4 → memRead (memWriteWord m a w) (b + k) = memRead m (b + k) := by
    intro k hk
    rw [memRead_memWriteWord, if_neg (by omega)]
  have e0 := e 0 (by omega); have e1 := e 1 (by omega); have e2 := e 2 (by omega); have e3 := e 3 (by omega)
  simp only [Nat.add_zero] at e0
  simp only [memReadWord, e0, e1, e2, e3]

theorem memWriteWord_wf (m : Memory) (a : Nat) (w : Word) (h : Memory.wf m = true) :
    Memory.wf (memWriteWord m a w) = true := by
  exact memWrite_wf _ _ _ (memWrite_wf _ _ _ (memWrite_wf _ _ _ (memWrite_wf _ _ _ h)))

theorem mem_memWriteWord (m : Memory) (a : Nat) (w : Word) (c : Host.Cell) (h : c ∈ memWriteWord m a w) :
    (a ≤ c.1 ∧ c.1 < a + 4) ∨ c ∈ m := by
  unfold memWriteWord at h
  rcases mem_memWrite _ _ _ _ h with rfl | h
  · left; constructor <;> dsimp <;> omega
  rcases mem_memWrite _ _ _ _ h with rfl | h
  · left; constructor <;> dsimp <;> omega
  rcases mem_memWrite _ _ _ _ h with rfl | h
  · left; constructor <;> dsimp <;> omega
  rcases mem_memWrite _ _ _ _ h with rfl | h
  · left; constructor <;> dsimp <;> omega
  exact .inr h

end Machine
end Sys2Proof
end

