-- ==== Sys2Proof/Laws/Tables.lean ====
section
/-! SUPPORT. What the table generator computes (40_tables.md R70 to R80): the walk as a list of pairs, and the tables of
40_tables.md section 4, to which `genTables` is proved equal whatever the tables held before. -/

namespace Sys2Proof
namespace Machine

/-- The S-box as 40_tables.md section 4.1 lists it. -/
def sboxList : List Byte :=
  [0x63, 0x7c, 0x77, 0x7b, 0xf2, 0x6b, 0x6f, 0xc5, 0x30, 0x01, 0x67, 0x2b, 0xfe, 0xd7, 0xab, 0x76]
    ++ [0xca, 0x82, 0xc9, 0x7d, 0xfa, 0x59, 0x47, 0xf0, 0xad, 0xd4, 0xa2, 0xaf, 0x9c, 0xa4, 0x72, 0xc0]
    ++ [0xb7, 0xfd, 0x93, 0x26, 0x36, 0x3f, 0xf7, 0xcc, 0x34, 0xa5, 0xe5, 0xf1, 0x71, 0xd8, 0x31, 0x15]
    ++ [0x04, 0xc7, 0x23, 0xc3, 0x18, 0x96, 0x05, 0x9a, 0x07, 0x12, 0x80, 0xe2, 0xeb, 0x27, 0xb2, 0x75]
    ++ [0x09, 0x83, 0x2c, 0x1a, 0x1b, 0x6e, 0x5a, 0xa0, 0x52, 0x3b, 0xd6, 0xb3, 0x29, 0xe3, 0x2f, 0x84]
    ++ [0x53, 0xd1, 0x00, 0xed, 0x20, 0xfc, 0xb1, 0x5b, 0x6a, 0xcb, 0xbe, 0x39, 0x4a, 0x4c, 0x58, 0xcf]
    ++ [0xd0, 0xef, 0xaa, 0xfb, 0x43, 0x4d, 0x33, 0x85, 0x45, 0xf9, 0x02, 0x7f, 0x50, 0x3c, 0x9f, 0xa8]
    ++ [0x51, 0xa3, 0x40, 0x8f, 0x92, 0x9d, 0x38, 0xf5, 0xbc, 0xb6, 0xda, 0x21, 0x10, 0xff, 0xf3, 0xd2]
    ++ [0xcd, 0x0c, 0x13, 0xec, 0x5f, 0x97, 0x44, 0x17, 0xc4, 0xa7, 0x7e, 0x3d, 0x64, 0x5d, 0x19, 0x73]
    ++ [0x60, 0x81, 0x4f, 0xdc, 0x22, 0x2a, 0x90, 0x88, 0x46, 0xee, 0xb8, 0x14, 0xde, 0x5e, 0x0b, 0xdb]
    ++ [0xe0, 0x32, 0x3a, 0x0a, 0x49, 0x06, 0x24, 0x5c, 0xc2, 0xd3, 0xac, 0x62, 0x91, 0x95, 0xe4, 0x79]
    ++ [0xe7, 0xc8, 0x37, 0x6d, 0x8d, 0xd5, 0x4e, 0xa9, 0x6c, 0x56, 0xf4, 0xea, 0x65, 0x7a, 0xae, 0x08]
    ++ [0xba, 0x78, 0x25, 0x2e, 0x1c, 0xa6, 0xb4, 0xc6, 0xe8, 0xdd, 0x74, 0x1f, 0x4b, 0xbd, 0x8b, 0x8a]
    ++ [0x70, 0x3e, 0xb5, 0x66, 0x48, 0x03, 0xf6, 0x0e, 0x61, 0x35, 0x57, 0xb9, 0x86, 0xc1, 0x1d, 0x9e]
    ++ [0xe1, 0xf8, 0x98, 0x11, 0x69, 0xd9, 0x8e, 0x94, 0x9b, 0x1e, 0x87, 0xe9, 0xce, 0x55, 0x28, 0xdf]
    ++ [0x8c, 0xa1, 0x89, 0x0d, 0xbf, 0xe6, 0x42, 0x68, 0x41, 0x99, 0x2d, 0x0f, 0xb0, 0x54, 0xbb, 0x16]

/-- The inverse S-box as 40_tables.md section 4.2 lists it. -/
def invSboxList : List Byte :=
  [0x52, 0x09, 0x6a, 0xd5, 0x30, 0x36, 0xa5, 0x38, 0xbf, 0x40, 0xa3, 0x9e, 0x81, 0xf3, 0xd7, 0xfb]
    ++ [0x7c, 0xe3, 0x39, 0x82, 0x9b, 0x2f, 0xff, 0x87, 0x34, 0x8e, 0x43, 0x44, 0xc4, 0xde, 0xe9, 0xcb]
    ++ [0x54, 0x7b, 0x94, 0x32, 0xa6, 0xc2, 0x23, 0x3d, 0xee, 0x4c, 0x95, 0x0b, 0x42, 0xfa, 0xc3, 0x4e]
    ++ [0x08, 0x2e, 0xa1, 0x66, 0x28, 0xd9, 0x24, 0xb2, 0x76, 0x5b, 0xa2, 0x49, 0x6d, 0x8b, 0xd1, 0x25]
    ++ [0x72, 0xf8, 0xf6, 0x64, 0x86, 0x68, 0x98, 0x16, 0xd4, 0xa4, 0x5c, 0xcc, 0x5d, 0x65, 0xb6, 0x92]
    ++ [0x6c, 0x70, 0x48, 0x50, 0xfd, 0xed, 0xb9, 0xda, 0x5e, 0x15, 0x46, 0x57, 0xa7, 0x8d, 0x9d, 0x84]
    ++ [0x90, 0xd8, 0xab, 0x00, 0x8c, 0xbc, 0xd3, 0x0a, 0xf7, 0xe4, 0x58, 0x05, 0xb8, 0xb3, 0x45, 0x06]
    ++ [0xd0, 0x2c, 0x1e, 0x8f, 0xca, 0x3f, 0x0f, 0x02, 0xc1, 0xaf, 0xbd, 0x03, 0x01, 0x13, 0x8a, 0x6b]
    ++ [0x3a, 0x91, 0x11, 0x41, 0x4f, 0x67, 0xdc, 0xea, 0x97, 0xf2, 0xcf, 0xce, 0xf0, 0xb4, 0xe6, 0x73]
    ++ [0x96, 0xac, 0x74, 0x22, 0xe7, 0xad, 0x35, 0x85, 0xe2, 0xf9, 0x37, 0xe8, 0x1c, 0x75, 0xdf, 0x6e]
    ++ [0x47, 0xf1, 0x1a, 0x71, 0x1d, 0x29, 0xc5, 0x89, 0x6f, 0xb7, 0x62, 0x0e, 0xaa, 0x18, 0xbe, 0x1b]
    ++ [0xfc, 0x56, 0x3e, 0x4b, 0xc6, 0xd2, 0x79, 0x20, 0x9a, 0xdb, 0xc0, 0xfe, 0x78, 0xcd, 0x5a, 0xf4]
    ++ [0x1f, 0xdd, 0xa8, 0x33, 0x88, 0x07, 0xc7, 0x31, 0xb1, 0x12, 0x10, 0x59, 0x27, 0x80, 0xec, 0x5f]
    ++ [0x60, 0x51, 0x7f, 0xa9, 0x19, 0xb5, 0x4a, 0x0d, 0x2d, 0xe5, 0x7a, 0x9f, 0x93, 0xc9, 0x9c, 0xef]
    ++ [0xa0, 0xe0, 0x3b, 0x4d, 0xae, 0x2a, 0xf5, 0xb0, 0xc8, 0xeb, 0xbb, 0x3c, 0x83, 0x53, 0x99, 0x61]
    ++ [0x17, 0x2b, 0x04, 0x7e, 0xba, 0x77, 0xd6, 0x26, 0xe1, 0x69, 0x14, 0x63, 0x55, 0x21, 0x0c, 0x7d]

/-- The walk of 40_tables.md R71: `n` pairs from `(x, xi)`. -/
def walkPairs : Nat → Byte → Byte → List (Byte × Byte)
  | 0, _, _ => []
  | n + 1, x, xi => (x, xi) :: walkPairs n (gmul x 0x03) (gmul xi 0xF6)

/-- The 255 pairs of the walk, evaluated. -/
def walkList : List (Byte × Byte) :=
  [(0x01, 0x01), (0x03, 0xf6), (0x05, 0x52), (0x0f, 0xc7), (0x11, 0xb4), (0x33, 0x6c), (0x55, 0x24), (0xff, 0x1c), (0x1a, 0xfd), (0x2e, 0xa2), (0x72, 0x97), (0x96, 0x84), (0xa1, 0x7c), (0xf8, 0xdd), (0x13, 0x4b)]
    ++ [(0x35, 0x39), (0x5f, 0x17), (0xe1, 0x0d), (0x38, 0xf2), (0x48, 0xa7), (0xd8, 0x94), (0x73, 0x85), (0x95, 0x8a), (0xa4, 0x8f), (0xf7, 0x8c), (0x02, 0x8d), (0x06, 0x7b), (0x0a, 0x29), (0x1e, 0xee), (0x22, 0x5a)]
    ++ [(0x66, 0x36), (0xaa, 0x12), (0xe5, 0x0e), (0x34, 0xf3), (0x5c, 0x51), (0xe4, 0xc6), (0x37, 0x42), (0x59, 0x3e), (0xeb, 0xe3), (0x26, 0xa8), (0x6a, 0x91), (0xbe, 0x86), (0xd9, 0x8b), (0x70, 0x79), (0x90, 0xde)]
    ++ [(0xab, 0x4a), (0xe6, 0xcf), (0x31, 0x45), (0x53, 0xca), (0xf5, 0x46), (0x04, 0xcb), (0x0c, 0xb0), (0x14, 0x99), (0x3c, 0x77), (0x44, 0x2d), (0xcc, 0x1b), (0x4f, 0x09), (0xd1, 0x07), (0x68, 0xf4), (0xb8, 0xa5)]
    ++ [(0xd3, 0x63), (0x6e, 0x21), (0xb2, 0x1f), (0xcd, 0xfc), (0x4c, 0x54), (0xd4, 0xc5), (0x67, 0x43), (0xa9, 0xc8), (0xe0, 0xb1), (0x3b, 0x6f), (0x4d, 0x25), (0xd7, 0xea), (0x62, 0xaf), (0xa6, 0x65), (0xf1, 0x23)]
    ++ [(0x08, 0xe8), (0x18, 0x58), (0x28, 0xc1), (0x78, 0xb6), (0x88, 0x9b), (0x83, 0x80), (0x9e, 0x89), (0xb9, 0x8e), (0xd0, 0x7a), (0x6b, 0xdf), (0xbd, 0xbc), (0xdc, 0x9d), (0x7f, 0x82), (0x81, 0x7e), (0x98, 0x2a)]
    ++ [(0xb3, 0xef), (0xce, 0xac), (0x49, 0x64), (0xdb, 0xd5), (0x76, 0xba), (0x9a, 0x9f), (0xb5, 0x75), (0xc4, 0xda), (0x57, 0xbf), (0xf9, 0x9c), (0x10, 0x74), (0x30, 0x2c), (0x50, 0xed), (0xf0, 0x5b), (0x0b, 0xc0)]
    ++ [(0x1d, 0x40), (0x27, 0xc9), (0x69, 0x47), (0xbb, 0x3d), (0xd6, 0xe2), (0x61, 0x5e), (0xa3, 0xc3), (0xfe, 0x41), (0x19, 0x3f), (0x2b, 0x15), (0x7d, 0xfa), (0x87, 0x56), (0x92, 0x32), (0xad, 0xe7), (0xec, 0x5d)]
    ++ [(0x2f, 0xc2), (0x71, 0xb7), (0x93, 0x6d), (0xae, 0xd2), (0xe9, 0x4e), (0x20, 0x3a), (0x60, 0x16), (0xa0, 0xfb), (0xfb, 0xa0), (0x16, 0x60), (0x3a, 0x20), (0x4e, 0xe9), (0xd2, 0xae), (0x6d, 0x93), (0xb7, 0x71)]
    ++ [(0xc2, 0x2f), (0x5d, 0xec), (0xe7, 0xad), (0x32, 0x92), (0x56, 0x87), (0xfa, 0x7d), (0x15, 0x2b), (0x3f, 0x19), (0x41, 0xfe), (0xc3, 0xa3), (0x5e, 0x61), (0xe2, 0xd6), (0x3d, 0xbb), (0x47, 0x69), (0xc9, 0x27)]
    ++ [(0x40, 0x1d), (0xc0, 0x0b), (0x5b, 0xf0), (0xed, 0x50), (0x2c, 0x30), (0x74, 0x10), (0x9c, 0xf9), (0xbf, 0x57), (0xda, 0xc4), (0x75, 0xb5), (0x9f, 0x9a), (0xba, 0x76), (0xd5, 0xdb), (0x64, 0x49), (0xac, 0xce)]
    ++ [(0xef, 0xb3), (0x2a, 0x98), (0x7e, 0x81), (0x82, 0x7f), (0x9d, 0xdc), (0xbc, 0xbd), (0xdf, 0x6b), (0x7a, 0xd0), (0x8e, 0xb9), (0x89, 0x9e), (0x80, 0x83), (0x9b, 0x88), (0xb6, 0x78), (0xc1, 0x28), (0x58, 0x18)]
    ++ [(0xe8, 0x08), (0x23, 0xf1), (0x65, 0xa6), (0xaf, 0x62), (0xea, 0xd7), (0x25, 0x4d), (0x6f, 0x3b), (0xb1, 0xe0), (0xc8, 0xa9), (0x43, 0x67), (0xc5, 0xd4), (0x54, 0x4c), (0xfc, 0xcd), (0x1f, 0xb2), (0x21, 0x6e)]
    ++ [(0x63, 0xd3), (0xa5, 0xb8), (0xf4, 0x68), (0x07, 0xd1), (0x09, 0x4f), (0x1b, 0xcc), (0x2d, 0x44), (0x77, 0x3c), (0x99, 0x14), (0xb0, 0x0c), (0xcb, 0x04), (0x46, 0xf5), (0xca, 0x53), (0x45, 0x31), (0xcf, 0xe6)]
    ++ [(0x4a, 0xab), (0xde, 0x90), (0x79, 0x70), (0x8b, 0xd9), (0x86, 0xbe), (0x91, 0x6a), (0xa8, 0x26), (0xe3, 0xeb), (0x3e, 0x59), (0x42, 0x37), (0xc6, 0xe4), (0x51, 0x5c), (0xf3, 0x34), (0x0e, 0xe5), (0x12, 0xaa)]
    ++ [(0x36, 0x66), (0x5a, 0x22), (0xee, 0x1e), (0x29, 0x0a), (0x7b, 0x06), (0x8d, 0x02), (0x8c, 0xf7), (0x8f, 0xa4), (0x8a, 0x95), (0x85, 0x73), (0x94, 0xd8), (0xa7, 0x48), (0xf2, 0x38), (0x0d, 0xe1), (0x17, 0x5f)]
    ++ [(0x39, 0x35), (0x4b, 0x13), (0xdd, 0xf8), (0x7c, 0xa1), (0x84, 0x96), (0x97, 0x72), (0xa2, 0x2e), (0xfd, 0x1a), (0x1c, 0xff), (0x24, 0x55), (0x6c, 0x33), (0xb4, 0x11), (0xc7, 0x0f), (0x52, 0x05), (0xf6, 0x03)]

/-- Every pair that `GenTables` fills in: `(0, 0)` and the walk (40_tables.md R71, R72). -/
def genPairs : List (Byte × Byte) := (0x00, 0x00) :: walkList

/-- `SBOX` (40_tables.md section 4.1). -/
def specSbox (b : Byte) : Byte := sboxList.getD b.toNat 0

/-- `INV_SBOX` (40_tables.md section 4.2). -/
def specInvSbox (b : Byte) : Byte := invSboxList.getD b.toNat 0

theorem walkPairs_eq : walkPairs 255 0x01 0x01 = walkList := by decide +kernel

/-! ### Entries of a table -/

@[simp] theorem lookup_putEntry_self {α : Type} (v : Vector α 256) (b : Byte) (x : α) :
    lookup (putEntry v b x) b = x := by simp [lookup, putEntry]

theorem lookup_putEntry_ne {α : Type} (v : Vector α 256) {a b : Byte} (x : α) (h : a ≠ b) :
    lookup (putEntry v a x) b = lookup v b := by
  have : a.toNat ≠ b.toNat := fun e => h (BitVec.eq_of_toNat_eq e)
  simp [lookup, putEntry, this]

/-- Two tables with equal entries are equal. -/
theorem table_ext {α : Type} {u v : Vector α 256} (h : ∀ b, lookup u b = lookup v b) : u = v := by
  apply Vector.ext
  intro i hi
  simpa [lookup, Nat.mod_eq_of_lt hi] using h (BitVec.ofNat 8 i)

/-! ### The walk as a fold -/

/-- Fill in a list of pairs, in order. -/
def fillAll (ps : List (Byte × Byte)) (t : Tables) : Tables := ps.foldl (fun t p => fill p.1 p.2 t) t

theorem fillWalk_eq (n : Nat) (x xi : Byte) (t : Tables) : fillWalk n x xi t = fillAll (walkPairs n x xi) t := by
  induction n generalizing x xi t with
  | zero => rfl
  | succ n ih => simp [fillWalk, walkPairs, fillAll, ih]

theorem genTables_fillAll (t : Tables) : genTables t = fillAll genPairs t := by
  unfold genTables
  rw [fillWalk_eq, walkPairs_eq, genPairs, fillAll, fillAll, List.foldl_cons]

/-- A table that `fill` writes at `key p` with `val p`, where the value is a function `f` of the key, holds `f` at every
key that was filled in. -/
theorem fillAll_lookup {α : Type} (T : Tables → Vector α 256) (key : Byte × Byte → Byte) (f : Byte → α)
    (ps : List (Byte × Byte)) (hfill : ∀ p ∈ ps, ∀ t, T (fill p.1 p.2 t) = putEntry (T t) (key p) (f (key p)))
    (t : Tables) (b : Byte) (hb : b ∈ ps.map key ∨ lookup (T t) b = f b) :
    lookup (T (fillAll ps t)) b = f b := by
  induction ps generalizing t with
  | nil => simpa [fillAll] using hb
  | cons p ps ih =>
    apply ih (fun q hq => hfill q (List.mem_cons_of_mem _ hq)) (fill p.1 p.2 t)
    rw [hfill p (List.mem_cons_self) t]
    by_cases h : key p = b
    · right; rw [← h]; simp
    · rw [lookup_putEntry_ne _ _ h]
      rcases hb with hb | hb
      · left
        rcases List.mem_cons.mp hb with e | e
        · exact absurd e.symm h
        · exact e
      · exact .inr hb

/-! ### What the pairs are -/

theorem genPairs_sbox_all : (genPairs.all fun p => affine p.2 == specSbox p.1) = true := by decide +kernel

theorem genPairs_invSbox_all : (genPairs.all fun p => specInvSbox (affine p.2) == p.1) = true := by decide +kernel

theorem genPairs_cover_all :
    ((List.range 256).all fun n => (genPairs.map fun p => p.1.toNat).contains n) = true := by decide +kernel

theorem sbox_cover_all :
    ((List.range 256).all fun n => (specSbox (specInvSbox (BitVec.ofNat 8 n))).toNat == n) = true := by decide +kernel

theorem genPairs_sbox {p : Byte × Byte} (h : p ∈ genPairs) : affine p.2 = specSbox p.1 := by
  simpa using List.all_eq_true.mp genPairs_sbox_all p h

theorem genPairs_invSbox {p : Byte × Byte} (h : p ∈ genPairs) : specInvSbox (affine p.2) = p.1 := by
  simpa using List.all_eq_true.mp genPairs_invSbox_all p h

theorem genPairs_cover (b : Byte) : b ∈ genPairs.map (·.1) := by
  have h := List.all_eq_true.mp genPairs_cover_all b.toNat (List.mem_range.mpr b.isLt)
  simp only [List.contains_eq_mem, decide_eq_true_eq, List.mem_map] at h
  obtain ⟨p, hp, e⟩ := h
  exact List.mem_map.mpr ⟨p, hp, BitVec.eq_of_toNat_eq e⟩

/-- The two S-boxes of the spec are inverse to each other (40_tables.md R75, R84). -/
theorem specSbox_specInvSbox (b : Byte) : specSbox (specInvSbox b) = b := by
  have h := List.all_eq_true.mp sbox_cover_all b.toNat (List.mem_range.mpr b.isLt)
  apply BitVec.eq_of_toNat_eq
  simpa using h

theorem specInvSbox_specSbox (b : Byte) : specInvSbox (specSbox b) = b := by
  obtain ⟨p, hp, e⟩ := List.mem_map.mp (genPairs_cover b)
  rw [← e, ← genPairs_sbox hp, genPairs_invSbox hp]

theorem genPairs_cover_affine (b : Byte) : b ∈ genPairs.map (fun p => affine p.2) := by
  obtain ⟨p, hp, e⟩ := List.mem_map.mp (genPairs_cover (specInvSbox b))
  exact List.mem_map.mpr ⟨p, hp, by rw [genPairs_sbox hp, e, specSbox_specInvSbox]⟩

/-! ### The generated tables -/

/-- The entries of a table that `GenTables` indexes by the walk's byte. -/
theorem genTables_forward {α : Type} (T : Tables → Vector α 256) (g : Byte → α)
    (hfill : ∀ x xi t, T (fill x xi t) = putEntry (T t) x (g (affine xi))) (t : Tables) (b : Byte) :
    lookup (T (genTables t)) b = g (specSbox b) := by
  rw [genTables_fillAll]
  apply fillAll_lookup T (·.1) (fun b => g (specSbox b))
  · intro p hp t; rw [hfill, genPairs_sbox hp]
  · exact .inl (genPairs_cover b)

/-- The entries of a table that `GenTables` indexes by the substituted byte. -/
theorem genTables_backward {α : Type} (T : Tables → Vector α 256) (g : Byte → α)
    (hfill : ∀ x xi t, T (fill x xi t) = putEntry (T t) (affine xi) (g x)) (t : Tables) (b : Byte) :
    lookup (T (genTables t)) b = g (specInvSbox b) := by
  rw [genTables_fillAll]
  apply fillAll_lookup T (fun p => affine p.2) (fun b => g (specInvSbox b))
  · intro p hp t; rw [hfill, genPairs_invSbox hp]
  · exact .inl (genPairs_cover_affine b)

section entries
variable (t : Tables) (b : Byte)

@[simp] theorem genTables_sbox : lookup (genTables t).sbox b = specSbox b :=
  genTables_forward (·.sbox) id (fun _ _ _ => rfl) t b

@[simp] theorem genTables_invSbox : lookup (genTables t).invSbox b = specInvSbox b :=
  genTables_backward (·.invSbox) id (fun _ _ _ => rfl) t b

@[simp] theorem genTables_subMix0 : lookup (genTables t).subMix0 b = mixEntry (specSbox b) :=
  genTables_forward (·.subMix0) mixEntry (fun _ _ _ => rfl) t b

@[simp] theorem genTables_subMix1 : lookup (genTables t).subMix1 b = rotr32 (mixEntry (specSbox b)) 8 :=
  genTables_forward (·.subMix1) (fun s => rotr32 (mixEntry s) 8) (fun _ _ _ => rfl) t b

@[simp] theorem genTables_subMix2 : lookup (genTables t).subMix2 b = rotr32 (mixEntry (specSbox b)) 16 :=
  genTables_forward (·.subMix2) (fun s => rotr32 (mixEntry s) 16) (fun _ _ _ => rfl) t b

@[simp] theorem genTables_subMix3 : lookup (genTables t).subMix3 b = rotr32 (mixEntry (specSbox b)) 24 :=
  genTables_forward (·.subMix3) (fun s => rotr32 (mixEntry s) 24) (fun _ _ _ => rfl) t b

@[simp] theorem genTables_invSubMix0 : lookup (genTables t).invSubMix0 b = invMixEntry (specInvSbox b) :=
  genTables_backward (·.invSubMix0) invMixEntry (fun _ _ _ => rfl) t b

@[simp] theorem genTables_invSubMix1 : lookup (genTables t).invSubMix1 b = rotr32 (invMixEntry (specInvSbox b)) 8 :=
  genTables_backward (·.invSubMix1) (fun s => rotr32 (invMixEntry s) 8) (fun _ _ _ => rfl) t b

@[simp] theorem genTables_invSubMix2 : lookup (genTables t).invSubMix2 b = rotr32 (invMixEntry (specInvSbox b)) 16 :=
  genTables_backward (·.invSubMix2) (fun s => rotr32 (invMixEntry s) 16) (fun _ _ _ => rfl) t b

@[simp] theorem genTables_invSubMix3 : lookup (genTables t).invSubMix3 b = rotr32 (invMixEntry (specInvSbox b)) 24 :=
  genTables_backward (·.invSubMix3) (fun s => rotr32 (invMixEntry s) 24) (fun _ _ _ => rfl) t b

end entries

/-- What the tables held before the generation does not matter: every entry is written (40_tables.md R80). -/
theorem genTables_indep (t u : Tables) : genTables t = genTables u := by
  have h : ∀ {α : Type} (T : Tables → Vector α 256), (∀ b, lookup (T (genTables t)) b = lookup (T (genTables u)) b) →
      T (genTables t) = T (genTables u) := fun T h => table_ext h
  cases ht : genTables t with
  | mk a0 a1 a2 a3 a4 a5 a6 a7 a8 a9 =>
  cases hu : genTables u with
  | mk b0 b1 b2 b3 b4 b5 b6 b7 b8 b9 =>
  have e0 := h (·.sbox) (by simp)
  have e1 := h (·.invSbox) (by simp)
  have e2 := h (·.subMix0) (by simp)
  have e3 := h (·.subMix1) (by simp)
  have e4 := h (·.subMix2) (by simp)
  have e5 := h (·.subMix3) (by simp)
  have e6 := h (·.invSubMix0) (by simp)
  have e7 := h (·.invSubMix1) (by simp)
  have e8 := h (·.invSubMix2) (by simp)
  have e9 := h (·.invSubMix3) (by simp)
  simp only [ht, hu] at e0 e1 e2 e3 e4 e5 e6 e7 e8 e9
  simp [*]

end Machine
end Sys2Proof
end

