-- ==== Sys2Proof/Laws/Gf.lean ====
section
/-! SUPPORT. GF(2^8) (00_scope.md R7): the multiplication is linear in each argument, so an identity between linear
functions of a byte is settled on the eight powers of x; and how bytes, packing, rotation and exclusive OR go together. -/

namespace Sys2Proof
namespace Machine

/-! ### Linearity -/

theorem xtime_xor (a b : Byte) : xtime (a ^^^ b) = xtime a ^^^ xtime b := by
  unfold xtime
  rw [BitVec.getLsbD_xor]
  cases a.getLsbD 7 <;> cases b.getLsbD 7 <;>
    simp only [Bool.xor_false, Bool.xor_true, Bool.false_eq_true, if_true, if_false, Bool.not_true, Bool.not_false,
      BitVec.shiftLeft_xor_distrib]
  · exact (BitVec.xor_assoc _ _ _)
  · rw [BitVec.xor_assoc, BitVec.xor_assoc, BitVec.xor_comm (b <<< 1)]
  · apply BitVec.eq_of_getLsbD_eq
    intro i hi
    simp only [BitVec.getLsbD_xor]
    cases (a <<< 1).getLsbD i <;> cases (b <<< 1).getLsbD i <;> cases (0x1B#8).getLsbD i <;> rfl

theorem gmulBits_xor_left (n : Nat) (a b c : Byte) : gmulBits n (a ^^^ b) c = gmulBits n a c ^^^ gmulBits n b c := by
  induction n generalizing a b c with
  | zero => simp [gmulBits]
  | succ n ih =>
    simp only [gmulBits, xtime_xor, ih]
    cases c.getLsbD 0
    · simp
    · simp only [if_true]
      ac_rfl

theorem gmulBits_xor_right (n : Nat) (a b c : Byte) : gmulBits n a (b ^^^ c) = gmulBits n a b ^^^ gmulBits n a c := by
  induction n generalizing a b c with
  | zero => simp [gmulBits]
  | succ n ih =>
    simp only [gmulBits, BitVec.ushiftRight_xor_distrib, ih, BitVec.getLsbD_xor]
    generalize gmulBits n (xtime a) (b >>> 1) = p
    generalize gmulBits n (xtime a) (c >>> 1) = q
    cases b.getLsbD 0 <;> cases c.getLsbD 0 <;> simp
    · ac_rfl
    · ac_rfl
    · have e : a ^^^ p ^^^ (a ^^^ q) = (a ^^^ a) ^^^ (p ^^^ q) := by ac_rfl
      rw [e, BitVec.xor_self, BitVec.zero_xor]

theorem gmul_xor_left (a b c : Byte) : gmul (a ^^^ b) c = gmul a c ^^^ gmul b c := gmulBits_xor_left 8 a b c

theorem gmul_xor_right (a b c : Byte) : gmul a (b ^^^ c) = gmul a b ^^^ gmul a c := gmulBits_xor_right 8 a b c

@[simp] theorem gmul_zero_left (c : Byte) : gmul 0 c = 0 := by
  have h := gmul_xor_left 0 0 c
  simpa using h

/-- A byte is the exclusive OR of its bits. -/
theorem byte_bits (b : Byte) :
    b = (if b.getLsbD 0 then 0x01 else 0) ^^^ (if b.getLsbD 1 then 0x02 else 0) ^^^ (if b.getLsbD 2 then 0x04 else 0)
      ^^^ (if b.getLsbD 3 then 0x08 else 0) ^^^ (if b.getLsbD 4 then 0x10 else 0) ^^^ (if b.getLsbD 5 then 0x20 else 0)
      ^^^ (if b.getLsbD 6 then 0x40 else 0) ^^^ (if b.getLsbD 7 then 0x80 else 0) := by
  apply BitVec.eq_of_getLsbD_eq
  intro i hi
  have e : ∀ (c : Bool) (x : Byte), (if c then x else 0).getLsbD i = (c && x.getLsbD i) := by
    intro c x; cases c <;> simp
  simp only [BitVec.getLsbD_xor, e]
  interval_cases i <;> simp

/-- Linear functions of a byte that agree on the powers of x agree everywhere. -/
theorem linear_ext {n : Nat} {f g : Byte → BitVec n} (hf : ∀ a b, f (a ^^^ b) = f a ^^^ f b)
    (hg : ∀ a b, g (a ^^^ b) = g a ^^^ g b)
    (h : f 0x01 = g 0x01 ∧ f 0x02 = g 0x02 ∧ f 0x04 = g 0x04 ∧ f 0x08 = g 0x08 ∧ f 0x10 = g 0x10 ∧ f 0x20 = g 0x20
      ∧ f 0x40 = g 0x40 ∧ f 0x80 = g 0x80) (b : Byte) : f b = g b := by
  have zero : ∀ {k : Byte → BitVec n}, (∀ a b, k (a ^^^ b) = k a ^^^ k b) → k 0 = 0 := by
    intro k hk
    have e := hk 0 0
    rw [BitVec.xor_self, BitVec.xor_self] at e
    exact e
  have term : ∀ (c : Bool) (x : Byte), f x = g x → f (if c then x else 0) = g (if c then x else 0) := by
    intro c x hx
    cases c
    · exact (zero hf).trans (zero hg).symm
    · exact hx
  obtain ⟨h0, h1, h2, h3, h4, h5, h6, h7⟩ := h
  rw [byte_bits b]
  simp only [hf, hg, term _ _ h0, term _ _ h1, term _ _ h2, term _ _ h3, term _ _ h4, term _ _ h5, term _ _ h6,
    term _ _ h7]

/-! ### Words and bytes -/

@[simp] theorem byteK0_pack (a b c d : Byte) : byteK 0 (pack a b c d) = a := (byteK_pack a b c d).1
@[simp] theorem byteK1_pack (a b c d : Byte) : byteK 1 (pack a b c d) = b := (byteK_pack a b c d).2.1
@[simp] theorem byteK2_pack (a b c d : Byte) : byteK 2 (pack a b c d) = c := (byteK_pack a b c d).2.2.1
@[simp] theorem byteK3_pack (a b c d : Byte) : byteK 3 (pack a b c d) = d := (byteK_pack a b c d).2.2.2

theorem byteK_xor (k : Nat) (v w : Word) : byteK k (v ^^^ w) = byteK k v ^^^ byteK k w := by
  unfold byteK
  apply BitVec.eq_of_getLsbD_eq
  intro i hi
  simp [BitVec.getLsbD_xor, hi]

/-- Two words with equal bytes are equal. -/
theorem word_ext {v w : Word} (h0 : byteK 0 v = byteK 0 w) (h1 : byteK 1 v = byteK 1 w) (h2 : byteK 2 v = byteK 2 w)
    (h3 : byteK 3 v = byteK 3 w) : v = w := by
  rw [← pack_byteK v, ← pack_byteK w, h0, h1, h2, h3]

theorem pack_xor (a b c d a' b' c' d' : Byte) :
    pack a b c d ^^^ pack a' b' c' d' = pack (a ^^^ a') (b ^^^ b') (c ^^^ c') (d ^^^ d') := by
  apply word_ext <;> simp [byteK_xor]

theorem rotr32_pack_8 (a b c d : Byte) : rotr32 (pack a b c d) 8 = pack d a b c := by
  apply BitVec.eq_of_getLsbD_eq
  intro i hi
  simp only [rotr32, rotl32, pack, BitVec.getLsbD_rotateLeft, BitVec.getLsbD_append]
  interval_cases i <;> simp

theorem rotr32_pack_16 (a b c d : Byte) : rotr32 (pack a b c d) 16 = pack c d a b := by
  apply BitVec.eq_of_getLsbD_eq
  intro i hi
  simp only [rotr32, rotl32, pack, BitVec.getLsbD_rotateLeft, BitVec.getLsbD_append]
  interval_cases i <;> simp

theorem rotr32_pack_24 (a b c d : Byte) : rotr32 (pack a b c d) 24 = pack b c d a := by
  apply BitVec.eq_of_getLsbD_eq
  intro i hi
  simp only [rotr32, rotl32, pack, BitVec.getLsbD_rotateLeft, BitVec.getLsbD_append]
  interval_cases i <;> simp

end Machine
end Sys2Proof
end

