-- ==== Sys2Proof/Laws/State.lean ====
section
/-! SUPPORT. The small lemmas of the state's updates, one per field and update, so that no proof unfolds a record update;
and the four words of a block. -/

namespace Sys2Proof
namespace Machine

/-! ### engineDone -/

@[simp] theorem engineDone_cfg (s : State) : (engineDone s).cfg = s.cfg := rfl
@[simp] theorem engineDone_ctrl (s : State) : (engineDone s).ctrl = s.ctrl := rfl
@[simp] theorem engineDone_busy (s : State) : (engineDone s).busy = false := rfl
@[simp] theorem engineDone_tablesReady (s : State) : (engineDone s).tablesReady = s.tablesReady := rfl
@[simp] theorem engineDone_ksValid (s : State) : (engineDone s).ksValid = s.ksValid := rfl
@[simp] theorem engineDone_irq (s : State) : (engineDone s).irq = s.irq := rfl
@[simp] theorem engineDone_err (s : State) : (engineDone s).err = s.err := rfl
@[simp] theorem engineDone_keylen (s : State) : (engineDone s).keylen = s.keylen := rfl
@[simp] theorem engineDone_len (s : State) : (engineDone s).len = s.len := rfl
@[simp] theorem engineDone_key (s : State) : (engineDone s).key = s.key := rfl
@[simp] theorem engineDone_iv (s : State) : (engineDone s).iv = s.iv := rfl
@[simp] theorem engineDone_cv (s : State) : (engineDone s).cv = s.cv := rfl
@[simp] theorem engineDone_nr (s : State) : (engineDone s).nr = s.nr := rfl
@[simp] theorem engineDone_ks (s : State) : (engineDone s).ks = s.ks := rfl
@[simp] theorem engineDone_iks (s : State) : (engineDone s).iks = s.iks := rfl
@[simp] theorem engineDone_tables (s : State) : (engineDone s).tables = s.tables := rfl
@[simp] theorem engineDone_mem (s : State) : (engineDone s).mem = s.mem := rfl
@[simp] theorem engineDone_pending (s : State) : (engineDone s).pending = s.pending := rfl
@[simp] theorem engineDone_genPending (s : State) : (engineDone s).genPending = s.genPending := rfl
@[simp] theorem engineDone_draws (s : State) : (engineDone s).draws = s.draws := rfl
@[simp] theorem engineDone_engineTurns (s : State) : (engineDone s).engineTurns = s.engineTurns + 1 := rfl
@[simp] theorem engineDone_waited (s : State) : (engineDone s).waited = 0 := rfl
@[simp] theorem engineDone_inputs (s : State) : (engineDone s).inputs = s.inputs := rfl
@[simp] theorem engineDone_response (s : State) : (engineDone s).response = s.response := rfl

/-! ### complete -/

@[simp] theorem complete_cfg (c : ErrCode) (s : State) : (complete c s).cfg = s.cfg := rfl
@[simp] theorem complete_ctrl (c : ErrCode) (s : State) : (complete c s).ctrl = s.ctrl := rfl
@[simp] theorem complete_busy (c : ErrCode) (s : State) : (complete c s).busy = false := rfl
@[simp] theorem complete_tablesReady (c : ErrCode) (s : State) : (complete c s).tablesReady = s.tablesReady := rfl
@[simp] theorem complete_ksValid (c : ErrCode) (s : State) : (complete c s).ksValid = s.ksValid := rfl
@[simp] theorem complete_irq (c : ErrCode) (s : State) : (complete c s).irq = s.irq ||| completionBits c := rfl
@[simp] theorem complete_err (c : ErrCode) (s : State) : (complete c s).err = c := rfl
@[simp] theorem complete_keylen (c : ErrCode) (s : State) : (complete c s).keylen = s.keylen := rfl
@[simp] theorem complete_len (c : ErrCode) (s : State) : (complete c s).len = s.len := rfl
@[simp] theorem complete_key (c : ErrCode) (s : State) : (complete c s).key = s.key := rfl
@[simp] theorem complete_iv (c : ErrCode) (s : State) : (complete c s).iv = s.iv := rfl
@[simp] theorem complete_cv (c : ErrCode) (s : State) : (complete c s).cv = s.cv := rfl
@[simp] theorem complete_nr (c : ErrCode) (s : State) : (complete c s).nr = s.nr := rfl
@[simp] theorem complete_ks (c : ErrCode) (s : State) : (complete c s).ks = s.ks := rfl
@[simp] theorem complete_iks (c : ErrCode) (s : State) : (complete c s).iks = s.iks := rfl
@[simp] theorem complete_tables (c : ErrCode) (s : State) : (complete c s).tables = s.tables := rfl
@[simp] theorem complete_mem (c : ErrCode) (s : State) : (complete c s).mem = s.mem := rfl
@[simp] theorem complete_pending (c : ErrCode) (s : State) : (complete c s).pending = none := rfl
@[simp] theorem complete_genPending (c : ErrCode) (s : State) : (complete c s).genPending = s.genPending := rfl
@[simp] theorem complete_draws (c : ErrCode) (s : State) : (complete c s).draws = s.draws := rfl
@[simp] theorem complete_engineTurns (c : ErrCode) (s : State) : (complete c s).engineTurns = s.engineTurns + 1 := rfl
@[simp] theorem complete_waited (c : ErrCode) (s : State) : (complete c s).waited = 0 := rfl
@[simp] theorem complete_inputs (c : ErrCode) (s : State) : (complete c s).inputs = s.inputs := rfl
@[simp] theorem complete_response (c : ErrCode) (s : State) : (complete c s).response = s.response := rfl

/-! ### draw_snd -/

@[simp] theorem draw_snd_cfg (s : State) : (draw s).2.cfg = s.cfg := rfl
@[simp] theorem draw_snd_ctrl (s : State) : (draw s).2.ctrl = s.ctrl := rfl
@[simp] theorem draw_snd_busy (s : State) : (draw s).2.busy = s.busy := rfl
@[simp] theorem draw_snd_tablesReady (s : State) : (draw s).2.tablesReady = s.tablesReady := rfl
@[simp] theorem draw_snd_ksValid (s : State) : (draw s).2.ksValid = s.ksValid := rfl
@[simp] theorem draw_snd_irq (s : State) : (draw s).2.irq = s.irq := rfl
@[simp] theorem draw_snd_err (s : State) : (draw s).2.err = s.err := rfl
@[simp] theorem draw_snd_keylen (s : State) : (draw s).2.keylen = s.keylen := rfl
@[simp] theorem draw_snd_len (s : State) : (draw s).2.len = s.len := rfl
@[simp] theorem draw_snd_key (s : State) : (draw s).2.key = s.key := rfl
@[simp] theorem draw_snd_iv (s : State) : (draw s).2.iv = s.iv := rfl
@[simp] theorem draw_snd_cv (s : State) : (draw s).2.cv = s.cv := rfl
@[simp] theorem draw_snd_nr (s : State) : (draw s).2.nr = s.nr := rfl
@[simp] theorem draw_snd_ks (s : State) : (draw s).2.ks = s.ks := rfl
@[simp] theorem draw_snd_iks (s : State) : (draw s).2.iks = s.iks := rfl
@[simp] theorem draw_snd_tables (s : State) : (draw s).2.tables = s.tables := rfl
@[simp] theorem draw_snd_mem (s : State) : (draw s).2.mem = s.mem := rfl
@[simp] theorem draw_snd_pending (s : State) : (draw s).2.pending = s.pending := rfl
@[simp] theorem draw_snd_genPending (s : State) : (draw s).2.genPending = s.genPending := rfl
@[simp] theorem draw_snd_draws (s : State) : (draw s).2.draws = s.draws + 1 := rfl
@[simp] theorem draw_snd_engineTurns (s : State) : (draw s).2.engineTurns = s.engineTurns := rfl
@[simp] theorem draw_snd_waited (s : State) : (draw s).2.waited = s.waited := rfl
@[simp] theorem draw_snd_inputs (s : State) : (draw s).2.inputs = s.inputs := rfl
@[simp] theorem draw_snd_response (s : State) : (draw s).2.response = s.response := rfl

/-! ### dbufWrite -/

@[simp] theorem dbufWrite_cfg (i : Nat) (w : Word) (s : State) : (dbufWrite i w s).cfg = s.cfg := rfl
@[simp] theorem dbufWrite_ctrl (i : Nat) (w : Word) (s : State) : (dbufWrite i w s).ctrl = s.ctrl := rfl
@[simp] theorem dbufWrite_busy (i : Nat) (w : Word) (s : State) : (dbufWrite i w s).busy = s.busy := rfl
@[simp] theorem dbufWrite_tablesReady (i : Nat) (w : Word) (s : State) : (dbufWrite i w s).tablesReady = s.tablesReady := rfl
@[simp] theorem dbufWrite_ksValid (i : Nat) (w : Word) (s : State) : (dbufWrite i w s).ksValid = s.ksValid := rfl
@[simp] theorem dbufWrite_irq (i : Nat) (w : Word) (s : State) : (dbufWrite i w s).irq = s.irq := rfl
@[simp] theorem dbufWrite_err (i : Nat) (w : Word) (s : State) : (dbufWrite i w s).err = s.err := rfl
@[simp] theorem dbufWrite_keylen (i : Nat) (w : Word) (s : State) : (dbufWrite i w s).keylen = s.keylen := rfl
@[simp] theorem dbufWrite_len (i : Nat) (w : Word) (s : State) : (dbufWrite i w s).len = s.len := rfl
@[simp] theorem dbufWrite_key (i : Nat) (w : Word) (s : State) : (dbufWrite i w s).key = s.key := rfl
@[simp] theorem dbufWrite_iv (i : Nat) (w : Word) (s : State) : (dbufWrite i w s).iv = s.iv := rfl
@[simp] theorem dbufWrite_cv (i : Nat) (w : Word) (s : State) : (dbufWrite i w s).cv = s.cv := rfl
@[simp] theorem dbufWrite_nr (i : Nat) (w : Word) (s : State) : (dbufWrite i w s).nr = s.nr := rfl
@[simp] theorem dbufWrite_ks (i : Nat) (w : Word) (s : State) : (dbufWrite i w s).ks = s.ks := rfl
@[simp] theorem dbufWrite_iks (i : Nat) (w : Word) (s : State) : (dbufWrite i w s).iks = s.iks := rfl
@[simp] theorem dbufWrite_tables (i : Nat) (w : Word) (s : State) : (dbufWrite i w s).tables = s.tables := rfl
@[simp] theorem dbufWrite_mem (i : Nat) (w : Word) (s : State) : (dbufWrite i w s).mem = memWriteWord s.mem (dbufOffset i) w := rfl
@[simp] theorem dbufWrite_pending (i : Nat) (w : Word) (s : State) : (dbufWrite i w s).pending = s.pending := rfl
@[simp] theorem dbufWrite_genPending (i : Nat) (w : Word) (s : State) : (dbufWrite i w s).genPending = s.genPending := rfl
@[simp] theorem dbufWrite_draws (i : Nat) (w : Word) (s : State) : (dbufWrite i w s).draws = s.draws := rfl
@[simp] theorem dbufWrite_engineTurns (i : Nat) (w : Word) (s : State) : (dbufWrite i w s).engineTurns = s.engineTurns := rfl
@[simp] theorem dbufWrite_waited (i : Nat) (w : Word) (s : State) : (dbufWrite i w s).waited = s.waited := rfl
@[simp] theorem dbufWrite_inputs (i : Nat) (w : Word) (s : State) : (dbufWrite i w s).inputs = s.inputs := rfl
@[simp] theorem dbufWrite_response (i : Nat) (w : Word) (s : State) : (dbufWrite i w s).response = s.response := rfl

/-! ### tableStep -/

@[simp] theorem tableStep_cfg (s : State) : (tableStep s).cfg = s.cfg := rfl
@[simp] theorem tableStep_ctrl (s : State) : (tableStep s).ctrl = s.ctrl := rfl
@[simp] theorem tableStep_busy (s : State) : (tableStep s).busy = false := rfl
@[simp] theorem tableStep_tablesReady (s : State) : (tableStep s).tablesReady = true := rfl
@[simp] theorem tableStep_ksValid (s : State) : (tableStep s).ksValid = s.ksValid := rfl
@[simp] theorem tableStep_irq (s : State) : (tableStep s).irq = s.irq := rfl
@[simp] theorem tableStep_err (s : State) : (tableStep s).err = s.err := rfl
@[simp] theorem tableStep_keylen (s : State) : (tableStep s).keylen = s.keylen := rfl
@[simp] theorem tableStep_len (s : State) : (tableStep s).len = s.len := rfl
@[simp] theorem tableStep_key (s : State) : (tableStep s).key = s.key := rfl
@[simp] theorem tableStep_iv (s : State) : (tableStep s).iv = s.iv := rfl
@[simp] theorem tableStep_cv (s : State) : (tableStep s).cv = s.cv := rfl
@[simp] theorem tableStep_nr (s : State) : (tableStep s).nr = s.nr := rfl
@[simp] theorem tableStep_ks (s : State) : (tableStep s).ks = s.ks := rfl
@[simp] theorem tableStep_iks (s : State) : (tableStep s).iks = s.iks := rfl
@[simp] theorem tableStep_tables (s : State) : (tableStep s).tables = genTables s.tables := rfl
@[simp] theorem tableStep_mem (s : State) : (tableStep s).mem = s.mem := rfl
@[simp] theorem tableStep_pending (s : State) : (tableStep s).pending = s.pending := rfl
@[simp] theorem tableStep_genPending (s : State) : (tableStep s).genPending = false := rfl
@[simp] theorem tableStep_draws (s : State) : (tableStep s).draws = s.draws := rfl
@[simp] theorem tableStep_engineTurns (s : State) : (tableStep s).engineTurns = s.engineTurns + 1 := rfl
@[simp] theorem tableStep_waited (s : State) : (tableStep s).waited = 0 := rfl
@[simp] theorem tableStep_inputs (s : State) : (tableStep s).inputs = s.inputs := rfl
@[simp] theorem tableStep_response (s : State) : (tableStep s).response = s.response := rfl

/-! ### loadSchedule -/

@[simp] theorem loadSchedule_cfg (n : Nat) (s : State) : (loadSchedule n s).cfg = s.cfg := rfl
@[simp] theorem loadSchedule_ctrl (n : Nat) (s : State) : (loadSchedule n s).ctrl = s.ctrl := rfl
@[simp] theorem loadSchedule_busy (n : Nat) (s : State) : (loadSchedule n s).busy = s.busy := rfl
@[simp] theorem loadSchedule_tablesReady (n : Nat) (s : State) : (loadSchedule n s).tablesReady = s.tablesReady := rfl
@[simp] theorem loadSchedule_ksValid (n : Nat) (s : State) : (loadSchedule n s).ksValid = true := rfl
@[simp] theorem loadSchedule_irq (n : Nat) (s : State) : (loadSchedule n s).irq = s.irq := rfl
@[simp] theorem loadSchedule_err (n : Nat) (s : State) : (loadSchedule n s).err = s.err := rfl
@[simp] theorem loadSchedule_keylen (n : Nat) (s : State) : (loadSchedule n s).keylen = s.keylen := rfl
@[simp] theorem loadSchedule_len (n : Nat) (s : State) : (loadSchedule n s).len = s.len := rfl
@[simp] theorem loadSchedule_key (n : Nat) (s : State) : (loadSchedule n s).key = s.key := rfl
@[simp] theorem loadSchedule_iv (n : Nat) (s : State) : (loadSchedule n s).iv = s.iv := rfl
@[simp] theorem loadSchedule_cv (n : Nat) (s : State) : (loadSchedule n s).cv = s.cv := rfl
@[simp] theorem loadSchedule_nr (n : Nat) (s : State) : (loadSchedule n s).nr = BitVec.ofNat 4 (roundsOf n) := rfl
@[simp] theorem loadSchedule_ks (n : Nat) (s : State) : (loadSchedule n s).ks = storeSchedule (forwardSchedule s.tables s.key n) := rfl
@[simp] theorem loadSchedule_iks (n : Nat) (s : State) : (loadSchedule n s).iks = storeSchedule (inverseSchedule s.tables s.key n) := rfl
@[simp] theorem loadSchedule_tables (n : Nat) (s : State) : (loadSchedule n s).tables = s.tables := rfl
@[simp] theorem loadSchedule_mem (n : Nat) (s : State) : (loadSchedule n s).mem = s.mem := rfl
@[simp] theorem loadSchedule_pending (n : Nat) (s : State) : (loadSchedule n s).pending = s.pending := rfl
@[simp] theorem loadSchedule_genPending (n : Nat) (s : State) : (loadSchedule n s).genPending = s.genPending := rfl
@[simp] theorem loadSchedule_draws (n : Nat) (s : State) : (loadSchedule n s).draws = s.draws := rfl
@[simp] theorem loadSchedule_engineTurns (n : Nat) (s : State) : (loadSchedule n s).engineTurns = s.engineTurns := rfl
@[simp] theorem loadSchedule_waited (n : Nat) (s : State) : (loadSchedule n s).waited = s.waited := rfl
@[simp] theorem loadSchedule_inputs (n : Nat) (s : State) : (loadSchedule n s).inputs = s.inputs := rfl
@[simp] theorem loadSchedule_response (n : Nat) (s : State) : (loadSchedule n s).response = s.response := rfl

/-! ### writeBlock -/

@[simp] theorem writeBlock_cfg (b : Nat) (q : Quad) (s : State) : (writeBlock b q s).cfg = s.cfg := by simp only [writeBlock, dbufWrite]
@[simp] theorem writeBlock_ctrl (b : Nat) (q : Quad) (s : State) : (writeBlock b q s).ctrl = s.ctrl := by simp only [writeBlock, dbufWrite]
@[simp] theorem writeBlock_busy (b : Nat) (q : Quad) (s : State) : (writeBlock b q s).busy = s.busy := by simp only [writeBlock, dbufWrite]
@[simp] theorem writeBlock_tablesReady (b : Nat) (q : Quad) (s : State) : (writeBlock b q s).tablesReady = s.tablesReady := by simp only [writeBlock, dbufWrite]
@[simp] theorem writeBlock_ksValid (b : Nat) (q : Quad) (s : State) : (writeBlock b q s).ksValid = s.ksValid := by simp only [writeBlock, dbufWrite]
@[simp] theorem writeBlock_irq (b : Nat) (q : Quad) (s : State) : (writeBlock b q s).irq = s.irq := by simp only [writeBlock, dbufWrite]
@[simp] theorem writeBlock_err (b : Nat) (q : Quad) (s : State) : (writeBlock b q s).err = s.err := by simp only [writeBlock, dbufWrite]
@[simp] theorem writeBlock_keylen (b : Nat) (q : Quad) (s : State) : (writeBlock b q s).keylen = s.keylen := by simp only [writeBlock, dbufWrite]
@[simp] theorem writeBlock_len (b : Nat) (q : Quad) (s : State) : (writeBlock b q s).len = s.len := by simp only [writeBlock, dbufWrite]
@[simp] theorem writeBlock_key (b : Nat) (q : Quad) (s : State) : (writeBlock b q s).key = s.key := by simp only [writeBlock, dbufWrite]
@[simp] theorem writeBlock_iv (b : Nat) (q : Quad) (s : State) : (writeBlock b q s).iv = s.iv := by simp only [writeBlock, dbufWrite]
@[simp] theorem writeBlock_cv (b : Nat) (q : Quad) (s : State) : (writeBlock b q s).cv = s.cv := by simp only [writeBlock, dbufWrite]
@[simp] theorem writeBlock_nr (b : Nat) (q : Quad) (s : State) : (writeBlock b q s).nr = s.nr := by simp only [writeBlock, dbufWrite]
@[simp] theorem writeBlock_ks (b : Nat) (q : Quad) (s : State) : (writeBlock b q s).ks = s.ks := by simp only [writeBlock, dbufWrite]
@[simp] theorem writeBlock_iks (b : Nat) (q : Quad) (s : State) : (writeBlock b q s).iks = s.iks := by simp only [writeBlock, dbufWrite]
@[simp] theorem writeBlock_tables (b : Nat) (q : Quad) (s : State) : (writeBlock b q s).tables = s.tables := by simp only [writeBlock, dbufWrite]
@[simp] theorem writeBlock_pending (b : Nat) (q : Quad) (s : State) : (writeBlock b q s).pending = s.pending := by simp only [writeBlock, dbufWrite]
@[simp] theorem writeBlock_genPending (b : Nat) (q : Quad) (s : State) : (writeBlock b q s).genPending = s.genPending := by simp only [writeBlock, dbufWrite]
@[simp] theorem writeBlock_draws (b : Nat) (q : Quad) (s : State) : (writeBlock b q s).draws = s.draws := by simp only [writeBlock, dbufWrite]
@[simp] theorem writeBlock_engineTurns (b : Nat) (q : Quad) (s : State) : (writeBlock b q s).engineTurns = s.engineTurns := by simp only [writeBlock, dbufWrite]
@[simp] theorem writeBlock_waited (b : Nat) (q : Quad) (s : State) : (writeBlock b q s).waited = s.waited := by simp only [writeBlock, dbufWrite]
@[simp] theorem writeBlock_inputs (b : Nat) (q : Quad) (s : State) : (writeBlock b q s).inputs = s.inputs := by simp only [writeBlock, dbufWrite]
@[simp] theorem writeBlock_response (b : Nat) (q : Quad) (s : State) : (writeBlock b q s).response = s.response := by simp only [writeBlock, dbufWrite]

/-! ### hostTick -/

@[simp] theorem hostTick_cfg (s : State) : (hostTick s).cfg = s.cfg := by unfold hostTick; split <;> rfl
@[simp] theorem hostTick_ctrl (s : State) : (hostTick s).ctrl = s.ctrl := by unfold hostTick; split <;> rfl
@[simp] theorem hostTick_busy (s : State) : (hostTick s).busy = s.busy := by unfold hostTick; split <;> rfl
@[simp] theorem hostTick_tablesReady (s : State) : (hostTick s).tablesReady = s.tablesReady := by unfold hostTick; split <;> rfl
@[simp] theorem hostTick_ksValid (s : State) : (hostTick s).ksValid = s.ksValid := by unfold hostTick; split <;> rfl
@[simp] theorem hostTick_irq (s : State) : (hostTick s).irq = s.irq := by unfold hostTick; split <;> rfl
@[simp] theorem hostTick_err (s : State) : (hostTick s).err = s.err := by unfold hostTick; split <;> rfl
@[simp] theorem hostTick_keylen (s : State) : (hostTick s).keylen = s.keylen := by unfold hostTick; split <;> rfl
@[simp] theorem hostTick_len (s : State) : (hostTick s).len = s.len := by unfold hostTick; split <;> rfl
@[simp] theorem hostTick_key (s : State) : (hostTick s).key = s.key := by unfold hostTick; split <;> rfl
@[simp] theorem hostTick_iv (s : State) : (hostTick s).iv = s.iv := by unfold hostTick; split <;> rfl
@[simp] theorem hostTick_cv (s : State) : (hostTick s).cv = s.cv := by unfold hostTick; split <;> rfl
@[simp] theorem hostTick_nr (s : State) : (hostTick s).nr = s.nr := by unfold hostTick; split <;> rfl
@[simp] theorem hostTick_ks (s : State) : (hostTick s).ks = s.ks := by unfold hostTick; split <;> rfl
@[simp] theorem hostTick_iks (s : State) : (hostTick s).iks = s.iks := by unfold hostTick; split <;> rfl
@[simp] theorem hostTick_tables (s : State) : (hostTick s).tables = s.tables := by unfold hostTick; split <;> rfl
@[simp] theorem hostTick_mem (s : State) : (hostTick s).mem = s.mem := by unfold hostTick; split <;> rfl
@[simp] theorem hostTick_pending (s : State) : (hostTick s).pending = s.pending := by unfold hostTick; split <;> rfl
@[simp] theorem hostTick_genPending (s : State) : (hostTick s).genPending = s.genPending := by unfold hostTick; split <;> rfl
@[simp] theorem hostTick_draws (s : State) : (hostTick s).draws = s.draws := by unfold hostTick; split <;> rfl
@[simp] theorem hostTick_engineTurns (s : State) : (hostTick s).engineTurns = s.engineTurns := by unfold hostTick; split <;> rfl
@[simp] theorem hostTick_inputs (s : State) : (hostTick s).inputs = s.inputs := by unfold hostTick; split <;> rfl
@[simp] theorem hostTick_response (s : State) : (hostTick s).response = s.response := by unfold hostTick; split <;> rfl

/-! ### resetDevice -/

@[simp] theorem resetDevice_cfg (s : State) : (resetDevice s).cfg = s.cfg := rfl
@[simp] theorem resetDevice_ctrl (s : State) : (resetDevice s).ctrl = State.reset.ctrl := rfl
@[simp] theorem resetDevice_busy (s : State) : (resetDevice s).busy = State.reset.busy := rfl
@[simp] theorem resetDevice_tablesReady (s : State) : (resetDevice s).tablesReady = State.reset.tablesReady := rfl
@[simp] theorem resetDevice_ksValid (s : State) : (resetDevice s).ksValid = State.reset.ksValid := rfl
@[simp] theorem resetDevice_irq (s : State) : (resetDevice s).irq = State.reset.irq := rfl
@[simp] theorem resetDevice_err (s : State) : (resetDevice s).err = State.reset.err := rfl
@[simp] theorem resetDevice_keylen (s : State) : (resetDevice s).keylen = State.reset.keylen := rfl
@[simp] theorem resetDevice_len (s : State) : (resetDevice s).len = State.reset.len := rfl
@[simp] theorem resetDevice_key (s : State) : (resetDevice s).key = State.reset.key := rfl
@[simp] theorem resetDevice_iv (s : State) : (resetDevice s).iv = State.reset.iv := rfl
@[simp] theorem resetDevice_cv (s : State) : (resetDevice s).cv = State.reset.cv := rfl
@[simp] theorem resetDevice_nr (s : State) : (resetDevice s).nr = State.reset.nr := rfl
@[simp] theorem resetDevice_ks (s : State) : (resetDevice s).ks = State.reset.ks := rfl
@[simp] theorem resetDevice_iks (s : State) : (resetDevice s).iks = State.reset.iks := rfl
@[simp] theorem resetDevice_tables (s : State) : (resetDevice s).tables = State.reset.tables := rfl
@[simp] theorem resetDevice_mem (s : State) : (resetDevice s).mem = State.reset.mem := rfl
@[simp] theorem resetDevice_pending (s : State) : (resetDevice s).pending = State.reset.pending := rfl
@[simp] theorem resetDevice_genPending (s : State) : (resetDevice s).genPending = State.reset.genPending := rfl
@[simp] theorem resetDevice_draws (s : State) : (resetDevice s).draws = s.draws := rfl
@[simp] theorem resetDevice_engineTurns (s : State) : (resetDevice s).engineTurns = s.engineTurns + 1 := rfl
@[simp] theorem resetDevice_waited (s : State) : (resetDevice s).waited = State.reset.waited := rfl
@[simp] theorem resetDevice_inputs (s : State) : (resetDevice s).inputs = s.inputs := rfl
@[simp] theorem resetDevice_response (s : State) : (resetDevice s).response = State.reset.response := rfl

/-! ### draw, unlessBusy, four words -/

@[simp] theorem draw_fst (s : State) : (draw s).1 = Config.draw s.draws := rfl

theorem draw_snd (s : State) : (draw s).2 = { s with draws := s.draws + 1 } := rfl

@[simp] theorem unlessBusy_idle {s written : State} (h : s.busy = false) : unlessBusy s written = written := by
  simp [unlessBusy, h]

@[simp] theorem unlessBusy_busy {s written : State} (h : s.busy = true) :
    unlessBusy s written = { s with irq := s.irq ||| ovrBit } := by simp [unlessBusy, h]

@[simp] theorem quadGet_quadSet_self (q : Quad) (j : Fin 4) (v : Word) : quadGet (quadSet q j v) j = v := by
  match j with
  | 0 => rfl
  | 1 => rfl
  | 2 => rfl
  | 3 => rfl

theorem quadGet_quadSet_ne (q : Quad) {i j : Fin 4} (v : Word) (h : i ≠ j) :
    quadGet (quadSet q i v) j = quadGet q j := by
  match i, j with
  | 0, 0 | 1, 1 | 2, 2 | 3, 3 => exact absurd rfl h
  | 0, 1 | 0, 2 | 0, 3 | 1, 0 | 1, 2 | 1, 3 | 2, 0 | 2, 1 | 2, 3 | 3, 0 | 3, 1 | 3, 2 => rfl

theorem quad_ext {p q : Quad} (h : ∀ j, quadGet p j = quadGet q j) : p = q := by
  cases p; cases q
  have h0 := h 0; have h1 := h 1; have h2 := h 2; have h3 := h 3
  simp only [quadGet] at h0 h1 h2 h3
  simp [*]

@[simp] theorem quadXor_self_right (p q : Quad) : quadXor (quadXor p q) q = p := by
  cases p; cases q; simp [quadXor]

theorem quadXor_comm (p q : Quad) : quadXor p q = quadXor q p := by
  simp [quadXor, BitVec.xor_comm]

theorem quadXor_assoc (p q r : Quad) : quadXor (quadXor p q) r = quadXor p (quadXor q r) := by
  simp [quadXor, BitVec.xor_assoc]

end Machine
end Sys2Proof
end

