-- ==== Sys2Proof/Laws/Ops.lean ====
section
/-! SUPPORT. Everything a shared operation can do, once: reading and writing a block, one chained block, the loops of the
CBC commands, and the completion of any command. -/

namespace Sys2Proof
namespace Machine

/-! ### Reading -/

theorem dbufRead_written {i : Nat} {s : State} {w : Word} (h : memReadWord s.mem (dbufOffset i) = some w) :
    dbufRead i s = (w, s) := by simp [dbufRead, h]

theorem dbufRead_unwritten {i : Nat} {s : State} (h : memReadWord s.mem (dbufOffset i) = none) :
    dbufRead i s = draw s := by simp [dbufRead, h]

/-- An ENGINE read of a word changes nothing but the model's count of draws. -/
theorem dbufRead_state (i : Nat) (s : State) : ∃ d, (dbufRead i s).2 = { s with draws := d } := by
  unfold dbufRead
  split
  · exact ⟨s.draws, rfl⟩
  · exact ⟨s.draws + 1, rfl⟩

theorem dbufRead_value {i : Nat} {s : State} {w : Word} (h : memReadWord s.mem (dbufOffset i) = some w) :
    (dbufRead i s).1 = w := by rw [dbufRead_written h]

/-- An ENGINE read of a block changes nothing but the model's count of draws. -/
theorem readBlock_state (b : Nat) (s : State) : ∃ d, (readBlock b s).2 = { s with draws := d } := by
  obtain ⟨d0, h0⟩ := dbufRead_state (blockStart b) s
  obtain ⟨d1, h1⟩ := dbufRead_state (blockStart b + 1) { s with draws := d0 }
  obtain ⟨d2, h2⟩ := dbufRead_state (blockStart b + 2) { s with draws := d1 }
  obtain ⟨d3, h3⟩ := dbufRead_state (blockStart b + 3) { s with draws := d2 }
  refine ⟨d3, ?_⟩
  dsimp only at h1 h2 h3
  simp only [readBlock, h0, h1, h2, h3]

/-- Every written word of the block reads as itself (20_memory.md R48). -/
theorem readBlock_readsAs (b : Nat) (s : State) : blockReadsAs s.mem b (readBlock b s).1 := by
  obtain ⟨d0, h0⟩ := dbufRead_state (blockStart b) s
  obtain ⟨d1, h1⟩ := dbufRead_state (blockStart b + 1) { s with draws := d0 }
  obtain ⟨d2, h2⟩ := dbufRead_state (blockStart b + 2) { s with draws := d1 }
  dsimp only at h1 h2
  intro j w hw
  match j with
  | 0 => exact dbufRead_value hw
  | 1 => simp only [readBlock, h0, quadGet]; exact dbufRead_value hw
  | 2 => simp only [readBlock, h0, h1, quadGet]; exact dbufRead_value hw
  | 3 => simp only [readBlock, h0, h1, h2, quadGet]; exact dbufRead_value hw

theorem memBlock_some {m : Memory} {b : Nat} {q : Quad} :
    memBlock m b = some q ↔ ∀ j : Fin 4, memReadWord m (dbufOffset (blockStart b + j.val)) = some (quadGet q j) := by
  constructor
  · intro h j
    unfold memBlock at h
    split at h
    · next w0 w1 w2 w3 h0 h1 h2 h3 =>
      obtain rfl : _ = q := Option.some.inj h
      match j with
      | 0 => exact h0
      | 1 => exact h1
      | 2 => exact h2
      | 3 => exact h3
    · exact absurd h (by simp)
  · intro h
    have h0 := h 0; have h1 := h 1; have h2 := h 2; have h3 := h 3
    simp only [quadGet, Fin.val_zero, Fin.val_one, Fin.val_two, Nat.add_zero] at h0 h1 h2
    have h3' : memReadWord m (dbufOffset (blockStart b + 3)) = some q.w3 := h3
    simp only [memBlock, h0, h1, h2, h3']

/-- A block that is all written reads as itself, and the read changes nothing. -/
theorem readBlock_written {b : Nat} {s : State} {q : Quad} (h : memBlock s.mem b = some q) : readBlock b s = (q, s) := by
  have h0 := dbufRead_written (memBlock_some.mp h 0)
  have h1 := dbufRead_written (memBlock_some.mp h 1)
  have h2 := dbufRead_written (memBlock_some.mp h 2)
  have h3 := dbufRead_written (memBlock_some.mp h 3)
  simp only [Fin.val_zero, Fin.val_one, Fin.val_two, Nat.add_zero] at h0 h1 h2
  have h3' : dbufRead (blockStart b + 3) s = (q.w3, s) := h3
  simp only [readBlock, h0, h1, h2, h3', quadGet]

/-! ### Writing -/

/-- A block write changes nothing but DBUF. -/
theorem writeBlock_state (b : Nat) (q : Quad) (s : State) : writeBlock b q s = { s with mem := (writeBlock b q s).mem } := by
  simp only [writeBlock, dbufWrite]

theorem writeBlock_mem (b : Nat) (q : Quad) (s : State) :
    (writeBlock b q s).mem = memWriteWord (memWriteWord (memWriteWord (memWriteWord s.mem (dbufOffset (blockStart b)) q.w0)
      (dbufOffset (blockStart b + 1)) q.w1) (dbufOffset (blockStart b + 2)) q.w2) (dbufOffset (blockStart b + 3)) q.w3 := by
  simp only [writeBlock, dbufWrite]

/-- A block write leaves every byte outside the block alone. -/
theorem memRead_writeBlock_ne (b : Nat) (q : Quad) (s : State) {a : Nat} (h : ¬ inBlock b a) :
    memRead (writeBlock b q s).mem a = memRead s.mem a := by
  simp only [inBlock, dbufOffset, blockStart] at h
  simp only [writeBlock_mem, memRead_memWriteWord, dbufOffset, blockStart]
  rw [if_neg (by omega), if_neg (by omega), if_neg (by omega), if_neg (by omega)]

/-- A block that has been written reads as what was written. -/
theorem memBlock_writeBlock_self (b : Nat) (q : Quad) (s : State) : memBlock (writeBlock b q s).mem b = some q := by
  rw [memBlock_some]
  intro j
  rw [writeBlock_mem]
  match j with
  | 0 =>
    rw [memReadWord_memWriteWord_ne, memReadWord_memWriteWord_ne, memReadWord_memWriteWord_ne]
    · exact memReadWord_memWriteWord_self _ _ _
    all_goals simp only [dbufOffset, Fin.val_zero]; omega
  | 1 =>
    rw [memReadWord_memWriteWord_ne, memReadWord_memWriteWord_ne]
    · exact memReadWord_memWriteWord_self _ _ _
    all_goals simp only [dbufOffset, Fin.val_one]; omega
  | 2 =>
    rw [memReadWord_memWriteWord_ne]
    · exact memReadWord_memWriteWord_self _ _ _
    all_goals simp only [dbufOffset, Fin.val_two]; omega
  | 3 => exact memReadWord_memWriteWord_self _ _ _

/-- A block reads alike in memories that agree on its bytes. -/
theorem memBlock_congr {m n : Memory} {b : Nat} (h : ∀ a, inBlock b a → memRead m a = memRead n a) :
    memBlock m b = memBlock n b := by
  have e : ∀ k, k < 4 → memReadWord m (dbufOffset (blockStart b + k)) = memReadWord n (dbufOffset (blockStart b + k)) := by
    intro k hk
    have g : ∀ i, i < 4 → memRead m (dbufOffset (blockStart b + k) + i) = memRead n (dbufOffset (blockStart b + k) + i) := by
      intro i hi
      apply h
      simp only [inBlock, dbufOffset, blockStart]
      omega
    have g0 := g 0 (by omega); have g1 := g 1 (by omega); have g2 := g 2 (by omega); have g3 := g 3 (by omega)
    simp only [Nat.add_zero] at g0
    simp only [memReadWord, g0, g1, g2, g3]
  have e0 := e 0 (by omega); have e1 := e 1 (by omega); have e2 := e 2 (by omega); have e3 := e 3 (by omega)
  simp only [Nat.add_zero] at e0
  simp only [memBlock, e0, e1, e2, e3]

theorem memBlock_writeBlock_ne {b c : Nat} (q : Quad) (s : State) (h : b ≠ c) :
    memBlock (writeBlock b q s).mem c = memBlock s.mem c := by
  apply memBlock_congr
  intro a ha
  apply memRead_writeBlock_ne
  simp only [inBlock, dbufOffset, blockStart] at ha ⊢
  omega

/-! ### DBUF stays well formed -/

theorem memInWindow_iff (cfg : Config.Params) (m : Memory) :
    memInWindow cfg m = true ↔ ∀ c ∈ m, 0x1000 ≤ c.1 ∧ c.1 < 0x1000 + dbufBytes cfg := by
  simp [memInWindow]

/-- What a memory needs to be a DBUF of this machine. -/
structure MemGood (cfg : Config.Params) (m : Memory) : Prop where
  wf : Memory.wf m = true
  inWindow : memInWindow cfg m = true
  whole : memWholeWords m

/-- A word write inside DBUF keeps the canonical form, the window and whole words. -/
theorem memWriteWord_good {cfg : Config.Params} {m : Memory} {i : Nat} (w : Word) (hi : i < 4 * dbufBlocks cfg)
    (h : MemGood cfg m) : MemGood cfg (memWriteWord m (dbufOffset i) w) := by
  refine ⟨memWriteWord_wf _ _ _ h.wf, ?_, ?_⟩
  · rw [memInWindow_iff]
    intro c hc
    rcases mem_memWriteWord _ _ _ _ hc with hc | hc
    · simp only [dbufOffset, dbufBytes] at hc ⊢
      omega
    · exact (memInWindow_iff _ _).mp h.inWindow c hc
  · intro n k hk
    simp only [memRead_memWriteWord]
    by_cases hn : n = i
    · subst hn
      rw [if_pos (by omega), if_pos (by omega)]
      rfl
    · rw [if_neg (by simp only [dbufOffset]; omega), if_neg (by simp only [dbufOffset]; omega)]
      exact h.whole n k hk

theorem writeBlock_good {cfg : Config.Params} {s : State} {b : Nat} (q : Quad) (hb : b < dbufBlocks cfg)
    (h : MemGood cfg s.mem) : MemGood cfg (writeBlock b q s).mem := by
  rw [writeBlock_mem]
  simp only [blockStart]
  exact memWriteWord_good _ (by omega) (memWriteWord_good _ (by omega) (memWriteWord_good _ (by omega)
    (memWriteWord_good _ (by omega) h)))

/-! ### One chained block -/

/-- One chained encryption: what it read, what it wrote, and that it changed nothing but DBUF and the count of draws. -/
theorem chainEncrypt_spec (b : Nat) (c : Quad) (s : State) : ∃ x d, blockReadsAs s.mem b x
    ∧ chainEncrypt b c s = (encryptWith s (quadXor x c),
        { s with draws := d, mem := (writeBlock b (encryptWith s (quadXor x c)) s).mem }) := by
  obtain ⟨d, hd⟩ := readBlock_state b s
  refine ⟨(readBlock b s).1, d, readBlock_readsAs b s, ?_⟩
  simp only [chainEncrypt, hd, writeBlock, dbufWrite, encryptWith]

/-- One chained decryption: what it read, what it wrote, and that it changed nothing but DBUF and the count of draws. -/
theorem chainDecrypt_spec (b : Nat) (c : Quad) (s : State) : ∃ x d, blockReadsAs s.mem b x
    ∧ chainDecrypt b c s = (x,
        { s with draws := d, mem := (writeBlock b (quadXor (decryptWith s x) c) s).mem }) := by
  obtain ⟨d, hd⟩ := readBlock_state b s
  refine ⟨(readBlock b s).1, d, readBlock_readsAs b s, ?_⟩
  simp only [chainDecrypt, hd, writeBlock, dbufWrite, decryptWith]

/-! ### The CBC loops -/

/-- The encryption loop changes nothing but DBUF and the count of draws. -/
theorem cbcEncLoop_state (n b : Nat) (c : Quad) (s : State) :
    ∃ d m, (cbcEncLoop n b c s).2 = { s with draws := d, mem := m } := by
  induction n generalizing b c s with
  | zero => exact ⟨s.draws, s.mem, rfl⟩
  | succ n ih =>
    obtain ⟨x, d, -, h⟩ := chainEncrypt_spec b c s
    simp only [cbcEncLoop, h]
    obtain ⟨d', m', e⟩ := ih (b + 1) (encryptWith s (quadXor x c))
      { s with draws := d, mem := (writeBlock b (encryptWith s (quadXor x c)) s).mem }
    exact ⟨d', m', e⟩

/-- The decryption loop changes nothing but DBUF and the count of draws. -/
theorem cbcDecLoop_state (n b : Nat) (c : Quad) (s : State) :
    ∃ d m, (cbcDecLoop n b c s).2 = { s with draws := d, mem := m } := by
  induction n generalizing b c s with
  | zero => exact ⟨s.draws, s.mem, rfl⟩
  | succ n ih =>
    obtain ⟨x, d, -, h⟩ := chainDecrypt_spec b c s
    simp only [cbcDecLoop, h]
    obtain ⟨d', m', e⟩ := ih (b + 1) x
      { s with draws := d, mem := (writeBlock b (quadXor (decryptWith s x) c) s).mem }
    exact ⟨d', m', e⟩

/-- The encryption loop leaves every byte outside its blocks alone. -/
theorem cbcEncLoop_frame (n b : Nat) (c : Quad) (s : State) {a : Nat}
    (h : a < dbufOffset (blockStart b) ∨ dbufOffset (blockStart b) + 16 * n ≤ a) :
    memRead (cbcEncLoop n b c s).2.mem a = memRead s.mem a := by
  induction n generalizing b c s with
  | zero => rfl
  | succ n ih =>
    obtain ⟨x, d, -, e⟩ := chainEncrypt_spec b c s
    simp only [cbcEncLoop, e]
    simp only [dbufOffset, blockStart] at h
    rw [ih _ _ _ (by simp only [dbufOffset, blockStart]; omega)]
    refine memRead_writeBlock_ne b (encryptWith s (quadXor x c)) s ?_
    simp only [inBlock, dbufOffset, blockStart]
    omega

/-- The decryption loop leaves every byte outside its blocks alone. -/
theorem cbcDecLoop_frame (n b : Nat) (c : Quad) (s : State) {a : Nat}
    (h : a < dbufOffset (blockStart b) ∨ dbufOffset (blockStart b) + 16 * n ≤ a) :
    memRead (cbcDecLoop n b c s).2.mem a = memRead s.mem a := by
  induction n generalizing b c s with
  | zero => rfl
  | succ n ih =>
    obtain ⟨x, d, -, e⟩ := chainDecrypt_spec b c s
    simp only [cbcDecLoop, e]
    simp only [dbufOffset, blockStart] at h
    rw [ih _ _ _ (by simp only [dbufOffset, blockStart]; omega)]
    refine memRead_writeBlock_ne b (quadXor (decryptWith s x) c) s ?_
    simp only [inBlock, dbufOffset, blockStart]
    omega

theorem cbcEncLoop_good {cfg : Config.Params} (n b : Nat) (c : Quad) (s : State) (hb : b + n ≤ dbufBlocks cfg)
    (h : MemGood cfg s.mem) : MemGood cfg (cbcEncLoop n b c s).2.mem := by
  induction n generalizing b c s with
  | zero => exact h
  | succ n ih =>
    obtain ⟨x, d, -, e⟩ := chainEncrypt_spec b c s
    simp only [cbcEncLoop, e]
    exact ih _ _ _ (by omega) (writeBlock_good (s := s) (b := b) (encryptWith s (quadXor x c)) (by omega) h)

theorem cbcDecLoop_good {cfg : Config.Params} (n b : Nat) (c : Quad) (s : State) (hb : b + n ≤ dbufBlocks cfg)
    (h : MemGood cfg s.mem) : MemGood cfg (cbcDecLoop n b c s).2.mem := by
  induction n generalizing b c s with
  | zero => exact h
  | succ n ih =>
    obtain ⟨x, d, -, e⟩ := chainDecrypt_spec b c s
    simp only [cbcDecLoop, e]
    exact ih _ _ _ (by omega) (writeBlock_good (s := s) (b := b) (quadXor (decryptWith s x) c) (by omega) h)

/-- A legal length names blocks that exist (43_cbc.md R111). -/
theorem lenLegal_iff {cfg : Config.Params} {len : BitVec 16} :
    lenLegal cfg len = true ↔ len.toNat % 16 = 0 ∧ len.toNat ≤ dbufBytes cfg := by
  simp only [lenLegal, Bool.and_eq_true, decide_eq_true_eq]

theorem cbcBlocks_le {cfg : Config.Params} {len : BitVec 16} (h : lenLegal cfg len = true) :
    cbcBlocks len ≤ dbufBlocks cfg := by
  simp only [lenLegal, Bool.and_eq_true, decide_eq_true_eq] at h
  simp only [dbufBytes] at h
  unfold cbcBlocks
  omega

/-! ### The completion of any command -/

/-- What a command may change before its completion: DBUF, `CV`, the schedule, and the count of draws. -/
inductive CommandEffect (s : State) : Instr → State → Prop where
  /-- Nothing: `NOP`, and every command that reports an error. -/
  | nothing (i : Instr) : CommandEffect s i s
  /-- The schedules of the key. -/
  | schedule (nk : Nat) (h : keyWords s.keylen = some nk) : CommandEffect s .expandKey (loadSchedule nk s)
  /-- `CV` takes the IV. -/
  | loadIv : CommandEffect s .loadIv { s with cv := s.iv }
  /-- One chained encryption. -/
  | blkEnc (b : Nat) (hv : s.ksValid = true) (hb : b < dbufBlocks s.cfg) :
      CommandEffect s (.blkEnc b) { (chainEncrypt b s.cv s).2 with cv := (chainEncrypt b s.cv s).1 }
  /-- One chained decryption. -/
  | blkDec (b : Nat) (hv : s.ksValid = true) (hb : b < dbufBlocks s.cfg) :
      CommandEffect s (.blkDec b) { (chainDecrypt b s.cv s).2 with cv := (chainDecrypt b s.cv s).1 }
  /-- The encryption loop. -/
  | cbcEnc (hv : s.ksValid = true) (hl : lenLegal s.cfg s.len = true) :
      CommandEffect s .cbcEnc { (cbcEncLoop (cbcBlocks s.len) 0 s.iv s).2 with
        cv := (cbcEncLoop (cbcBlocks s.len) 0 s.iv s).1 }
  /-- The decryption loop. -/
  | cbcDec (hv : s.ksValid = true) (hl : lenLegal s.cfg s.len = true) :
      CommandEffect s .cbcDec { (cbcDecLoop (cbcBlocks s.len) 0 s.iv s).2 with
        cv := (cbcDecLoop (cbcBlocks s.len) 0 s.iv s).1 }

/-- Every command answers a next state: the completion, with its code, of what the command did; a code other than 0 goes
with no effect at all (44_control.md R121; 60_exceptions.md R131). -/
theorem exec_cases (i : Instr) (s : State) :
    ∃ c u, exec i s = .next (complete c u) ∧ CommandEffect s i u ∧ (c ≠ .none → u = s) := by
  cases i with
  | nop => exact ⟨.none, s, rfl, .nothing _, fun h => absurd rfl h⟩
  | expandKey =>
    simp only [exec, execExpandKey]
    split
    · exact ⟨_, s, rfl, .nothing _, fun _ => rfl⟩
    · next nk h => exact ⟨_, _, rfl, .schedule nk h, fun h => absurd rfl h⟩
  | loadIv => exact ⟨.none, _, rfl, .loadIv, fun h => absurd rfl h⟩
  | blkEnc b =>
    simp only [exec, execBlkEnc]
    split
    · exact ⟨_, s, rfl, .nothing _, fun _ => rfl⟩
    · next hv =>
      split
      · exact ⟨_, s, rfl, .nothing _, fun _ => rfl⟩
      · next hb =>
        exact ⟨_, _, rfl, .blkEnc b (by simpa using hv) (by simpa [blockInRange] using hb), fun h => absurd rfl h⟩
  | blkDec b =>
    simp only [exec, execBlkDec]
    split
    · exact ⟨_, s, rfl, .nothing _, fun _ => rfl⟩
    · next hv =>
      split
      · exact ⟨_, s, rfl, .nothing _, fun _ => rfl⟩
      · next hb =>
        exact ⟨_, _, rfl, .blkDec b (by simpa using hv) (by simpa [blockInRange] using hb), fun h => absurd rfl h⟩
  | cbcEnc =>
    simp only [exec, execCbcEnc]
    split
    · exact ⟨_, s, rfl, .nothing _, fun _ => rfl⟩
    · next hv =>
      split
      · exact ⟨_, s, rfl, .nothing _, fun _ => rfl⟩
      · next hl => exact ⟨_, _, rfl, .cbcEnc (by simpa using hv) (by simpa using hl), fun h => absurd rfl h⟩
  | cbcDec =>
    simp only [exec, execCbcDec]
    split
    · exact ⟨_, s, rfl, .nothing _, fun _ => rfl⟩
    · next hv =>
      split
      · exact ⟨_, s, rfl, .nothing _, fun _ => rfl⟩
      · next hl => exact ⟨_, _, rfl, .cbcDec (by simpa using hv) (by simpa using hl), fun h => absurd rfl h⟩

/-- Whatever a command does, every field but DBUF, `CV`, the schedule and the count of draws is as it was. -/
theorem commandEffect_frame {s u : State} {i : Instr} (h : CommandEffect s i u) :
    u = { s with mem := u.mem, cv := u.cv, ks := u.ks, iks := u.iks, nr := u.nr, ksValid := u.ksValid, draws := u.draws } := by
  cases h with
  | nothing => rfl
  | schedule nk h => rfl
  | loadIv => rfl
  | blkEnc b =>
    obtain ⟨x, d, -, e⟩ := chainEncrypt_spec b s.cv s
    rw [e]
  | blkDec b =>
    obtain ⟨x, d, -, e⟩ := chainDecrypt_spec b s.cv s
    rw [e]
  | cbcEnc =>
    obtain ⟨d, m, e⟩ := cbcEncLoop_state (cbcBlocks s.len) 0 s.iv s
    rw [e]
  | cbcDec =>
    obtain ⟨d, m, e⟩ := cbcDecLoop_state (cbcBlocks s.len) 0 s.iv s
    rw [e]

/-- A command changes the schedule only if it is a successful `EXPAND_KEY` (41_key_schedule.md R88). -/
theorem commandEffect_schedule {s u : State} {i : Instr} (h : CommandEffect s i u) :
    (u.ks = s.ks ∧ u.iks = s.iks ∧ u.nr = s.nr ∧ u.ksValid = s.ksValid)
    ∨ (i = .expandKey ∧ ∃ nk, keyWords s.keylen = some nk ∧ u = loadSchedule nk s) := by
  cases h with
  | nothing => exact .inl ⟨rfl, rfl, rfl, rfl⟩
  | schedule nk h => exact .inr ⟨rfl, nk, h, rfl⟩
  | loadIv => exact .inl ⟨rfl, rfl, rfl, rfl⟩
  | blkEnc b =>
    obtain ⟨x, d, -, e⟩ := chainEncrypt_spec b s.cv s
    rw [e]
    exact .inl ⟨rfl, rfl, rfl, rfl⟩
  | blkDec b =>
    obtain ⟨x, d, -, e⟩ := chainDecrypt_spec b s.cv s
    rw [e]
    exact .inl ⟨rfl, rfl, rfl, rfl⟩
  | cbcEnc =>
    obtain ⟨d, m, e⟩ := cbcEncLoop_state (cbcBlocks s.len) 0 s.iv s
    rw [e]
    exact .inl ⟨rfl, rfl, rfl, rfl⟩
  | cbcDec =>
    obtain ⟨d, m, e⟩ := cbcDecLoop_state (cbcBlocks s.len) 0 s.iv s
    rw [e]
    exact .inl ⟨rfl, rfl, rfl, rfl⟩

/-- A command keeps DBUF in canonical form, in its window and written by whole words. -/
theorem commandEffect_good {s u : State} {i : Instr} (h : CommandEffect s i u) (hm : MemGood s.cfg s.mem) :
    MemGood s.cfg u.mem := by
  cases h with
  | nothing => exact hm
  | schedule nk h => exact hm
  | loadIv => exact hm
  | blkEnc b _ hb =>
    obtain ⟨x, d, -, e⟩ := chainEncrypt_spec b s.cv s
    rw [e]
    simp only []
    refine writeBlock_good (s := s) (b := b) (encryptWith s (quadXor x s.cv)) hb hm
  | blkDec b _ hb =>
    obtain ⟨x, d, -, e⟩ := chainDecrypt_spec b s.cv s
    rw [e]
    simp only []
    refine writeBlock_good (s := s) (b := b) (quadXor (decryptWith s x) s.cv) hb hm
  | cbcEnc _ hl => exact cbcEncLoop_good _ 0 s.iv s (by have := cbcBlocks_le hl; omega) hm
  | cbcDec _ hl => exact cbcDecLoop_good _ 0 s.iv s (by have := cbcBlocks_le hl; omega) hm

/-- The memory of the reset state is in canonical form. -/
theorem reset_mem_wf : Memory.wf State.reset.mem = true := rfl

end Machine
end Sys2Proof
end

