-- ==== Sys2Proof/Laws/PerInstr.lean ====
section
/-! SUPPORT. One family of statements per command: its encoding matches its row of spec/opcode_table.json under the row's
mask, and carries its block index where the row leaves bits free (30_encoding.md R61, R62). -/

namespace Sys2Proof

/-- The mask of a command's row. -/
def Laws.rowMask : Instr → Word
  | .blkEnc _ => 0xFFFF00FF
  | .blkDec _ => 0xFFFF00FF
  | .nop => 0xFFFFFFFF
  | .expandKey => 0xFFFFFFFF
  | .loadIv => 0xFFFFFFFF
  | .cbcEnc => 0xFFFFFFFF
  | .cbcDec => 0xFFFFFFFF

/-- The match value of a command's row. -/
def Laws.rowMatch : Instr → Word
  | .nop => 0x00000000
  | .expandKey => 0x00000001
  | .loadIv => 0x00000002
  | .blkEnc _ => 0x00000003
  | .blkDec _ => 0x00000004
  | .cbcEnc => 0x00000005
  | .cbcDec => 0x00000006

/-- The block index that a command's word carries. -/
def Laws.rowBlk : Instr → BitVec 8
  | .blkEnc b => BitVec.ofNat 8 b
  | .blkDec b => BitVec.ofNat 8 b
  | .nop | .expandKey | .loadIv | .cbcEnc | .cbcDec => 0

/-- The encoding of a command matches its row and carries its block index. -/
def Laws.EncodeMatchesRow.Statement (i : Instr) : Prop :=
  encode i &&& Laws.rowMask i = Laws.rowMatch i ∧ blkField (encode i) = Laws.rowBlk i

theorem Laws.blkWord_masked (op : BitVec 4) (b : BitVec 8) : commandWord op b &&& 0xFFFF00FF = op.setWidth 32 := by
  unfold commandWord
  ext i hi
  interval_cases i <;> simp

theorem Laws.EncodeMatchesRow.nop : Laws.EncodeMatchesRow.Statement .nop := ⟨rfl, rfl⟩
theorem Laws.EncodeMatchesRow.expandKey : Laws.EncodeMatchesRow.Statement .expandKey := ⟨rfl, rfl⟩
theorem Laws.EncodeMatchesRow.loadIv : Laws.EncodeMatchesRow.Statement .loadIv := ⟨rfl, rfl⟩
theorem Laws.EncodeMatchesRow.blkEnc (b : Nat) : Laws.EncodeMatchesRow.Statement (.blkEnc b) :=
  ⟨Laws.blkWord_masked 3 _, (commandWord_fields 3 _).2.2.2⟩
theorem Laws.EncodeMatchesRow.blkDec (b : Nat) : Laws.EncodeMatchesRow.Statement (.blkDec b) :=
  ⟨Laws.blkWord_masked 4 _, (commandWord_fields 4 _).2.2.2⟩
theorem Laws.EncodeMatchesRow.cbcEnc : Laws.EncodeMatchesRow.Statement .cbcEnc := ⟨rfl, rfl⟩
theorem Laws.EncodeMatchesRow.cbcDec : Laws.EncodeMatchesRow.Statement .cbcDec := ⟨rfl, rfl⟩

end Sys2Proof
end

