-- ==== Sys2Proof/Laws/Schedule.lean ====
section
/-! SUPPORT. The stored schedules word by word: the forward recurrence (41_key_schedule.md R87), the reversed groups (R89)
and the zeros past the rows (R86). -/

namespace Sys2Proof
namespace Machine

/-! ### The forward expansion -/

@[simp] theorem expandForward_length (t : Tables) (key : Vector Word 8) (nk n : Nat) :
    (expandForward t key nk n).length = n := by
  induction n with
  | zero => rfl
  | succ n ih => simp [expandForward, ih]

/-- A longer expansion extends a shorter one. -/
theorem expandForward_getD_le (t : Tables) (key : Vector Word 8) (nk : Nat) {i m n : Nat} (hi : i < m) (hm : m ≤ n) :
    (expandForward t key nk n).getD i 0 = (expandForward t key nk m).getD i 0 := by
  induction n with
  | zero => omega
  | succ n ih =>
    rcases Nat.lt_or_ge n m with h | h
    · have : m = n + 1 := by omega
      rw [this]
    · rw [← ih h, expandForward, List.getD_append _ _ _ _ (by simp; omega)]

/-- Word `i` of the expansion, from the words before it (41_key_schedule.md R87). -/
theorem expandForward_getD (t : Tables) (key : Vector Word 8) {nk : Nat} (hk : 0 < nk) {i n : Nat} (h : i < n) :
    (expandForward t key nk n).getD i 0 =
      if i < nk then key.toList.getD i 0
      else (expandForward t key nk n).getD (i - nk) 0
        ^^^ forwardMix t nk i ((expandForward t key nk n).getD (i - 1) 0) := by
  have e : (expandForward t key nk n).getD i 0 = forwardWord t key nk (expandForward t key nk i) := by
    rw [expandForward_getD_le t key nk (Nat.lt_succ_self i) h, expandForward,
      List.getD_append_right _ _ _ _ (by simp)]
    simp
  rw [e, forwardWord]
  simp only [expandForward_length]
  split
  · rfl
  · next hnk =>
    rw [expandForward_getD_le t key nk (m := i) (n := n) (by omega) (by omega),
      expandForward_getD_le t key nk (m := i) (n := n) (by omega) (by omega)]

@[simp] theorem forwardSchedule_length (t : Tables) (key : Vector Word 8) (nk : Nat) :
    (forwardSchedule t key nk).length = rowsOf nk := expandForward_length t key nk (rowsOf nk)

/-! ### The inverse expansion -/

@[simp] theorem expandInverse_length (t : Tables) (W : List Word) (nr : Nat) :
    (expandInverse t W nr).length = (nr + 1) * 4 := by simp [expandInverse]

@[simp] theorem inverseSchedule_length (t : Tables) (key : Vector Word 8) (nk : Nat) :
    (inverseSchedule t key nk).length = rowsOf nk := expandInverse_length _ _ _

theorem expandInverse_getD (t : Tables) (W : List Word) (nr : Nat) {n : Nat} (h : n < (nr + 1) * 4) :
    (expandInverse t W nr).getD n 0 = inverseWord t W nr n := by
  simp [expandInverse, List.getD, h]

/-! ### Storage -/

/-- Word `i` of a stored schedule: the list's word, or 0 past its end (41_key_schedule.md R86). -/
theorem scheduleWord_store (W : List Word) {i : Nat} (h : i < 60) :
    scheduleWord (storeSchedule W) i = W.getD i 0 := by
  simp only [scheduleWord, storeSchedule, Vector.toList, List.getD, List.getElem?_take, h, if_true]
  rw [List.getElem?_append]
  split
  · rfl
  · next hl =>
    have : i - W.length < 60 := by omega
    rw [List.getElem?_replicate, if_pos this, List.getElem?_eq_none (by omega)]
    rfl

theorem scheduleWord_get (v : Vector Word 60) {i : Nat} (h : i < 60) : scheduleWord v i = v[i] := by
  simp [scheduleWord, List.getD, h]

/-- Two stored schedules with equal words are equal. -/
theorem schedule_ext {u v : Vector Word 60} (h : ∀ i, i < 60 → scheduleWord u i = scheduleWord v i) : u = v := by
  apply Vector.ext
  intro i hi
  rw [← scheduleWord_get u hi, ← scheduleWord_get v hi, h i hi]

/-! ### The legal key lengths -/

/-- The legal key lengths are 16, 24 and 32 bytes (41_key_schedule.md R86). -/
theorem keyWords_cases {keylen : BitVec 8} {nk : Nat} (h : keyWords keylen = some nk) :
    (nk = 4 ∨ nk = 6 ∨ nk = 8) ∧ keylen.toNat = 4 * nk := by
  unfold keyWords at h
  split at h
  · next e => cases h; exact ⟨.inl rfl, e⟩
  · next e => cases h; exact ⟨.inr (.inl rfl), e⟩
  · next e => cases h; exact ⟨.inr (.inr rfl), e⟩
  · exact absurd h (by simp)

theorem keyWords_legal {keylen : BitVec 8} {nk : Nat} (h : nk = 4 ∨ nk = 6 ∨ nk = 8) (e : keylen.toNat = 4 * nk) :
    keyWords keylen = some nk := by
  unfold keyWords
  rcases h with rfl | rfl | rfl <;> simp [e]

theorem keyWords_illegal {keylen : BitVec 8} (h16 : keylen.toNat ≠ 16) (h24 : keylen.toNat ≠ 24)
    (h32 : keylen.toNat ≠ 32) : keyWords keylen = none := by
  unfold keyWords
  split
  · next e => exact absurd e h16
  · next e => exact absurd e h24
  · next e => exact absurd e h32
  · rfl

end Machine
end Sys2Proof
end

