-- ==== Sys2Proof/Laws/Step.lean ====
section
/-! SUPPORT. What a step can do, once: the ENGINE's step, the HOST's access, and what each write of a location changes. -/

namespace Sys2Proof
namespace Machine

/-! ### The ENGINE -/

theorem latchedWord_eq {s : State} {w : Word} (hb : s.busy = true) (hg : s.genPending = false)
    (hp : s.pending = some w) : latchedWord s = some w := by simp [latchedWord, hb, hg, hp]

theorem latchedWord_idle {s : State} (hb : s.busy = false) : latchedWord s = none := by simp [latchedWord, hb]

theorem pendingInstr_idle {s : State} (hb : s.busy = false) : pendingInstr s = none := by
  simp [pendingInstr, latchedWord_idle hb]

theorem pendingWrites_idle {s : State} (hb : s.busy = false) (p : Instr → Bool) : pendingWrites s p = false := by
  simp [pendingWrites, pendingInstr_idle hb]

theorem pendingWrites_eq {s : State} {w : Word} {i : Instr} (hb : s.busy = true) (hg : s.genPending = false)
    (hp : s.pending = some w) (hd : decode w = .ok i) (p : Instr → Bool) : pendingWrites s p = p i := by
  simp [pendingWrites, pendingInstr, latchedWord_eq hb hg hp, hd]

theorem engineEnabled_busy {s : State} (h : engineEnabled s = true) : s.busy = true := by
  simp only [engineEnabled, Bool.and_eq_true] at h
  exact h.1

theorem engineMoves_enabled {s : State} (h : engineMoves s = true) : engineEnabled s = true := by
  simp only [engineMoves, Bool.and_eq_true] at h
  exact h.1

/-- A completion step, legal word or not: the completion, with its code, of an effect of some command. -/
theorem completeWord_cases (w : Word) (s : State) :
    ∃ i c u, completeWord w s = .next (complete c u) ∧ CommandEffect s i u ∧ (c ≠ .none → u = s)
      ∧ (u ≠ s → decode w = .ok i) := by
  unfold completeWord
  split
  · next i hd =>
    obtain ⟨c, u, h, he, hc⟩ := exec_cases i s
    exact ⟨i, c, u, h, he, hc, fun _ => hd⟩
  · exact ⟨.nop, .illegalCmd, s, rfl, .nothing _, fun _ => rfl, fun h => absurd rfl h⟩

/-- What the ENGINE's step can be. -/
theorem engineStep_cases {s t : State} (h : engineStep s = .next t) :
    (s.genPending = true ∧ t = tableStep s)
    ∨ (s.genPending = false ∧ s.pending = none ∧ t = s)
    ∨ ∃ w i c u, s.genPending = false ∧ s.pending = some w ∧ completeWord w s = .next t ∧ t = complete c u
        ∧ CommandEffect s i u ∧ (c ≠ .none → u = s) ∧ (u ≠ s → decode w = .ok i) := by
  unfold engineStep at h
  split at h
  · next hg => exact .inl ⟨hg, (Host.Outcome.next.inj h).symm⟩
  · next hg =>
    have hg' : s.genPending = false := by simpa using hg
    split at h
    · next w hp =>
      obtain ⟨i, c, u, e, he, hc, hu⟩ := completeWord_cases w s
      rw [e] at h
      exact .inr (.inr ⟨w, i, c, u, hg', hp, e.trans h, (Host.Outcome.next.inj h).symm, he, hc, hu⟩)
    · next hp => exact .inr (.inl ⟨hg', hp, (Host.Outcome.next.inj h).symm⟩)

/-! ### Writes -/

/-- What a write of a location can do: nothing, set `OVR` because the ENGINE is busy, or store its register; a command
input only while the ENGINE is idle (20_memory.md R46, R47, R49). -/
inductive WriteEffect (s : State) (v : Word) : Loc → State → Prop where
  | ignored (l : Loc) : WriteEffect s v l s
  | dropped (l : Loc) (hb : s.busy = true) : WriteEffect s v l { s with irq := s.irq ||| ovrBit }
  | ctrl : WriteEffect s v .ctrl { s with ctrl := v.setWidth 3 }
  | irqStatus : WriteEffect s v .irqStatus { s with irq := writeOneToClear s.irq (v.setWidth 3) }
  | cmd (hb : s.busy = false) : WriteEffect s v .cmd { s with pending := some v, busy := true }
  | keylen (hb : s.busy = false) : WriteEffect s v .keylen { s with keylen := v.setWidth 8, ksValid := false }
  | len (hb : s.busy = false) : WriteEffect s v .len { s with len := v.setWidth 16 }
  | key (i : Fin 8) (hb : s.busy = false) : WriteEffect s v (.key i) { s with key := s.key.set i v, ksValid := false }
  | iv (j : Fin 4) (hb : s.busy = false) : WriteEffect s v (.iv j) { s with iv := quadSet s.iv j v }
  | dbuf (n : Nat) (hb : s.busy = false) : WriteEffect s v (.dbuf n) { s with mem := memWriteWord s.mem (dbufOffset n) v }

theorem writeLoc_cases (l : Loc) (v : Word) (s : State) : WriteEffect s v l (writeLoc l v s) := by
  cases hb : s.busy
  · cases l <;> simp only [writeLoc, unlessBusy_idle hb, dbufWrite]
    case ctrl => exact .ctrl
    case irqStatus => exact .irqStatus
    case cmd => exact .cmd hb
    case keylen => exact .keylen hb
    case len => exact .len hb
    case key i => exact .key i hb
    case iv j => exact .iv j hb
    case dbuf n => exact .dbuf n hb
    all_goals exact .ignored _
  · cases l <;> simp only [writeLoc, unlessBusy_busy hb]
    case ctrl => exact .ctrl
    case irqStatus => exact .irqStatus
    all_goals first | exact .dropped _ hb | exact .ignored _

/-! ### Reads -/

/-- A read changes nothing but the model's count of draws (20_memory.md R47). -/
theorem readLoc_state (l : Loc) (s : State) : ∃ d, (readLoc l s).2 = { s with draws := d } := by
  unfold readLoc
  split
  · exact ⟨s.draws, rfl⟩
  · exact ⟨s.draws + 1, rfl⟩

theorem readLoc_value {l : Loc} {s : State} {w : Word} (h : locValue s l = some w) : readLoc l s = (w, s) := by
  simp [readLoc, h]

theorem readLoc_draw {l : Loc} {s : State} (h : locValue s l = none) : readLoc l s = draw s := by simp [readLoc, h]

/-! ### Accesses -/

theorem busOffset_in {cfg : Config.Params} {off : Nat} (h : off < 0x5000) :
    busOffset cfg (cfg.aesBase + off) = some off := by
  unfold busOffset windowBytes
  rw [if_pos ⟨Nat.le_add_right _ _, by omega⟩, Nat.add_sub_cancel_left]

theorem busOffset_some {cfg : Config.Params} {addr off : Nat} (h : busOffset cfg addr = some off) :
    addr = cfg.aesBase + off ∧ off < 0x5000 := by
  unfold busOffset windowBytes at h
  split at h
  · next hin => cases h; omega
  · exact absurd h (by simp)

theorem busOffset_out {cfg : Config.Params} {addr : Nat} (h : addr < cfg.aesBase ∨ cfg.aesBase + 0x5000 ≤ addr) :
    busOffset cfg addr = none := by
  unfold busOffset windowBytes
  rw [if_neg (by omega)]

/-- What a host read that is no bus error does: nothing but an answer and perhaps a draw. -/
theorem busRead_next {s t : State} {addr size : Nat} (h : busRead addr size s = .next t) :
    ∃ d r, t = { s with draws := d, response := r } := by
  unfold busRead at h
  split at h
  · exact ⟨s.draws, .notSelected, (Host.Outcome.next.inj h).symm⟩
  · next off _ =>
    split at h
    · obtain ⟨d, e⟩ := readLoc_state (locate s.cfg off) s
      simp only [e] at h
      exact ⟨d, _, (Host.Outcome.next.inj h).symm⟩
    · exact absurd h (by simp)

/-- What a host write that is no bus error does: an answer, and the effect of writing the location at its offset. -/
theorem busWrite_next {s t : State} {addr size : Nat} {v : Word} (h : busWrite addr size v s = .next t) :
    (busOffset s.cfg addr = none ∧ t = { s with response := .notSelected })
    ∨ ∃ off u, busOffset s.cfg addr = some off ∧ size = 4 ∧ off % 4 = 0 ∧ WriteEffect s v (locate s.cfg off) u
        ∧ t = { u with response := .written } := by
  unfold busWrite at h
  split at h
  · next ho => exact .inl ⟨ho, (Host.Outcome.next.inj h).symm⟩
  · next off ho =>
    split at h
    · next hl =>
      simp only [accessLegal, Bool.and_eq_true, decide_eq_true_eq] at hl
      exact .inr ⟨off, _, ho, hl.1, hl.2, writeLoc_cases _ v s, (Host.Outcome.next.inj h).symm⟩
    · exact absurd h (by simp)

/-! ### Steps -/

theorem hostTick_eq (s : State) :
    hostTick s = { s with waited := if engineEnabled s then s.waited + 1 else s.waited } := by
  unfold hostTick
  split <;> simp [*]

/-- What the HOST's step can be: no access left; a read or a `wait`, which only answers; a write outside the window; a
write of a location; a reset. -/
inductive HostEffect (s : State) : State → Prop where
  | idle (h : s.inputs = []) : HostEffect s s
  | read (addr size : Nat) (rest : List BusInput) (h : s.inputs = .read addr size :: rest) (d : Nat) (r : BusResponse) :
      HostEffect s { hostTick s with inputs := rest, draws := d, response := r }
  | wait (rest : List BusInput) (h : s.inputs = .wait :: rest) (d : Nat) (r : BusResponse) :
      HostEffect s { hostTick s with inputs := if s.busy then .wait :: rest else rest, draws := d, response := r }
  | outside (addr size : Nat) (v : Word) (rest : List BusInput) (h : s.inputs = .write addr size v :: rest)
      (ho : busOffset s.cfg addr = none) : HostEffect s { hostTick s with inputs := rest, response := .notSelected }
  | write (addr : Nat) (v : Word) (rest : List BusInput) (h : s.inputs = .write addr 4 v :: rest) (off : Nat)
      (ho : busOffset s.cfg addr = some off) (ha : off % 4 = 0) (u : State)
      (he : WriteEffect { hostTick s with inputs := rest } v (locate s.cfg off) u) :
      HostEffect s { u with response := .written }
  | reset (rest : List BusInput) (h : s.inputs = .reset :: rest) : HostEffect s (resetDevice { s with inputs := rest })

theorem hostStep_cases {s t : State} (h : hostStep s = .next t) : HostEffect s t := by
  unfold hostStep at h
  split at h
  · next hi => obtain rfl := Host.Outcome.next.inj h; exact .idle hi
  · next addr size rest hi =>
    obtain ⟨d, r, rfl⟩ := busRead_next h
    exact .read addr size rest hi d r
  · next addr size v rest hi =>
    rcases busWrite_next h with ⟨ho, rfl⟩ | ⟨off, u, ho, rfl, ha, he, rfl⟩
    · exact .outside addr size v rest hi (by simpa using ho)
    · exact .write addr v rest hi off (by simpa using ho) ha u (by simpa using he)
  · next rest hi =>
    obtain ⟨d, r, rfl⟩ := busRead_next h
    exact .wait rest hi d r
  · next rest hi => obtain rfl := Host.Outcome.next.inj h; exact .reset rest hi

/-- What a step can be. -/
theorem step_cases {s t : State} (h : step s = .next t) :
    (engineMoves s = true ∧ engineStep s = .next t) ∨ (engineMoves s = false ∧ HostEffect s t) := by
  unfold step at h
  split at h
  · next hm => exact .inl ⟨hm, h⟩
  · next hm => exact .inr ⟨by simpa using hm, hostStep_cases h⟩

end Machine
end Sys2Proof
end

