-- ==== Sys2Proof/Tests/Slice0.lean ====
section
/-! SUPPORT. Tests: ill-formed commands, words written out from 30_encoding.md, the vectors of 95_test_vectors.md (their
values are the spec's), and for every statement with hypotheses a witness that meets them. -/

namespace Sys2Proof
namespace Machine

/-! ### Ill-formed commands -/

theorem test_blkEnc_256_is_ill_formed : ¬ (Instr.blkEnc 256).WellFormed := by decide
theorem test_blkDec_256_is_ill_formed : ¬ (Instr.blkDec 256).WellFormed := by decide
theorem test_blk_255_is_well_formed : (Instr.blkEnc 255).WellFormed ∧ (Instr.blkDec 255).WellFormed := by decide

/-! ### Words (30_encoding.md R61; 95_test_vectors.md V18, V22) -/

theorem test_decode_family_control : decode 0b0000000000000000_00000000_0000_0000 = .ok .nop := by decide
theorem test_decode_family_schedule : decode 0b0000000000000000_00000000_0000_0001 = .ok .expandKey := by decide
theorem test_decode_family_block :
    decode 0b0000000000000000_11111111_0000_0011 = .ok (.blkEnc 255)
      ∧ decode 0b0000000000000000_00000011_0000_0100 = .ok (.blkDec 3) := by decide
theorem test_decode_family_cbc :
    decode 0b0000000000000000_00000000_0000_0101 = .ok .cbcEnc
      ∧ decode 0b0000000000000000_00000000_0000_0110 = .ok .cbcDec
      ∧ decode 0b0000000000000000_00000000_0000_0010 = .ok .loadIv := by decide
theorem test_decode_refuses :
    decode 0x00000007 = .error .reservedOp ∧ decode 0x0000000F = .error .reservedOp
      ∧ decode 0x00000010 = .error .reservedBits ∧ decode 0x80000000 = .error .reservedBits
      ∧ decode 0x00010003 = .error .reservedBits ∧ decode 0x00000101 = .error .blkNotZero
      ∧ decode 0x00000105 = .error .blkNotZero := by decide
theorem test_decode_table_word :
    decodeTableWord 32 0x00000304 = some (.blkDec 3) ∧ decodeTableWord 32 0x00000204 = some (.blkDec 2)
      ∧ decodeTableWord 32 0x00000017 = none := by decide

/-! ### Bytes, GF(2^8) and tables (95_test_vectors.md V24) -/

theorem test_xtime : xtime 0x57 = 0xae ∧ xtime 0xae = 0x47 ∧ xtime 0x47 = 0x8e ∧ xtime 0x8e = 0x07 := by decide
theorem test_gmul : gmul 0x57 0x83 = 0xc1 ∧ gmul 0x57 0x13 = 0xfe ∧ gmul 0x03 0xF6 = 0x01 := by decide
theorem test_affine : affine 0x00 = 0x63 ∧ affine 0xca = 0xed := by decide
theorem test_rotations : rotl32 0x80000001 8 = 0x00000180 ∧ rotr32 0xc66363a5 8 = 0xa5c66363
    ∧ rotr32 0xc66363a5 24 = 0x6363a5c6 ∧ rotl8 0x81 1 = 0x03 := by decide
theorem test_byte_order : byteK 0 0x00112233 = 0x00 ∧ byteK 3 0x00112233 = 0x33
    ∧ pack 0x00 0x11 0x22 0x33 = 0x00112233 := by decide

/-- The generated tables written as lists, for evaluation. -/
def litTables : Tables where
  sbox := ⟨sboxList.toArray, by decide +kernel⟩
  invSbox := ⟨invSboxList.toArray, by decide +kernel⟩
  subMix0 := ⟨(sboxList.map mixEntry).toArray, by decide +kernel⟩
  subMix1 := ⟨(sboxList.map fun s => rotr32 (mixEntry s) 8).toArray, by decide +kernel⟩
  subMix2 := ⟨(sboxList.map fun s => rotr32 (mixEntry s) 16).toArray, by decide +kernel⟩
  subMix3 := ⟨(sboxList.map fun s => rotr32 (mixEntry s) 24).toArray, by decide +kernel⟩
  invSubMix0 := ⟨(invSboxList.map invMixEntry).toArray, by decide +kernel⟩
  invSubMix1 := ⟨(invSboxList.map fun s => rotr32 (invMixEntry s) 8).toArray, by decide +kernel⟩
  invSubMix2 := ⟨(invSboxList.map fun s => rotr32 (invMixEntry s) 16).toArray, by decide +kernel⟩
  invSubMix3 := ⟨(invSboxList.map fun s => rotr32 (invMixEntry s) 24).toArray, by decide +kernel⟩

theorem litTables_entry {α : Type} (l : List Byte) (f : Byte → α) (h : (l.map f).toArray.size = 256) (b : Byte) :
    lookup ⟨(l.map f).toArray, h⟩ b = f (l.getD b.toNat 0) := by
  have hl : b.toNat < l.length := by
    have := b.isLt
    simp at h
    omega
  simp [lookup, List.getD, hl]

theorem litTables_bytes (l : List Byte) (h : l.toArray.size = 256) (b : Byte) :
    lookup ⟨l.toArray, h⟩ b = l.getD b.toNat 0 := by
  have hl : b.toNat < l.length := by
    have := b.isLt
    simp at h
    omega
  simp [lookup, List.getD, hl]

theorem genTables_lit (t : Tables) : genTables t = litTables := by
  cases h : genTables t with
  | mk a0 a1 a2 a3 a4 a5 a6 a7 a8 a9 =>
  have e0 := genTables_sbox t
  have e1 := genTables_invSbox t
  have e2 := genTables_subMix0 t
  have e3 := genTables_subMix1 t
  have e4 := genTables_subMix2 t
  have e5 := genTables_subMix3 t
  have e6 := genTables_invSubMix0 t
  have e7 := genTables_invSubMix1 t
  have e8 := genTables_invSubMix2 t
  have e9 := genTables_invSubMix3 t
  rw [h] at e0 e1 e2 e3 e4 e5 e6 e7 e8 e9
  rw [litTables, Tables.mk.injEq]
  exact ⟨table_ext fun b => (e0 b).trans (litTables_bytes _ _ b).symm,
    table_ext fun b => (e1 b).trans (litTables_bytes _ _ b).symm,
    table_ext fun b => (e2 b).trans (litTables_entry _ _ _ b).symm,
    table_ext fun b => (e3 b).trans (litTables_entry _ (fun s => rotr32 (mixEntry s) 8) _ b).symm,
    table_ext fun b => (e4 b).trans (litTables_entry _ (fun s => rotr32 (mixEntry s) 16) _ b).symm,
    table_ext fun b => (e5 b).trans (litTables_entry _ (fun s => rotr32 (mixEntry s) 24) _ b).symm,
    table_ext fun b => (e6 b).trans (litTables_entry _ _ _ b).symm,
    table_ext fun b => (e7 b).trans (litTables_entry _ (fun s => rotr32 (invMixEntry s) 8) _ b).symm,
    table_ext fun b => (e8 b).trans (litTables_entry _ (fun s => rotr32 (invMixEntry s) 16) _ b).symm,
    table_ext fun b => (e9 b).trans (litTables_entry _ (fun s => rotr32 (invMixEntry s) 24) _ b).symm⟩

theorem test_generated_sbox : lookup litTables.sbox 0x00 = 0x63 ∧ lookup litTables.sbox 0x53 = 0xed
    ∧ lookup litTables.sbox 0xff = 0x16 ∧ lookup litTables.invSbox 0x63 = 0x00 ∧ lookup litTables.invSbox 0x00 = 0x52
    ∧ lookup litTables.invSbox 0xed = 0x53 := by decide +kernel
theorem test_generated_subMix : lookup litTables.subMix0 0x00 = 0xc66363a5 ∧ lookup litTables.subMix1 0x00 = 0xa5c66363
    ∧ lookup litTables.subMix2 0x00 = 0x63a5c663 ∧ lookup litTables.subMix3 0x00 = 0x6363a5c6
    ∧ lookup litTables.subMix0 0x53 = 0xc1eded2c := by decide +kernel
theorem test_generated_invSubMix : lookup litTables.invSubMix0 0x00 = 0x51f4a750
    ∧ lookup litTables.invSubMix1 0x00 = 0x5051f4a7 ∧ lookup litTables.invSubMix2 0x00 = 0xa75051f4
    ∧ lookup litTables.invSubMix3 0x00 = 0xf4a75051 ∧ lookup litTables.invSubMix0 0x53 = 0x4de6bd46 := by decide +kernel

/-! ### States -/

/-- The state after reset and table generation, the ENGINE idle. -/
def idle : State := { State.reset with busy := false, tablesReady := true, genPending := false, tables := litTables }

/-- `idle` with a key of `nk` words. -/
def keyed (nk : Nat) (key : Vector Word 8) : State := { idle with keylen := BitVec.ofNat 8 (4 * nk), key := key }

/-- `idle` with a valid schedule. -/
def ready (nk : Nat) (key : Vector Word 8) : State := loadSchedule nk (keyed nk key)

/-- `s` with the command word `w` latched. -/
def latched (w : Word) (s : State) : State := { s with busy := true, pending := some w }

/-- The next state of an outcome; the state given where there is none. -/
def nextOr (s : State) : Host.Outcome State Fault Refusal → State
  | .next t => t
  | .fault _ => s
  | .refused _ => s

/-- The state after the step that completes `w` in `s`. -/
def after (w : Word) (s : State) : State := nextOr idle (step (latched w s))

/-- The key `000102...` (95_test_vectors.md V9, V11, V12k). -/
def keyCount : Vector Word 8 :=
  #v[0x00010203, 0x04050607, 0x08090a0b, 0x0c0d0e0f, 0x10111213, 0x14151617, 0x18191a1b, 0x1c1d1e1f]

/-- The key of V12. -/
def keyV12 : Vector Word 8 := #v[0x2b7e1516, 0x28aed2a6, 0xabf71588, 0x09cf4f3c, 0, 0, 0, 0]

/-- The counting block, also the IV of V12. -/
def ivCount : Quad := ⟨0x00010203, 0x04050607, 0x08090a0b, 0x0c0d0e0f⟩

/-- The plaintext of V1. -/
def plainV1 : Quad := ⟨0x00112233, 0x44556677, 0x8899aabb, 0xccddeeff⟩

/-- The ciphertext of V1. -/
def cipherV1 : Quad := ⟨0x69c4e0d8, 0x6a7b0430, 0xd8cdb780, 0x70b4c55a⟩

/-- The first two plaintext blocks of V12. -/
def plainV12 : Quad × Quad :=
  (⟨0x6bc1bee2, 0x2e409f96, 0xe93d7e11, 0x7393172a⟩, ⟨0xae2d8a57, 0x1e03ac9c, 0x9eb76fac, 0x45af8e51⟩)

/-- The first two ciphertext blocks of V12. -/
def cipherV12 : Quad × Quad :=
  (⟨0x7649abac, 0x8119b246, 0xcee98e9b, 0x12e9197d⟩, ⟨0x5086cb9b, 0x507219ee, 0x95db113a, 0x917678b2⟩)

/-- Two CBC blocks in DBUF, under V12's key and IV. -/
def cbcState (q : Quad × Quad) : State :=
  writeBlock 1 q.2 (writeBlock 0 q.1 { ready 4 keyV12 with iv := ivCount, len := 32 })

/-! ### One step of each command (95_test_vectors.md) -/

/-- V22a: `nop` clears `ERR`, sets `DONE`, leaves the sticky `ERR` bit. -/
theorem test_nop : (after 0x00000000 { idle with err := .keyLength, irq := 0b010 }).err = .none
    ∧ (after 0x00000000 { idle with err := .keyLength, irq := 0b010 }).irq = 0b011
    ∧ (after 0x00000000 idle).busy = false := by decide +kernel

/-- V9: words of `KS` and `IKS` for the 128-bit counting key. -/
theorem test_expandKey_128 :
    let t := after 0x00000001 (keyed 4 keyCount)
    t.ks[4] = 0xd6aa74fd ∧ t.ks[43] = 0x4d2b30c5 ∧ t.iks[4] = 0x13aa29be ∧ t.iks[36] = 0x8c56dff0 ∧ t.ks[44] = 0
      ∧ t.iks[43] = 0x0c0d0e0f ∧ t.nr = 10 ∧ t.ksValid = true ∧ t.err = .none := by decide +kernel

/-- V12k and V9b: the 256-bit key, whose schedule has the SubWord branch at `i mod 8 = 4`; and `KEYLEN = 20`. -/
theorem test_expandKey_256_and_20 :
    let t := after 0x00000001 (keyed 8 keyCount)
    t.ks[12] = 0x1651a8cd ∧ t.ks[59] = 0x6d68de36 ∧ t.iks[0] = 0x24fc79cc ∧ t.iks[5] = 0xbfceaa2f ∧ t.nr = 14
      ∧ (after 0x00000001 { idle with keylen := 20 }).err = .keyLength
      ∧ (after 0x00000001 { idle with keylen := 20 }).irq = 0b011 := by decide +kernel

/-- 43_cbc.md R110. -/
theorem test_loadIv : (after 0x00000002 { idle with iv := ivCount }).cv = ivCount
    ∧ (after 0x00000002 { idle with iv := ivCount }).ksValid = false := by decide +kernel

/-- V1 and V18g: `BLK_ENC 255` with `CV = 0`. -/
theorem test_blkEnc_255 :
    let t := after 0x0000ff03 (writeBlock 255 plainV1 (ready 4 keyCount))
    memBlock t.mem 255 = some cipherV1 ∧ t.cv = cipherV1 ∧ t.irq = 0b001 := by decide +kernel

/-- V14, and V18e: `NO_SCHEDULE` outranks `BLK_RANGE`. -/
theorem test_blkEnc_192_and_errors :
    memBlock (after 0x00000003 (writeBlock 0 plainV1 (ready 6 keyCount))).mem 0
        = some ⟨0xdda97ca4, 0x864cdfe0, 0x6eaf70a0, 0xec0d7191⟩
      ∧ (after 0x00000403 { ready 4 keyCount with cfg := ⟨0, 3⟩ }).err = .blkRange
      ∧ (after 0x00000403 { idle with cfg := ⟨0, 3⟩ }).err = .noSchedule := by decide +kernel

/-- V18b: `BLK_DEC 0` of the ciphertext of V18a with the same chaining value. -/
theorem test_blkDec :
    let c : Quad := ⟨0x76d0627d, 0xa1d29043, 0x6e21a4af, 0x7fca94b7⟩
    let t := after 0x00000004 (writeBlock 0 c { ready 4 keyCount with cv := ivCount })
    memBlock t.mem 0 = some plainV1 ∧ t.cv = c := by decide +kernel

/-- V15 backwards: `BLK_DEC 0` under the 256-bit key. -/
theorem test_blkDec_256 :
    memBlock (after 0x00000004 (writeBlock 0 ⟨0x8ea2b7ca, 0x516745bf, 0xeafc4990, 0x4b496089⟩ (ready 8 keyCount))).mem 0
      = some plainV1 := by decide +kernel

/-- V12, its first two blocks. -/
theorem test_cbcEnc :
    let t := after 0x00000005 (cbcState plainV12)
    memBlock t.mem 0 = some cipherV12.1 ∧ memBlock t.mem 1 = some cipherV12.2 ∧ t.cv = cipherV12.2
      ∧ t.iv = ivCount := by decide +kernel

/-- V20b, V20c, V20f. -/
theorem test_cbcEnc_lengths :
    (after 0x00000005 { ready 4 keyCount with iv := ivCount }).cv = ivCount
      ∧ (after 0x00000005 { ready 4 keyCount with len := 17 }).err = .blockLength
      ∧ (after 0x00000005 { idle with len := 17 }).err = .noSchedule := by decide +kernel

/-- V13, its first two blocks: the chain takes the OLD ciphertext. -/
theorem test_cbcDec :
    let t := after 0x00000006 (cbcState cipherV12)
    memBlock t.mem 0 = some plainV12.1 ∧ memBlock t.mem 1 = some plainV12.2 ∧ t.cv = cipherV12.2 := by decide +kernel

/-- V20d: `LEN = 4112` with 256 blocks. -/
theorem test_cbcDec_length : (after 0x00000006 { ready 4 keyCount with len := 4112 }).err = .blockLength := by
  decide +kernel

/-! ### One access each (95_test_vectors.md V22) -/

/-- The state after the next host access, the ENGINE idle. -/
def accessed (i : BusInput) (s : State) : State := nextOr idle (step { s with inputs := [i] })

theorem test_read_id : (accessed (hostRead idle.cfg .id) idle).response = .data 0x41455301 := by decide +kernel
theorem test_read_sbox : (accessed (.read 0x214C 4) idle).response = .data 0x000000ed := by decide +kernel
theorem test_read_reserved : (accessed (.read 0x024 4) idle).response = .data 0
    ∧ (accessed (.read 0x1F0 4) idle).response = .data 0 := by decide +kernel
theorem test_write_ctrl : (accessed (.read 0x004 4) (accessed (.write 0x004 4 0xFFFFFFFF) idle)).response
    = .data 0x00000007 := by decide +kernel
theorem test_write_len : (accessed (.read 0x01C 4) (accessed (.write 0x01C 4 0x00120010) idle)).response
    = .data 0x00000010 := by decide +kernel
theorem test_clear_irq : (accessed (hostClearIrq idle.cfg 0x2) { idle with irq := 0b111, ctrl := 0b010 }).irq = 0b101
    ∧ irqLine { idle with irq := 0b111, ctrl := 0b010 } = true
    ∧ irqLine { idle with irq := 0b101, ctrl := 0b010 } = false := by decide +kernel
theorem test_key_write_invalidates : (accessed (.write 0x054 4 0x12345678) (ready 4 keyCount)).ksValid = false
    ∧ (accessed (.write 0x040 4 0x00010203) (ready 4 keyCount)).ksValid = false := by decide +kernel
theorem test_command_write : (accessed (hostCommand idle.cfg (.blkDec 2)) idle).pending = some 0x00000204
    ∧ (accessed (hostCommand idle.cfg (.blkDec 2)) idle).busy = true := by decide +kernel
theorem test_byte_read_is_a_bus_error : step { idle with inputs := [.read 0x000 1] } = .fault (.busError 0 1)
    ∧ step { idle with inputs := [.read 0x002 4] } = .fault (.busError 2 4) := by
  exact ⟨rfl, rfl⟩
theorem test_dropped_write :
    writeLoc (.key 0) 5 (latched 1 idle) = { latched 1 idle with irq := 0b100 } := rfl

/-! ### Witnesses: states and operands that meet the hypotheses of each statement -/

/-- A memory of this machine may be put into a state that meets `Inv`. -/
theorem inv_mem {s : State} {m : Memory} (h : Inv s) (hm : MemGood s.cfg m) : Inv { s with mem := m } :=
  ⟨hm.wf, hm.inWindow, hm.whole, h.busyIff, h.genAlone, h.readyIff, h.tablesGen, h.validReady, h.validKey⟩

theorem inv_good {s : State} (h : Inv s) : MemGood s.cfg s.mem := ⟨h.memWf, h.memIn, h.memWhole⟩

theorem inv_writeBlock {s : State} {b : Nat} (q : Quad) (h : Inv s) (hb : b < dbufBlocks s.cfg) :
    Inv (writeBlock b q s) := by
  rw [writeBlock_state]
  exact inv_mem h (writeBlock_good q hb (inv_good h))

theorem ready_inv {nk : Nat} (key : Vector Word 8) (h : nk = 4 ∨ nk = 6 ∨ nk = 8) : Inv (ready nk key) := by
  refine ⟨rfl, rfl, fun i k _ => rfl, ?_, ?_, rfl, fun _ => (genTables_lit _).symm, fun _ => rfl,
    fun _ => ?_⟩
  · exact ⟨(by intro h; cases h), (by rintro (h | h) <;> cases h)⟩
  · intro h
    cases h
  · refine ⟨nk, keyWords_legal h ?_, rfl, rfl, rfl⟩
    rcases h with rfl | rfl | rfl <;> rfl

/-- A state with a schedule and a written block 0, for the statements about the ciphers. -/
def block0 : State := writeBlock 0 plainV1 (ready 4 keyCount)

theorem block0_inv : Inv block0 := inv_writeBlock plainV1 (ready_inv keyCount (.inl rfl)) (by decide)

/-- A schedule, an IV and two written blocks. -/
theorem cbcState_inv (q : Quad × Quad) : Inv (cbcState q) := by
  have h : Inv { ready 4 keyV12 with iv := ivCount, len := 32 } := by
    have h := ready_inv keyV12 (.inl rfl)
    exact ⟨h.memWf, h.memIn, h.memWhole, h.busyIff, h.genAlone, h.readyIff, h.tablesGen, h.validReady, h.validKey⟩
  exact inv_writeBlock q.2 (inv_writeBlock q.1 h (by decide)) (show 1 < dbufBlocks ⟨0, 255⟩ by decide)

theorem test_witness_PlatformResetDiscardsEverything :
    ({ latched 5 idle with inputs := [.reset] } : State).inputs = .reset :: []
      ∧ ({ idle with inputs := [.reset, .wait] } : State).inputs = .reset :: [.wait]
      ∧ engineMoves { idle with inputs := [.reset, .wait] } = false := ⟨rfl, rfl, rfl⟩

theorem test_witness_EveryStepKeepsTheInvariant :
    Inv block0 ∧ step (latched 0x00000003 block0) = .next (after 0x00000003 block0)
      ∧ Inv (ready 8 keyCount) ∧ step (ready 8 keyCount) = .next (ready 8 keyCount) :=
  ⟨block0_inv, rfl, ready_inv keyCount (.inr (.inr rfl)), rfl⟩

theorem test_witness_DecodeUndoesEncode : (Instr.blkEnc 255).WellFormed ∧ (Instr.blkDec 0).WellFormed
    ∧ Instr.nop.WellFormed := by decide

/-- One word for each reason: `OP` 7, bit 4, bit 16, `BLK` 1 with `EXPAND_KEY`. -/
theorem test_witness_IllegalWordsReportIllegalCmd :
    7 ≤ ((0x00000007 : Word).extractLsb' 0 4).toNat ∧ (0x00000010 : Word).extractLsb' 4 4 ≠ 0
      ∧ (0x00010000 : Word).extractLsb' 16 16 ≠ 0
      ∧ ((0x00000101 : Word).extractLsb' 8 8 ≠ 0 ∧ ((0x00000101 : Word).extractLsb' 0 4).toNat ≠ 3
        ∧ ((0x00000101 : Word).extractLsb' 0 4).toNat ≠ 4) := by decide

theorem test_witness_StepRunsTheLatchedCommand :
    let s := latched 0x0000ff04 idle
    s.busy = true ∧ s.genPending = false ∧ s.pending = some 0x0000ff04 ∧ decode 0x0000ff04 = .ok (.blkDec 255)
      ∧ s.inputs = [] ∧ engineEnabled s = true ∧ engineMoves s = true := ⟨rfl, rfl, rfl, rfl, rfl, rfl, rfl⟩

theorem test_witness_StepRunsTheHostAccess :
    engineMoves idle = false ∧ idle.inputs = []
      ∧ engineMoves { idle with inputs := [.read 8 4] } = false
      ∧ engineMoves { idle with inputs := [.write 0x10 4 0] } = false
      ∧ engineMoves { idle with inputs := [.wait] } = false := ⟨rfl, rfl, rfl, rfl, rfl⟩

/-- A step of a state whose only accesses are `wait`s is no fault and leaves only `wait`s. -/
theorem step_waits {s : State} (h : ∀ i ∈ s.inputs, i = .wait) : ∃ t, step s = .next t ∧ ∀ i ∈ t.inputs, i = .wait := by
  unfold step
  split
  · unfold engineStep
    split
    · exact ⟨_, rfl, h⟩
    · split
      · next w _ =>
        obtain ⟨i, c, u, e, he, -⟩ := completeWord_cases w s
        refine ⟨_, e, ?_⟩
        rw [commandEffect_frame he]
        exact h
      · exact ⟨s, rfl, h⟩
  · unfold hostStep
    split
    · exact ⟨s, rfl, h⟩
    · next hi => exact absurd (h _ (by rw [hi]; exact List.mem_cons_self)) (by simp)
    · next hi => exact absurd (h _ (by rw [hi]; exact List.mem_cons_self)) (by simp)
    · next rest hi =>
      have hr : ∀ i ∈ rest, i = .wait := fun i hm => h i (by rw [hi]; exact List.mem_cons_of_mem _ hm)
      simp only [busRead, offsetOf]
      rw [hostTick_eq]
      simp only [busOffset_in (show 0x008 < 0x5000 by decide)]
      refine ⟨_, rfl, ?_⟩
      obtain ⟨d, e⟩ := readLoc_state (locate s.cfg 0x008)
        { s with waited := if engineEnabled s then s.waited + 1 else s.waited,
                 inputs := if s.busy then .wait :: rest else rest }
      rw [e]
      simp only
      intro i hm
      split at hm
      · rcases List.mem_cons.mp hm with rfl | hm
        · rfl
        · exact hr i hm
      · exact hr i hm
    · next hi => exact absurd (h _ (by rw [hi]; exact List.mem_cons_self)) (by simp)

theorem stepN_waits (k : Nat) {s : State} (h : ∀ i ∈ s.inputs, i = .wait) (f : Fault) : stepN k s ≠ .fault f := by
  induction k generalizing s with
  | zero => simp [stepN]
  | succ k ih =>
    obtain ⟨t, e, ht⟩ := step_waits h
    simp only [stepN, e]
    exact ih ht

theorem test_witness_EngineMovesWithinItsDelay :
    let s := { latched 1 idle with inputs := [.wait, .wait] }
    engineEnabled s = true ∧ BusInput.reset ∉ s.inputs
      ∧ ∀ (k : Nat) (f : Fault), k ≤ Config.engineDelay s.engineTurns - s.waited → stepN k s ≠ .fault f :=
  ⟨rfl, by decide, fun k f _ => stepN_waits k (by decide) f⟩

/-- The first and last offset of every reserved range, DBUF's end with 1 block and with 256, and the table windows' ends. -/
theorem test_witness_AddressMapIsTheTable :
    locate ⟨0, 0⟩ 0x024 = .reserved ∧ locate ⟨0, 0⟩ 0x03C = .reserved ∧ locate ⟨0, 0⟩ 0x080 = .reserved
      ∧ locate ⟨0, 0⟩ 0x0FC = .reserved ∧ locate ⟨0, 0⟩ 0x1F0 = .reserved ∧ locate ⟨0, 0⟩ 0x1FC = .reserved
      ∧ locate ⟨0, 0⟩ 0x2F0 = .reserved ∧ locate ⟨0, 0⟩ 0xFFC = .reserved ∧ locate ⟨0, 0⟩ 0x100C = .dbuf 3
      ∧ locate ⟨0, 0⟩ 0x1010 = .reserved ∧ locate ⟨0, 0⟩ 0x1FFC = .reserved ∧ locate ⟨0, 255⟩ 0x1FFC = .dbuf 1023
      ∧ locate ⟨0, 0⟩ 0x2000 = .sbox 0 ∧ locate ⟨0, 0⟩ 0x23FC = .sbox 255 ∧ locate ⟨0, 0⟩ 0x27FC = .invSbox 255
      ∧ locate ⟨0, 0⟩ 0x2828 = .rcon 10 ∧ locate ⟨0, 0⟩ 0x282C = .reserved ∧ locate ⟨0, 0⟩ 0x2FFC = .reserved
      ∧ locate ⟨0, 0⟩ 0x3400 = .subMix 1 0 ∧ locate ⟨0, 0⟩ 0x3FFC = .subMix 3 255
      ∧ locate ⟨0, 0⟩ 0x4FFC = .invSubMix 3 255 ∧ locate ⟨0, 0⟩ 0x0FC ≠ .dbuf 0 := by decide

/-- Below and above the window of a machine at 0x60000000. -/
theorem test_witness_AddressMap_outside :
    let s := { idle with cfg := ⟨0x60000000, 255⟩ }
    0x5FFFFFFF < s.cfg.aesBase ∧ s.cfg.aesBase + 0x5000 ≤ 0x60005000 := by decide

theorem test_witness_OnlyAlignedWordAccesses :
    (0x4FFC < 0x5000 ∧ 4 = 4 ∧ 0x4FFC % 4 = 0) ∧ (0x4FFF < 0x5000 ∧ 0x4FFF % 4 ≠ 0) ∧ (0 < 0x5000 ∧ 1 ≠ 4) := by decide

theorem test_witness_ReadsHaveNoSideEffect : busRead 0x1000 4 idle
    = .next { idle with draws := 1, response := .data (Config.draw 0) } := rfl

theorem test_witness_IdleReadsReturnTheRegisters :
    (ready 4 keyCount).busy = false ∧ (ready 4 keyCount).ksValid = true ∧ (ready 4 keyCount).tablesReady = true :=
  ⟨rfl, rfl, rfl⟩

/-- An idle device with a valid schedule, which a write of `KEY` or `KEYLEN` clears; the clause for `CTRL` needs nothing. -/
theorem test_witness_WrittenRegistersReadBack : idle.busy = false ∧ (ready 4 keyCount).busy = false
    ∧ (ready 4 keyCount).ksValid = true := ⟨rfl, rfl, rfl⟩

theorem test_witness_DbufBytesAreBigEndian : 4095 / 4 = 1023 ∧ 0 / 4 = 0 ∧ 4 / 4 ≠ 0 := by decide

theorem test_witness_KeyWriteInvalidatesTheSchedule :
    (ready 4 keyCount).busy = false ∧ (ready 4 keyCount).ksValid = true ∧ (latched 1 (ready 4 keyCount)).busy = true
      ∧ (Loc.keylen = .keylen ∨ ∃ i, Loc.keylen = .key i) ∧ (Loc.key 7 = .keylen ∨ ∃ i, Loc.key 7 = .key i) :=
  ⟨rfl, rfl, rfl, .inl rfl, .inr ⟨7, rfl⟩⟩

theorem test_witness_WritesWhileBusyAreDropped :
    let s := { latched 5 (ready 4 keyCount) with inputs := [.write 0x1000 4 7] }
    s.busy = true ∧ s.inputs.head? ≠ some .reset ∧ ∃ t, hostStep s = .next t := ⟨rfl, by decide, _, rfl⟩

/-- `CBC_ENC` over 2 blocks: words 0 and 7 are targets, 8 is not; the other kinds of command; an illegal word; table
generation. -/
theorem test_witness_BusyReadsOfTargetsAreDraws :
    let s := latched 5 (cbcState plainV12)
    (s.busy = true ∧ s.genPending = false ∧ s.pending = some 5 ∧ decode 5 = .ok .cbcEnc
      ∧ 7 < 4 * (s.len.toNat / 16) ∧ ¬ 8 < 4 * (s.len.toNat / 16))
      ∧ ((latched 1 idle).pending = some 1 ∧ decode 1 = .ok .expandKey)
      ∧ ((latched 2 idle).pending = some 2 ∧ decode 2 = .ok .loadIv)
      ∧ ((latched 0xff03 idle).pending = some 0xff03 ∧ decode 0xff03 = .ok (.blkEnc 255))
      ∧ ((latched 7 idle).busy = true ∧ (latched 7 idle).genPending = false ∧ (latched 7 idle).pending = some 7
        ∧ decode 7 = .error .reservedOp)
      ∧ (State.reset.busy = true ∧ State.reset.genPending = true) := by
  refine ⟨⟨rfl, rfl, rfl, rfl, by decide, by decide⟩, ⟨rfl, rfl⟩, ⟨rfl, rfl⟩, ⟨rfl, rfl⟩, ⟨rfl, rfl, rfl, rfl⟩, rfl, rfl⟩

/-- Locations that are no target and not `STATUS`: `KEY[0]`, a `DBUF` word outside the blocks (unwritten and written), a schedule word and a table entry under
`CBC_ENC`, with the value each reads as; `KEY[0]` during table generation. -/
theorem test_witness_BusyReads_of_others :
    let s := latched 5 (cbcState plainV12)
    locValue s (.key 0) = some 0x2b7e1516 ∧ locValue s (.dbuf 8) = none ∧ locValue s (.ks 0) = some 0x2b7e1516
      ∧ locValue s (.sbox 0x53) = some 0x000000ed ∧ locValue s .len = some 32
      ∧ locValue { s with len := 16 } (.dbuf 4) = some 0xae2d8a57
      ∧ locValue State.reset (.key 0) = some 0 ∧ locValue State.reset (.rcon 10) = some 0x36 := by decide +kernel

theorem test_witness_UnspecifiedReadsAreFresh :
    idle.ksValid = false ∧ State.reset.tablesReady = false ∧ memReadWord idle.mem (0x1000 + 4 * 1023) = none :=
  ⟨rfl, rfl, rfl⟩

theorem test_witness_CmdWriteLatchesTheWord : idle.busy = false ∧ (latched 0 idle).busy = true := ⟨rfl, rfl⟩

theorem test_witness_EveryWordCompletes :
    (latched 0x0000000F idle).genPending = false ∧ (latched 0x0000000F idle).pending = some 0x0000000F
      ∧ decode 0x0000000F = .error .reservedOp ∧ decode 0x00000006 = .ok .cbcDec := ⟨rfl, rfl, rfl, rfl⟩

theorem test_witness_ErrorsChangeNothingElse :
    exec .expandKey idle = .next (complete .keyLength idle) ∧ (complete .keyLength idle).err ≠ .none
      ∧ completeWord 0x00000007 idle = .next (complete .illegalCmd idle) ∧ (complete .illegalCmd idle).err ≠ .none :=
  ⟨rfl, by decide, rfl, by decide⟩

/-- Every line of the priority table: the illegal word, `NO_SCHEDULE`, `BLK_RANGE`, `BLOCK_LENGTH`, `KEY_LENGTH`, success. -/
theorem test_witness_ErrorPriorityIsFixed :
    completeWord 0x00000101 idle = .next (complete .illegalCmd idle)
      ∧ completeWord 0x00000403 { idle with cfg := ⟨0, 3⟩ } = .next (complete .noSchedule { idle with cfg := ⟨0, 3⟩ })
      ∧ completeWord 0x00000403 { ready 4 keyCount with cfg := ⟨0, 3⟩ }
          = .next (complete .blkRange { ready 4 keyCount with cfg := ⟨0, 3⟩ })
      ∧ completeWord 0x00000005 { ready 4 keyCount with len := 17 }
          = .next (complete .blockLength { ready 4 keyCount with len := 17 })
      ∧ completeWord 0x00000001 idle = .next (complete .keyLength idle)
      ∧ completeWord 0x00000000 idle = .next (complete .none idle) := ⟨rfl, rfl, rfl, rfl, rfl, rfl⟩

/-- A write of `IRQ_STATUS` that clears `DONE`; a completion that changes `ERR`. -/
theorem test_witness_PendingSourcesAreSticky :
    (∃ t, step { idle with irq := 0b111, inputs := [.write 0x00C 4 1] } = .next t ∧ t.irq.getLsbD 0 = false)
      ∧ ∃ t, step (latched 0x00000007 idle) = .next t ∧ t.err ≠ (latched 0x00000007 idle).err :=
  ⟨⟨_, rfl, by decide⟩, _, rfl, by decide⟩

theorem test_witness_OnlyCmdWakesTheEngine :
    idle.busy = false ∧ ∃ t, step { idle with inputs := [.write 0x010 4 3] } = .next t ∧ t.busy = true :=
  ⟨rfl, _, rfl, rfl⟩

theorem test_witness_ExpandKeyBuildsBothSchedules :
    ((4 = 4 ∨ 4 = 6 ∨ 4 = 8) ∧ (keyed 4 keyCount).keylen.toNat = 4 * 4)
      ∧ (keyed 6 keyCount).keylen.toNat = 4 * 6 ∧ (keyed 8 keyCount).keylen.toNat = 4 * 8
      ∧ idle.keylen.toNat ≠ 16 ∧ idle.keylen.toNat ≠ 24 ∧ idle.keylen.toNat ≠ 32 := by decide

theorem test_witness_SchedulesHaveTheirProperties :
    (Inv (ready 4 keyCount) ∧ (ready 4 keyCount).ksValid = true ∧ (ready 4 keyCount).keylen.toNat = 4 * 4)
      ∧ (Inv (ready 6 keyCount) ∧ (ready 6 keyCount).ksValid = true ∧ (ready 6 keyCount).keylen.toNat = 4 * 6)
      ∧ (Inv (ready 8 keyCount) ∧ (ready 8 keyCount).ksValid = true ∧ (ready 8 keyCount).keylen.toNat = 4 * 8) :=
  ⟨⟨ready_inv _ (.inl rfl), rfl, rfl⟩, ⟨ready_inv _ (.inr (.inl rfl)), rfl, rfl⟩,
    ⟨ready_inv _ (.inr (.inr rfl)), rfl, rfl⟩⟩

/-- A key write, and a command other than `EXPAND_KEY`, under a valid schedule. -/
theorem test_witness_ValidScheduleStaysUntilKeyWrite :
    (ready 4 keyCount).ksValid = true ∧ (∃ t, step { ready 4 keyCount with inputs := [.write 0x05C 4 3] } = .next t)
      ∧ Instr.loadIv ≠ .expandKey ∧ ∃ t, exec .loadIv (ready 4 keyCount) = .next t := ⟨rfl, ⟨_, rfl⟩, by decide, _, rfl⟩

/-- Block 255 of 256 exists, block 4 of 4 does not. -/
theorem test_witness_BlkEncEncryptsInPlace :
    (ready 4 keyCount).ksValid = true ∧ 255 < dbufBlocks (ready 4 keyCount).cfg ∧ idle.ksValid = false
      ∧ dbufBlocks ⟨0, 3⟩ ≤ 4 ∧ ({ ready 4 keyCount with cfg := ⟨0, 3⟩ } : State).ksValid = true :=
  ⟨rfl, by decide, rfl, by decide, rfl⟩

theorem test_witness_BlkDecDecryptsInPlace :
    (ready 4 keyCount).ksValid = true ∧ 0 < dbufBlocks (ready 4 keyCount).cfg ∧ idle.ksValid = false
      ∧ dbufBlocks ⟨0, 0⟩ ≤ 1 ∧ ({ ready 4 keyCount with cfg := ⟨0, 0⟩ } : State).ksValid = true :=
  ⟨rfl, by decide, rfl, by decide, rfl⟩

/-- `LEN` 17 and 4112 are not legal with 256 blocks, 0 and 4096 are. -/
theorem test_witness_CbcChecksTheLength :
    (ready 4 keyCount).ksValid = true ∧ 17 % 16 ≠ 0 ∧ 16 * dbufBlocks idle.cfg < (4112 : BitVec 16).toNat
      ∧ ((4096 : BitVec 16).toNat % 16 = 0 ∧ (4096 : BitVec 16).toNat ≤ 16 * dbufBlocks idle.cfg)
      ∧ (0 : BitVec 16).toNat ≤ 16 * dbufBlocks idle.cfg := ⟨rfl, by decide, by decide, by decide, by decide⟩

/-- The hypotheses of `CbcEncChainsCiphertext`, `CbcEncIsBlockByBlock`, `CbcDecChainsSavedCiphertext` and
`CbcDecIsBlockByBlock`, with two blocks and with none. -/
theorem test_witness_Cbc :
    ((cbcState plainV12).ksValid = true ∧ (cbcState plainV12).len.toNat % 16 = 0
      ∧ (cbcState plainV12).len.toNat ≤ 16 * dbufBlocks (cbcState plainV12).cfg)
      ∧ (ready 4 keyCount).ksValid = true ∧ (ready 4 keyCount).len.toNat % 16 = 0
      ∧ (ready 4 keyCount).len.toNat ≤ 16 * dbufBlocks (ready 4 keyCount).cfg :=
  ⟨⟨rfl, by decide, by decide⟩, rfl, by decide, by decide⟩

/-- `OP = 0` with `BLK = 1`; without a schedule; an illegal length; the highest block index. -/
theorem test_witness_EncodingAndErrorClauses :
    ((0x00000100 : Word).extractLsb' 0 4 = 0 ∧ (0x00000100 : Word) ≠ 0) ∧ idle.ksValid = false ∧ 255 < 256
      ∧ (({ ready 4 keyCount with len := 17 } : State).ksValid = true
        ∧ ({ ready 4 keyCount with len := 17 } : State).len.toNat % 16 ≠ 0) := ⟨by decide, rfl, by decide, rfl, by decide⟩

/-- The hypotheses of `CommandsKeepOtherRegisters` and `CommandsKeepOtherDbufBytes`: every command answers. -/
theorem test_witness_Frames :
    ∀ i ∈ [Instr.nop, .expandKey, .loadIv, .blkEnc 255, .blkDec 255, .cbcEnc, .cbcDec],
      ∃ t, exec i (cbcState plainV12) = .next t := by
  intro i _
  obtain ⟨c, u, e, -⟩ := exec_cases i (cbcState plainV12)
  exact ⟨_, e⟩

/-- The hypotheses of `DecryptBlockUndoesEncryptBlock` and `DecryptBlockIsTheTextbookInverse`. -/
theorem test_witness_Cipher : Inv (ready 6 keyCount) ∧ (ready 6 keyCount).ksValid = true :=
  ⟨ready_inv _ (.inr (.inl rfl)), rfl⟩

theorem test_witness_BlkDecUndoesBlkEnc :
    Inv block0 ∧ block0.ksValid = true ∧ 0 < dbufBlocks block0.cfg ∧ memBlock block0.mem 0 = some plainV1
      ∧ ∃ t, exec (.blkEnc 0) block0 = .next t :=
  ⟨block0_inv, rfl, by decide, memBlock_writeBlock_self 0 plainV1 (ready 4 keyCount), _, rfl⟩

theorem cbcState_written (b : Nat) (hb : b < (cbcState plainV12).len.toNat / 16) :
    (memBlock (cbcState plainV12).mem b).isSome = true := by
  have : b < 2 := hb
  interval_cases b <;> decide +kernel

/-- The hypotheses of `CbcDecUndoesCbcEnc` and, with a zero IV for the second run, of `DifferentIvsDifferEverywhere`. -/
theorem test_witness_CbcRoundTrip :
    Inv (cbcState plainV12) ∧ (cbcState plainV12).ksValid = true
      ∧ (∀ b, b < (cbcState plainV12).len.toNat / 16 → (memBlock (cbcState plainV12).mem b).isSome = true)
      ∧ (∃ t, exec .cbcEnc (cbcState plainV12) = .next t)
      ∧ (⟨0, 0, 0, 0⟩ : Quad) ≠ (cbcState plainV12).iv
      ∧ ∃ u, exec .cbcEnc { cbcState plainV12 with iv := ⟨0, 0, 0, 0⟩ } = .next u := by
  obtain ⟨c, u, e, -⟩ := exec_cases .cbcEnc (cbcState plainV12)
  obtain ⟨c', u', e', -⟩ := exec_cases .cbcEnc { cbcState plainV12 with iv := ⟨0, 0, 0, 0⟩ }
  exact ⟨cbcState_inv _, rfl, cbcState_written, ⟨_, e⟩, by decide, _, e'⟩

theorem test_witness_ZeroIvIsTheRawTransform :
    let s := writeBlock 0 plainV1 { ready 4 keyCount with len := 16 }
    s.ksValid = true ∧ s.len = 16 ∧ s.iv = ⟨0, 0, 0, 0⟩ ∧ memBlock s.mem 0 = some plainV1 :=
  ⟨rfl, rfl, rfl, memBlock_writeBlock_self 0 plainV1 { ready 4 keyCount with len := 16 }⟩

theorem test_witness_GmulIsAFieldMultiplication : (0x53 : Byte) ≠ 0 ∧ gmul 0x53 0xca = 1 := by decide

theorem test_witness_GeneratedTablesMeetTheirRules : gmul 0x53 0xca = 1 ∧ affine 0xca = 0xed := by decide

theorem test_witness_RoundConstantsAreThePowers : 1 ≤ 10 ∧ (8 = 4 ∨ 8 = 6 ∨ 8 = 8) ∧ 8 ≤ 59 ∧ 59 < (8 + 7) * 4
    ∧ 43 < (4 + 7) * 4 ∧ 43 / 4 = 10 ∧ 51 < (6 + 7) * 4 := by decide

theorem test_witness_TableStepGeneratesTheTables :
    State.reset.busy = true ∧ State.reset.genPending = true ∧ engineMoves State.reset = true := ⟨rfl, rfl, rfl⟩

/-- The hypotheses of `ReadyTablesNeverChange`, with a host write as the step. -/
theorem test_witness_ReadyTablesNeverChange :
    let s := { ready 4 keyCount with inputs := [.write 0x2000 4 7] }
    Inv s ∧ s.tablesReady = true ∧ s.inputs.head? ≠ some .reset ∧ ∃ t, step s = .next t := by
  have h := ready_inv keyCount (.inl rfl)
  exact ⟨⟨h.memWf, h.memIn, h.memWhole, h.busyIff, h.genAlone, h.readyIff, h.tablesGen, h.validReady, h.validKey⟩, rfl,
    by decide, _, rfl⟩

/-- A step with an invalid schedule, for `InvalidScheduleIsNeverSeen`: the two states differ and both step. -/
theorem test_witness_InvalidScheduleIsNeverSeen :
    let s := { ready 4 keyCount with ksValid := false }
    forgetSchedule s = clearSchedule s ∧ s.nr ≠ (clearSchedule s).nr := ⟨rfl, by decide⟩

/-- `withFetchWord` on the reset state: the next step runs the command, here `BLK_DEC 3` without a schedule. -/
theorem test_withFetchWord : (nextOr idle (step (State.reset.withFetchWord 32 0x00000304))).err = .noSchedule
    ∧ (nextOr idle (step (State.reset.withFetchWord 32 0x00000000))).err = .none := ⟨rfl, rfl⟩

end Machine
end Sys2Proof
end

section
/-! PROOFS, 10_state.md. Writes of `KEY[i]` and `KEYLEN`, and a state without a valid schedule: what its reads and its
cipher commands answer. -/

namespace Sys2Proof
namespace Machine

/-! ### Writes of the key -/

/-- A location whose accepted write invalidates the schedule (10_state.md R41). -/
def isKeyLoc (l : Loc) : Prop := l = .keylen ∨ ∃ i, l = .key i

/-- An accepted key write stores a key register and clears `KS_VALID`; it touches nothing else (10_state.md R41). -/
theorem writeLoc_keyLoc_idle {s : State} {l : Loc} (hl : isKeyLoc l) (hb : s.busy = false) (v : Word) :
    ∃ key keylen, writeLoc l v s = { s with key := key, keylen := keylen, ksValid := false } := by
  obtain rfl | ⟨i, rfl⟩ := hl
  · exact ⟨s.key, v.setWidth 8, unlessBusy_idle hb⟩
  · exact ⟨s.key.set i v, s.keylen, unlessBusy_idle hb⟩

/-- A dropped key write only sets `OVR` (20_memory.md R49). -/
theorem writeLoc_keyLoc_busy {s : State} {l : Loc} (hl : isKeyLoc l) (hb : s.busy = true) (v : Word) :
    writeLoc l v s = { s with irq := s.irq ||| ovrBit } := by
  obtain rfl | ⟨i, rfl⟩ := hl
  · exact unlessBusy_busy hb
  · exact unlessBusy_busy hb

/-! ### Without a valid schedule -/

theorem scheduleHidden_of_invalid {s : State} (hv : s.ksValid = false) : scheduleHidden s = true := by
  simp [scheduleHidden, hv]

theorem locValue_ks_of_invalid {s : State} (hv : s.ksValid = false) (i : Fin 60) : locValue s (.ks i) = none := by
  simp [locValue, unlessHidden, scheduleHidden_of_invalid hv]

theorem locValue_iks_of_invalid {s : State} (hv : s.ksValid = false) (i : Fin 60) : locValue s (.iks i) = none := by
  simp [locValue, unlessHidden, scheduleHidden_of_invalid hv]

theorem locValue_nrounds_of_invalid {s : State} (hb : s.busy = false) (hv : s.ksValid = false) :
    locValue s .nrounds = some 0 := by
  simp [locValue, unlessHidden, pendingWrites_idle hb, nroundsWord, hv]

theorem exec_blkEnc_of_invalid {s : State} (hv : s.ksValid = false) (b : Nat) :
    exec (.blkEnc b) s = .next (complete .noSchedule s) := by simp [exec, execBlkEnc, hv]

theorem exec_blkDec_of_invalid {s : State} (hv : s.ksValid = false) (b : Nat) :
    exec (.blkDec b) s = .next (complete .noSchedule s) := by simp [exec, execBlkDec, hv]

theorem exec_cbcEnc_of_invalid {s : State} (hv : s.ksValid = false) :
    exec .cbcEnc s = .next (complete .noSchedule s) := by simp [exec, execCbcEnc, hv]

theorem exec_cbcDec_of_invalid {s : State} (hv : s.ksValid = false) :
    exec .cbcDec s = .next (complete .noSchedule s) := by simp [exec, execCbcDec, hv]

/-- Settles O20: a key write is either accepted, and leaves a state without a valid schedule, or dropped whole. -/
theorem keyWriteInvalidatesTheSchedule : Obligations.KeyWriteInvalidatesTheSchedule := by
  intro s v l (hl : isKeyLoc l)
  cases hb : s.busy with
  | false =>
    obtain ⟨key, keylen, e⟩ := writeLoc_keyLoc_idle hl hb v
    rw [e]
    refine ⟨rfl, rfl, rfl, nofun, fun _ => ⟨rfl, fun i => ⟨?_, ?_⟩, ?_, fun b => ⟨?_, ?_, ?_, ?_⟩⟩⟩
    · exact locValue_ks_of_invalid rfl i
    · exact locValue_iks_of_invalid rfl i
    · exact locValue_nrounds_of_invalid hb rfl
    · exact exec_blkEnc_of_invalid rfl b
    · exact exec_blkDec_of_invalid rfl b
    · exact exec_cbcEnc_of_invalid rfl
    · exact exec_cbcDec_of_invalid rfl
  | true =>
    rw [writeLoc_keyLoc_busy hl hb v]
    exact ⟨rfl, rfl, rfl, fun _ => ⟨rfl, rfl, rfl⟩, nofun⟩

end Machine
end Sys2Proof
end

section
/-! PROOFS, 20_memory.md. Which accesses the bus takes, and what a write of a read-only location, a write while the ENGINE
is busy and a HOST step under a running command leave unchanged. -/

namespace Sys2Proof
namespace Machine

/-! ### Legal and illegal accesses -/

theorem accessLegal_iff {off size : Nat} : accessLegal off size = true ↔ size = 4 ∧ off % 4 = 0 := by
  simp [accessLegal]

/-- A legal read answers with its location's word (20_memory.md R44). -/
theorem busRead_legal (s : State) {off size : Nat} (ho : off < 0x5000) (hl : accessLegal off size = true) :
    busRead (s.cfg.aesBase + off) size s
      = .next { (readLoc (locate s.cfg off) s).2 with response := .data (readLoc (locate s.cfg off) s).1 } := by
  simp only [busRead, busOffset_in ho, if_pos hl]

/-- A legal write writes its location (20_memory.md R44). -/
theorem busWrite_legal (s : State) {off size : Nat} (v : Word) (ho : off < 0x5000) (hl : accessLegal off size = true) :
    busWrite (s.cfg.aesBase + off) size v s = .next { writeLoc (locate s.cfg off) v s with response := .written } := by
  simp only [busWrite, busOffset_in ho, if_pos hl]

/-- Any other read in the window is a bus error (20_memory.md R45). -/
theorem busRead_illegal (s : State) {off size : Nat} (ho : off < 0x5000) (hl : ¬ accessLegal off size = true) :
    busRead (s.cfg.aesBase + off) size s = .fault (.busError off size) := by
  simp only [busRead, busOffset_in ho, if_neg hl]

/-- Any other write in the window is a bus error (20_memory.md R45). -/
theorem busWrite_illegal (s : State) {off size : Nat} (v : Word) (ho : off < 0x5000)
    (hl : ¬ accessLegal off size = true) :
    busWrite (s.cfg.aesBase + off) size v s = .fault (.busError off size) := by
  simp only [busWrite, busOffset_in ho, if_neg hl]

/-- Settles O14: the two cases are the two values of `accessLegal`. -/
theorem onlyAlignedWordAccesses : Obligations.OnlyAlignedWordAccesses := by
  intro s off size v ho
  constructor
  · intro h
    have hl := accessLegal_iff.mpr h
    exact ⟨busRead_legal s ho hl, busWrite_legal s v ho hl⟩
  · intro h
    have hl : ¬ accessLegal off size = true := by rw [accessLegal_iff]; omega
    exact ⟨busRead_illegal s ho hl, busWrite_illegal s v ho hl⟩

/-! ### Read-only and reserved locations -/

/-- A location that no HOST write changes (20_memory.md R43, R46). -/
def isReadOnlyLoc (l : Loc) : Prop :=
  l = .id ∨ l = .status ∨ l = .err ∨ l = .nrounds ∨ l = .reserved ∨ (∃ j, l = .cv j) ∨ (∃ i, l = .ks i)
    ∨ (∃ i, l = .iks i) ∨ (∃ b, l = .sbox b) ∨ (∃ b, l = .invSbox b) ∨ (∃ i, l = .rcon i)
    ∨ (∃ k b, l = .subMix k b) ∨ ∃ k b, l = .invSubMix k b

/-- Such a write is ignored, busy or not (20_memory.md R46). -/
theorem writeLoc_readOnly {l : Loc} (hl : isReadOnlyLoc l) (v : Word) (s : State) : writeLoc l v s = s := by
  obtain rfl | rfl | rfl | rfl | rfl | ⟨j, rfl⟩ | ⟨i, rfl⟩ | ⟨i, rfl⟩ | ⟨b, rfl⟩ | ⟨b, rfl⟩ | ⟨i, rfl⟩ | ⟨k, b, rfl⟩
    | ⟨k, b, rfl⟩ := hl <;> rfl

/-- A register of `n` bits, read as a word, has 0 in its reserved bits. -/
theorem toNat_setWidth_lt {n : Nat} (x : BitVec n) (m : Nat) : (x.setWidth m).toNat < 2 ^ n := by
  rw [BitVec.toNat_setWidth]
  exact (Nat.mod_le _ _).trans_lt x.isLt

/-- Settles O22: ignored writes are the identity, and each register is no wider than its bits that are not reserved. -/
theorem reservedAndReadOnlyIgnoreWrites : Obligations.ReservedAndReadOnlyIgnoreWrites := by
  intro s v
  refine ⟨rfl, fun l hl => writeLoc_readOnly hl v s, ⟨_, rfl, ?_⟩, ⟨_, rfl, ?_⟩, ⟨_, rfl, ?_⟩, ⟨_, rfl, ?_⟩⟩
  · exact toNat_setWidth_lt (writeLoc .ctrl v s).ctrl 32
  · exact toNat_setWidth_lt (writeLoc .irqStatus v s).irq 32
  · exact toNat_setWidth_lt (writeLoc .keylen v s).keylen 32
  · exact toNat_setWidth_lt (writeLoc .len v s).len 32

/-! ### While the ENGINE is busy -/

/-- A write while `BUSY = 1` changes `CTRL` and `IRQ_STATUS` only (20_memory.md R49). -/
theorem writeEffect_busy {s u : State} {v : Word} {l : Loc} (he : WriteEffect s v l u) (hb : s.busy = true) :
    ∃ ctrl irq, u = { s with ctrl := ctrl, irq := irq } := by
  cases he with
  | ignored | dropped | ctrl | irqStatus => exact ⟨_, _, rfl⟩
  | cmd hi | keylen hi | len hi | key _ hi | iv _ hi | dbuf _ hi => simp [hb] at hi

/-- A HOST step while `BUSY = 1`, unless it is a reset, changes `CTRL`, `IRQ_STATUS` and the model's own fields only. -/
theorem hostStep_busy {s t : State} (hb : s.busy = true) (hr : s.inputs.head? ≠ some .reset)
    (h : hostStep s = .next t) :
    ∃ ctrl irq draws waited inputs response, t = { s with
      ctrl := ctrl, irq := irq, draws := draws, waited := waited, inputs := inputs, response := response } := by
  cases hostStep_cases h with
  | idle => exact ⟨_, _, _, _, _, _, rfl⟩
  | read | wait | outside => rw [hostTick_eq]; exact ⟨_, _, _, _, _, _, rfl⟩
  | write _ _ _ _ _ _ _ u he =>
    obtain ⟨ctrl, irq, rfl⟩ := writeEffect_busy he (by simpa using hb)
    rw [hostTick_eq]
    exact ⟨ctrl, irq, _, _, _, _, rfl⟩
  | reset rest hi => simp [hi] at hr

/-- Settles O21: each command input is dropped by `unlessBusy`, and `hostStep_busy` names all that a HOST step changes. -/
theorem writesWhileBusyAreDropped : Obligations.WritesWhileBusyAreDropped := by
  constructor
  · intro s v hb
    have dropped (u : State) : unlessBusy s u = { s with irq := s.irq ||| 0b100 } := unlessBusy_busy hb
    exact ⟨dropped _, dropped _, dropped _, fun _ => dropped _, fun _ => dropped _, fun _ => dropped _, rfl, rfl,
      fun l hl => writeLoc_readOnly hl v s⟩
  · intro s t hb hr h
    obtain ⟨ctrl, irq, draws, waited, inputs, response, rfl⟩ := hostStep_busy hb hr h
    exact ⟨rfl, hb, rfl, rfl, rfl, rfl, rfl, rfl, rfl, rfl, rfl, rfl, rfl⟩

end Machine
end Sys2Proof
end

section
/-! PROOFS, 30_encoding.md. The decoder and the encoder as inverses of each other, the opcode map as masks, and
what completes an illegal word. -/

namespace Sys2Proof

/-! ### Fields and masks of a command word -/

/-- The row of a block command: `OP` and the reserved bits under the mask, the block index in the bits it leaves free
(30_encoding.md R61, R62). -/
theorem commandWord_eq_iff {op : BitVec 4} {b : BitVec 8} {w : Word} :
    commandWord op b = w ↔ w &&& 0xFFFF00FF = op.setWidth 32 ∧ blkField w = b := by
  constructor
  · rintro rfl
    obtain ⟨-, -, -, hb⟩ := commandWord_fields op b
    exact ⟨Laws.blkWord_masked op b, hb⟩
  · rintro ⟨hm, rfl⟩
    have free : w &&& 0x0000FF00 = (blkField w).setWidth 32 <<< 8 := by
      unfold blkField
      ext i hi
      interval_cases i <;> simp
    unfold commandWord
    rw [← hm, ← free, ← BitVec.and_or_distrib_left]
    exact BitVec.and_allOnes

/-- The bits that a block command's row fixes, by field (30_encoding.md R60). -/
theorem masked_eq_fields (w : Word) :
    w &&& (0xFFFF00FF : Word) =
      (reservedHigh w).setWidth 32 <<< 16 ||| (reservedLow w).setWidth 32 <<< 4 ||| (opField w).setWidth 32 := by
  unfold reservedHigh reservedLow opField
  ext i hi
  interval_cases i <;> simp

/-- A word without reserved bits is its `OP` and its `BLK` (30_encoding.md R60). -/
theorem commandWord_opField_blkField {w : Word} (hl : reservedLow w = 0) (hh : reservedHigh w = 0) :
    commandWord (opField w) (blkField w) = w :=
  commandWord_eq_iff.mpr ⟨by rw [masked_eq_fields, hl, hh]; simp, rfl⟩

theorem blkField_toNat (w : Word) : (blkField w).toNat = w.toNat / 256 % 256 := by
  simp [blkField, Nat.shiftRight_eq_div_pow]

/-! ### The decoder inverts the encoder -/

theorem decode_encode {i : Instr} (h : i.WellFormed) : decode (encode i) = .ok i := by
  cases i with
  | nop | expandKey | loadIv | cbcEnc | cbcDec => exact decode_commandWord _ _
  | blkEnc b | blkDec b =>
    have hb : b < 256 := of_decide_eq_true h
    exact (decode_commandWord _ _).trans (by simp [Nat.mod_eq_of_lt hb])

theorem reserved_of_decode_ok {w : Word} {i : Instr} (h : decode w = .ok i) :
    reservedLow w = 0 ∧ reservedHigh w = 0 := by
  unfold decode at h
  split at h
  · cases h
  · split at h
    · cases h
    · next hr => simpa using hr

theorem wellFormed_encode_of_decode_commandWord {op : BitVec 4} {b : BitVec 8} {i : Instr}
    (h : decode (commandWord op b) = .ok i) : i.WellFormed ∧ encode i = commandWord op b := by
  have hop : BitVec.ofNat 4 op.toNat = op := by simp
  rw [decode_commandWord] at h
  rw [← hop]
  split at h
  case h_4 ho | h_5 ho =>
    cases h
    exact ⟨decide_eq_true b.isLt, by rw [ho]; simp [encode]⟩
  case h_8 => cases h
  all_goals
    next ho =>
    split at h
    · next hb => cases h; exact ⟨rfl, by rw [ho, hb]; rfl⟩
    · cases h

/-- The decoder accepts the encodings of the well-formed commands and nothing else (30_encoding.md R61, R65). -/
theorem decode_eq_ok_iff {w : Word} {i : Instr} : decode w = .ok i ↔ i.WellFormed ∧ encode i = w := by
  constructor
  · intro h
    obtain ⟨hl, hh⟩ := reserved_of_decode_ok h
    rw [← commandWord_opField_blkField hl hh] at h ⊢
    exact wellFormed_encode_of_decode_commandWord h
  · rintro ⟨hi, rfl⟩
    exact decode_encode hi

/-! ### The rows of the opcode map -/

/-- A row whose mask leaves no bit free. -/
theorem decode_eq_ok_iff_word {i : Instr} (hi : i.WellFormed) (w : Word) :
    decode w = .ok i ↔ w &&& 0xFFFFFFFF = encode i := by
  have hm : w &&& 0xFFFFFFFF = w := BitVec.and_allOnes
  rw [decode_eq_ok_iff, hm]
  exact ⟨fun h => h.2.symm, fun h => ⟨hi, h.symm⟩⟩

/-- A row whose mask leaves `BLK` free for the block index. -/
theorem blk_row_iff (op : BitVec 4) (w : Word) (b : Nat) :
    b < 256 ∧ commandWord op (BitVec.ofNat 8 b) = w
      ↔ w &&& 0xFFFF00FF = op.setWidth 32 ∧ b = w.toNat / 256 % 256 := by
  rw [commandWord_eq_iff, ← blkField_toNat]
  constructor
  · rintro ⟨hb, hm, he⟩
    exact ⟨hm, by rw [he, BitVec.toNat_ofNat, Nat.mod_eq_of_lt hb]⟩
  · rintro ⟨hm, rfl⟩
    exact ⟨(blkField w).isLt, hm, by simp⟩

theorem decode_eq_blkEnc_iff (w : Word) (b : Nat) :
    decode w = .ok (.blkEnc b) ↔ w &&& 0xFFFF00FF = 0x00000003 ∧ b = w.toNat / 256 % 256 := by
  rw [decode_eq_ok_iff, Instr.WellFormed, Instr.wellFormed, decide_eq_true_iff]
  exact blk_row_iff 3 w b

theorem decode_eq_blkDec_iff (w : Word) (b : Nat) :
    decode w = .ok (.blkDec b) ↔ w &&& 0xFFFF00FF = 0x00000004 ∧ b = w.toNat / 256 % 256 := by
  rw [decode_eq_ok_iff, Instr.WellFormed, Instr.wellFormed, decide_eq_true_iff]
  exact blk_row_iff 4 w b

/-- Settles O7: what decodes is an encoding, so each row is the equation of its command's encoding. -/
theorem decodeAcceptsExactlyTheTable : Obligations.DecodeAcceptsExactlyTheTable := by
  intro w
  refine ⟨?_, ?_, ?_, decode_eq_blkEnc_iff w, decode_eq_blkDec_iff w, ?_, ?_, fun _ => decode_eq_ok_iff.mp⟩
  · exact decode_eq_ok_iff_word (i := .nop) rfl w
  · exact decode_eq_ok_iff_word (i := .expandKey) rfl w
  · exact decode_eq_ok_iff_word (i := .loadIv) rfl w
  · exact decode_eq_ok_iff_word (i := .cbcEnc) rfl w
  · exact decode_eq_ok_iff_word (i := .cbcDec) rfl w

/-! ### Illegal words -/

/-- A word is illegal: `OP` is reserved, a reserved bit is set, or `BLK` is set where `OP` does not use it
(30_encoding.md R63, R64). -/
def isIllegalWord (w : Word) : Prop :=
  7 ≤ (opField w).toNat ∨ reservedLow w ≠ 0 ∨ reservedHigh w ≠ 0
    ∨ (blkField w ≠ 0 ∧ (opField w).toNat ≠ 3 ∧ (opField w).toNat ≠ 4)

/-- An encoding has `OP` below 7, reserved bits 0, and `BLK` 0 but for the `OP`s 3 and 4: it is in no illegal class. -/
theorem encode_not_illegal (i : Instr) : ¬ isIllegalWord (encode i) := by
  cases i <;> simp [isIllegalWord, encode, commandWord_fields]

theorem decode_error_of_illegal {w : Word} (h : isIllegalWord w) : ∃ e, decode w = .error e := by
  cases hd : decode w with
  | error e => exact ⟨e, rfl⟩
  | ok i =>
    obtain ⟨-, rfl⟩ := decode_eq_ok_iff.mp hd
    exact absurd h (encode_not_illegal i)

namespace Machine

/-- An illegal word completes with `ILLEGAL_CMD` and does nothing else (60_exceptions.md R131). -/
theorem completeWord_of_error {w : Word} {e : DecodeError} (h : decode w = .error e) (s : State) :
    completeWord w s = .next (complete .illegalCmd s) := by
  simp only [completeWord, h]

/-- Settles O8: an illegal word is no encoding, so it does not decode; the write of `CMD` does not look at the word. -/
theorem illegalWordsReportIllegalCmd : Obligations.IllegalWordsReportIllegalCmd := by
  intro w s (h : isIllegalWord w)
  obtain ⟨e, he⟩ := decode_error_of_illegal h
  exact ⟨⟨e, he⟩, fun hb => unlessBusy_idle hb, completeWord_of_error he s⟩

end Machine
end Sys2Proof
end

section
/-! PROOFS, 40_tables.md. The field laws of the multiplication that pin down the inverse, the walk as a list of inverse
pairs, what the mix tables are as packed products, the round constants, and which steps touch the tables. -/

namespace Sys2Proof
namespace Machine

/-! ### The multiplication of GF(2^8) -/

/-- A linear map that commutes with multiplication by x commutes with every multiplication: a product is a sum of
multiples of the left factor by powers of x (00_scope.md R7). -/
theorem map_gmulBits {f : Byte → Byte} (hadd : ∀ a b, f (a ^^^ b) = f a ^^^ f b) (hx : ∀ a, f (xtime a) = xtime (f a))
    (n : Nat) (a b : Byte) : f (gmulBits n a b) = gmulBits n (f a) b := by
  have hzero : f 0 = 0 := by simpa using hadd 0 0
  induction n generalizing a b with
  | zero => exact hzero
  | succ n ih => rw [gmulBits, gmulBits, hadd, ih, hx, apply_ite f, hzero]

theorem gmul_xtime_left (a b : Byte) : gmul (xtime a) b = xtime (gmul a b) :=
  (map_gmulBits xtime_xor (fun _ => rfl) 8 a b).symm

theorem gmul_right_comm (a b c : Byte) : gmul (gmul a b) c = gmul (gmul a c) b :=
  map_gmulBits (f := (gmul · c)) (gmul_xor_left · · c) (gmul_xtime_left · c) 8 a b

theorem gmul_one_left (a : Byte) : gmul 1 a = a :=
  linear_ext (g := id) (gmul_xor_right 1) (fun _ _ => rfl) (by decide) a

theorem gmul_comm (a b : Byte) : gmul a b = gmul b a := by
  simpa only [gmul_one_left] using gmul_right_comm 1 a b

theorem gmul_one_right (a : Byte) : gmul a 1 = a := by
  rw [gmul_comm, gmul_one_left]

theorem gmul_assoc (a b c : Byte) : gmul (gmul a b) c = gmul a (gmul b c) := by
  rw [gmul_comm a b, gmul_right_comm, gmul_comm]

/-- A byte has at most one inverse. -/
theorem eq_of_gmul_eq_one {b c d : Byte} (hc : gmul b c = 1) (hd : gmul b d = 1) : c = d := by
  simpa only [hc, hd, gmul_one_left] using gmul_right_comm b d c

/-! ### The walk and the S-boxes -/

/-- The walk keeps its two bytes inverse to each other, as 0x03 and 0xF6 are (40_tables.md R71). -/
theorem walkPairs_inverse {n : Nat} {x xi : Byte} (h : gmul x xi = 1) : ∀ p ∈ walkPairs n x xi, gmul p.1 p.2 = 1 := by
  induction n generalizing x xi with
  | zero => exact nofun
  | succ n ih =>
    have hnext : gmul (gmul x 0x03) (gmul xi 0xF6) = 1 := calc
      _ = gmul (gmul (gmul x xi) 0x03) 0xF6 := by rw [← gmul_assoc, gmul_right_comm x]
      _ = 1 := by rw [h]; decide
    exact List.forall_mem_cons.mpr ⟨h, ih hnext⟩

theorem walkList_inverse {p : Byte × Byte} (h : p ∈ walkList) : gmul p.1 p.2 = 1 := by
  rw [← walkPairs_eq] at h
  exact walkPairs_inverse (gmul_one_left 1) p h

/-- `SBOX` is the affine image of the inverse (40_tables.md R74). -/
theorem specSbox_of_inverse {b c : Byte} (h : gmul b c = 1) : specSbox b = affine c := by
  obtain ⟨p, hp, rfl⟩ := List.mem_map.mp (genPairs_cover b)
  rcases List.mem_cons.mp hp with rfl | hw
  · rw [gmul_zero_left] at h
    exact absurd h (by decide)
  · rw [eq_of_gmul_eq_one h (walkList_inverse hw), genPairs_sbox hp]

/-- `SBOX` at 0, which has no inverse (40_tables.md R72). -/
theorem specSbox_zero : specSbox 0 = affine 0 := (genPairs_sbox (p := (0, 0)) List.mem_cons_self).symm

theorem genPairs_no_fixed_point_all :
    (genPairs.all fun p => affine p.2 != p.1 && affine p.2 != p.1 ^^^ 0xff) = true := by decide +kernel

/-- No fixed point and no opposite fixed point (40_tables.md R84). -/
theorem specSbox_no_fixed_point (b : Byte) : specSbox b ≠ b ∧ specSbox b ≠ b ^^^ 0xff := by
  obtain ⟨p, hp, rfl⟩ := List.mem_map.mp (genPairs_cover b)
  rw [← genPairs_sbox hp]
  simpa using List.all_eq_true.mp genPairs_no_fixed_point_all p hp

/-- Settles O55: the tables' entries in closed form, `specSbox_of_inverse` for `SBOX`, and rotations of packed bytes for
the mix tables. -/
theorem generatedTablesMeetTheirRules : Obligations.GeneratedTablesMeetTheirRules := by
  intro u
  simp only [genTables_sbox, genTables_invSbox, genTables_subMix0, genTables_subMix1, genTables_subMix2,
    genTables_subMix3, genTables_invSubMix0, genTables_invSubMix1, genTables_invSubMix2, genTables_invSubMix3]
  refine ⟨⟨specSbox_zero, fun b c h => specSbox_of_inverse h⟩, specInvSbox_specSbox, fun x => ?_, fun s => ?_⟩
  · rw [mixEntry, rotr32_pack_8, rotr32_pack_16, rotr32_pack_24]
    exact ⟨rfl, rfl, rfl, rfl⟩
  · rw [invMixEntry, rotr32_pack_8, rotr32_pack_16, rotr32_pack_24]
    exact ⟨rfl, rfl, rfl, rfl⟩

/-! ### The mix tables -/

/-- Over the four byte rotations every byte place sees all four bytes. -/
theorem xor_rotations_pack (a b c d : Byte) :
    pack a b c d ^^^ rotr32 (pack a b c d) 8 ^^^ rotr32 (pack a b c d) 16 ^^^ rotr32 (pack a b c d) 24
      = pack (a ^^^ b ^^^ c ^^^ d) (a ^^^ b ^^^ c ^^^ d) (a ^^^ b ^^^ c ^^^ d) (a ^^^ b ^^^ c ^^^ d) := by
  rw [rotr32_pack_8, rotr32_pack_16, rotr32_pack_24, pack_xor, pack_xor, pack_xor]
  congr 1 <;> ac_rfl

/-- The forward coefficients add up to 1 (40_tables.md R84). -/
theorem mix_coefficients (s : Byte) : gmul s 0x02 ^^^ s ^^^ s ^^^ gmul s 0x03 = s := calc
  _ = gmul s (0x02 ^^^ 1 ^^^ 1 ^^^ 0x03) := by simp only [gmul_xor_right, gmul_one_right]
  _ = s := gmul_one_right s

/-- The inverse coefficients add up to 1 (40_tables.md R84). -/
theorem invMix_coefficients (y : Byte) : gmul y 0x0e ^^^ gmul y 0x09 ^^^ gmul y 0x0d ^^^ gmul y 0x0b = y := calc
  _ = gmul y (0x0e ^^^ 0x09 ^^^ 0x0d ^^^ 0x0b) := by simp only [gmul_xor_right]
  _ = y := gmul_one_right y

theorem xor_rotations_mixEntry (s : Byte) :
    mixEntry s ^^^ rotr32 (mixEntry s) 8 ^^^ rotr32 (mixEntry s) 16 ^^^ rotr32 (mixEntry s) 24 = pack s s s s := by
  rw [mixEntry, xor_rotations_pack, mix_coefficients]

theorem xor_rotations_invMixEntry (y : Byte) :
    invMixEntry y ^^^ rotr32 (invMixEntry y) 8 ^^^ rotr32 (invMixEntry y) 16 ^^^ rotr32 (invMixEntry y) 24
      = pack y y y y := by
  rw [invMixEntry, xor_rotations_pack, invMix_coefficients]

/-- Settles O56: the properties are those of the closed forms of the entries. -/
theorem generatedTablesHaveTheirProperties : Obligations.GeneratedTablesHaveTheirProperties := by
  intro u
  simp only [genTables_sbox, genTables_invSbox, genTables_subMix0, genTables_subMix1, genTables_subMix2,
    genTables_subMix3, genTables_invSubMix0, genTables_invSubMix1, genTables_invSubMix2, genTables_invSubMix3]
  refine ⟨fun x => ⟨?_, ?_, ?_, ?_, ?_, ?_⟩, by decide⟩
  · exact (specSbox_no_fixed_point x).1
  · exact (specSbox_no_fixed_point x).2
  · exact specInvSbox_specSbox x
  · exact specSbox_specInvSbox x
  · exact xor_rotations_mixEntry (specSbox x)
  · exact xor_rotations_invMixEntry (specInvSbox x)

/-! ### The round constants -/

theorem rcon_succ : ∀ i < 10, 1 ≤ i → rcon (i + 1) = xtime (rcon i) := by decide

/-- Settles O57: by induction from `rcon 1`; the index is below 11 because `(Nk + 7) * 4` is at most `Nk * 11`. -/
theorem roundConstantsAreThePowers : Obligations.RoundConstantsAreThePowers := by
  refine ⟨rfl, fun i h1 => ?_, fun nk i hk h1 h2 => ⟨?_, ?_⟩⟩
  · induction i, h1 using Nat.le_induction with
    | base => exact fun _ => rfl
    | succ i h1 ih =>
      intro h10
      obtain ⟨k, rfl⟩ := Nat.exists_eq_add_of_le' h1
      rw [rcon_succ _ h10 h1, ih (Nat.le_of_lt h10)]
      exact (Function.iterate_succ_apply' xtime k 0x01).symm
  · exact Nat.div_pos h1 (by omega)
  · exact Nat.le_of_lt_succ (Nat.div_lt_of_lt_mul (by omega))

/-! ### Which steps touch the tables -/

/-- The table storage and `TABLES_READY` are in `t` as they were in `s`. -/
def sameTables (s t : State) : Prop := t.tables = s.tables ∧ t.tablesReady = s.tablesReady

/-- Commands read the tables and never write them (40_tables.md R82). -/
theorem commandEffect_sameTables {s u : State} {i : Instr} (h : CommandEffect s i u) : sameTables s u := by
  rw [commandEffect_frame h]
  exact ⟨rfl, rfl⟩

/-- The ENGINE writes the tables in the table-generation step only (40_tables.md R82). -/
theorem engineStep_sameTables {s t : State} (hg : s.genPending = false) (h : engineStep s = .next t) :
    sameTables s t := by
  rcases engineStep_cases h with ⟨hg', -⟩ | ⟨-, -, rfl⟩ | ⟨w, i, c, u, -, -, -, rfl, he, -, -⟩
  · simp [hg] at hg'
  · exact ⟨rfl, rfl⟩
  · exact commandEffect_sameTables (u := u) he

theorem writeEffect_sameTables {s u : State} {v : Word} {l : Loc} (h : WriteEffect s v l u) : sameTables s u := by
  cases h <;> exact ⟨rfl, rfl⟩

/-- Of the HOST's accesses only a reset touches the tables (40_tables.md R82). -/
theorem hostEffect_sameTables {s t : State} (hr : s.inputs.head? ≠ some .reset) (h : HostEffect s t) :
    sameTables s t := by
  cases h with
  | idle => exact ⟨rfl, rfl⟩
  | read | wait | outside => exact ⟨hostTick_tables s, hostTick_tablesReady s⟩
  | write _ _ _ _ _ _ _ u he =>
    obtain ⟨ht, hready⟩ := writeEffect_sameTables he
    exact ⟨ht.trans (hostTick_tables s), hready.trans (hostTick_tablesReady s)⟩
  | reset rest hi => simp [hi] at hr

theorem step_sameTables {s t : State} (hg : s.genPending = false) (hr : s.inputs.head? ≠ some .reset)
    (h : step s = .next t) : sameTables s t := by
  rcases step_cases h with ⟨-, he⟩ | ⟨-, he⟩
  · exact engineStep_sameTables hg he
  · exact hostEffect_sameTables hr he

/-- Settles O59: ready tables have no generation pending, by the invariant, so no step touches them. -/
theorem readyTablesNeverChange : Obligations.ReadyTablesNeverChange := by
  refine ⟨fun s t hinv hready h hr => ?_, genTables_indep⟩
  have hg : s.genPending = false := by simpa [hready] using hinv.readyIff
  obtain ⟨ht, hready'⟩ := step_sameTables hg hr h
  exact ⟨ht, hready'.trans hready⟩

end Machine
end Sys2Proof
end

section
/-! PROOFS, 41_key_schedule.md. What the words of the two stored schedules of a key are, `EXPAND_KEY` as the command
that stores them, and the properties of R90. -/

namespace Sys2Proof
namespace Machine

/-! ### The stored schedules of a key, word by word -/

theorem rowsOf_eq (nk : Nat) : rowsOf nk = (nk + 7) * 4 := rfl

section stored
variable {t : Tables} {key : Vector Word 8} {nk : Nat} {ks iks : Vector Word 60}
  (hk : nk = 4 ∨ nk = 6 ∨ nk = 8)
  (hks : ks = storeSchedule (forwardSchedule t key nk)) (hiks : iks = storeSchedule (inverseSchedule t key nk))

include hks

theorem scheduleWord_forward {i : Nat} (h : i < 60) : scheduleWord ks i = (forwardSchedule t key nk).getD i 0 := by
  rw [hks, scheduleWord_store _ h]

/-- The forward schedule begins with the key (41_key_schedule.md R87, R90). -/
theorem forward_begins_with_key (i : Nat) (h : i < 8) (hi : i < nk) : scheduleWord ks i = key[i] := by
  have hrows : i < rowsOf nk := by rw [rowsOf_eq]; omega
  rw [scheduleWord_forward hks (by omega), forwardSchedule, expandForward_getD t key (by omega) hrows, if_pos hi]
  simp [List.getD, h]

include hk

/-- The forward recurrence (41_key_schedule.md R87). -/
theorem forward_recurrence (i : Nat) (hi : nk ≤ i) (hrows : i < (nk + 7) * 4) :
    scheduleWord ks i = scheduleWord ks (i - nk) ^^^ forwardMix t nk i (scheduleWord ks (i - 1)) := by
  rw [scheduleWord_forward hks (by omega), scheduleWord_forward hks (by omega), scheduleWord_forward hks (by omega)]
  exact (expandForward_getD t key (by omega) hrows).trans (if_neg (by omega))

/-- Where `forwardMix` passes on the word before, the recurrence is a plain exclusive OR (41_key_schedule.md R90). -/
theorem forward_plain_recurrence (i : Nat) (hi : nk ≤ i) (hrows : i < (nk + 7) * 4) (hmod : i % nk ≠ 0)
    (hmid : nk = 8 → i % 8 ≠ 4) : scheduleWord ks i = scheduleWord ks (i - nk) ^^^ scheduleWord ks (i - 1) := by
  have hmid' : ¬ (nk = 8 ∧ i % nk = 4) := by rintro ⟨rfl, h⟩; exact hmid rfl h
  rw [forward_recurrence hk hks i hi hrows, forwardMix, if_neg hmod, if_neg hmid']

include hiks

/-- The inverse schedule is the forward one in reverse groups, the interior ones through `InvMixWord`
(41_key_schedule.md R89). -/
theorem inverse_groups (g j : Nat) (hg : g ≤ nk + 6) (hj : j < 4) :
    scheduleWord iks (4 * g + j) =
      if g = 0 ∨ g = nk + 6 then scheduleWord ks (4 * (nk + 6 - g) + j)
      else invMixWord t (scheduleWord ks (4 * (nk + 6 - g) + j)) := by
  have hdiv : (4 * g + j) / 4 = g := by omega
  have hmod : (4 * g + j) % 4 = j := by omega
  have hrows : 4 * g + j < (roundsOf nk + 1) * 4 := by rw [roundsOf]; omega
  rw [hiks, scheduleWord_store _ (by omega), inverseSchedule, expandInverse_getD _ _ _ hrows, inverseWord, hdiv, hmod,
    scheduleWord_forward hks (by omega), roundsOf]

/-- The outer groups are those of the forward schedule, swapped (41_key_schedule.md R90). -/
theorem inverse_outer_groups (j : Nat) (hj : j < 4) :
    scheduleWord iks j = scheduleWord ks (4 * (nk + 6) + j)
      ∧ scheduleWord iks (4 * (nk + 6) + j) = scheduleWord ks j := by
  have hfirst := inverse_groups hk hks hiks 0 j (Nat.zero_le _) hj
  have hlast := inverse_groups hk hks hiks (nk + 6) j (Nat.le_refl _) hj
  exact ⟨by simpa using hfirst, by simpa using hlast⟩

theorem inverse_interior_groups (g j : Nat) (h1 : 1 ≤ g) (hg : g ≤ nk + 5) (hj : j < 4) :
    scheduleWord iks (4 * g + j) = invMixWord t (scheduleWord ks (4 * (nk + 6 - g) + j)) := by
  rw [inverse_groups hk hks hiks g j (by omega) hj, if_neg (by omega)]

omit hk in
/-- The words past the rows are 0 (41_key_schedule.md R86). -/
theorem stored_zero_past_rows (i : Nat) (hi : (nk + 7) * 4 ≤ i) (h : i < 60) :
    scheduleWord ks i = 0 ∧ scheduleWord iks i = 0 := by
  rw [hks, hiks, scheduleWord_store _ h, scheduleWord_store _ h]
  exact ⟨List.getD_eq_default _ _ (by rwa [forwardSchedule_length, rowsOf_eq]),
    List.getD_eq_default _ _ (by rwa [inverseSchedule_length, rowsOf_eq])⟩

end stored

/-! ### `EXPAND_KEY` -/

theorem exec_expandKey_of_legal {s : State} {nk : Nat} (h : keyWords s.keylen = some nk) :
    exec .expandKey s = .next (complete .none (loadSchedule nk s)) := by
  simp only [exec, execExpandKey, h]

theorem exec_expandKey_of_illegal {s : State} (h : keyWords s.keylen = none) :
    exec .expandKey s = .next (complete .keyLength s) := by
  simp only [exec, execExpandKey, h]

theorem decode_eq_expandKey_iff (w : Word) : decode w = .ok .expandKey ↔ w = 0x00000001 := by
  rw [decode_eq_ok_iff]
  exact ⟨fun h => h.2.symm, fun h => ⟨rfl, h.symm⟩⟩

/-- `Nk + 6` fits in `NR` (41_key_schedule.md R86; 10_state.md R35). -/
theorem roundsOf_toNat {nk : Nat} (hk : nk = 4 ∨ nk = 6 ∨ nk = 8) :
    (BitVec.ofNat 4 (roundsOf nk)).toNat = nk + 6 := by
  rw [BitVec.toNat_ofNat, roundsOf, Nat.mod_eq_of_lt (by omega)]

/-- Settles O33: a successful `EXPAND_KEY` completes `loadSchedule`, which stores the two schedules of the key. -/
theorem expandKeyBuildsBothSchedules : Obligations.ExpandKeyBuildsBothSchedules := by
  refine ⟨fun s nk hk hlen => ?_, fun s h16 h24 h32 => ?_, decode_eq_expandKey_iff⟩
  · refine ⟨_, exec_expandKey_of_legal (keyWords_legal hk hlen), rfl, roundsOf_toNat hk, ?_, ?_, ?_, ?_⟩
    · exact forward_begins_with_key (t := s.tables) rfl
    · exact forward_recurrence (key := s.key) hk rfl
    · exact inverse_groups (key := s.key) hk rfl rfl
    · exact stored_zero_past_rows (t := s.tables) (key := s.key) rfl rfl
  · exact exec_expandKey_of_illegal (keyWords_illegal h16 h24 h32)

/-! ### The properties of a valid schedule -/

/-- With generated tables the lookups keyed by the S-box value see the byte itself (40_tables.md R75, R78). -/
theorem invMixWord_genTables (u : Tables) (w : Word) :
    invMixWord (genTables u) w = invMixEntry (byteK 0 w) ^^^ rotr32 (invMixEntry (byteK 1 w)) 8
      ^^^ rotr32 (invMixEntry (byteK 2 w)) 16 ^^^ rotr32 (invMixEntry (byteK 3 w)) 24 := by
  simp only [invMixWord, genTables_sbox, genTables_invSubMix0, genTables_invSubMix1, genTables_invSubMix2,
    genTables_invSubMix3, specInvSbox_specSbox]

theorem invMixWord_genTables_zero (u : Tables) : invMixWord (genTables u) 0 = 0 := by
  rw [invMixWord_genTables]
  decide

theorem Inv.tables_of_valid {s : State} (h : Inv s) (hv : s.ksValid = true) : s.tables = genTables Tables.blank :=
  h.tablesGen (h.validReady hv)

/-- A valid schedule is that of the key length in `KEYLEN`, which is then legal (41_key_schedule.md R86, R88). -/
theorem Inv.schedules_of_valid {s : State} (h : Inv s) (hv : s.ksValid = true) {nk : Nat}
    (hlen : s.keylen.toNat = 4 * nk) :
    (nk = 4 ∨ nk = 6 ∨ nk = 8) ∧ s.ks = storeSchedule (forwardSchedule s.tables s.key nk)
      ∧ s.iks = storeSchedule (inverseSchedule s.tables s.key nk) := by
  obtain ⟨nk', hwords, -, hks, hiks⟩ := h.validKey hv
  obtain ⟨hk, hlen'⟩ := keyWords_cases hwords
  obtain rfl : nk = nk' := by omega
  exact ⟨hk, hks, hiks⟩

/-- Settles O34: by the invariant a valid schedule is that of the key, and the tables are the generated ones. -/
theorem schedulesHaveTheirProperties : Obligations.SchedulesHaveTheirProperties := by
  intro s nk hinv hv hlen
  obtain ⟨hk, hks, hiks⟩ := hinv.schedules_of_valid hv hlen
  refine ⟨forward_begins_with_key hks, inverse_outer_groups hk hks hiks, inverse_interior_groups hk hks hiks,
    forward_plain_recurrence hk hks, ?_⟩
  rw [hinv.tables_of_valid hv]
  exact invMixWord_genTables_zero _

end Machine
end Sys2Proof
end

section
/-! PROOFS, 42_block.md. The two block commands: the words a host writes for them, and what each does under a valid
schedule with a block that exists and with one that does not. -/

namespace Sys2Proof

/-- The word of a block command as a host program writes it, `op | (b << 8)` (30_encoding.md R61, R68). -/
theorem written_blkWord_eq (op : BitVec 4) {b : Nat} (hb : b < 256) :
    op.setWidth 32 ||| BitVec.ofNat 32 b <<< 8 = commandWord op (BitVec.ofNat 8 b) := by
  have hfit : (BitVec.ofNat 8 b).setWidth 32 = BitVec.ofNat 32 b := BitVec.setWidth_ofNat_of_le_of_lt (by decide) hb
  rw [commandWord, hfit, BitVec.or_comm]

theorem decode_written_blkEnc {b : Nat} (hb : b < 256) :
    decode (0x00000003 ||| BitVec.ofNat 32 b <<< 8) = .ok (.blkEnc b) := calc
  decode (0x00000003 ||| BitVec.ofNat 32 b <<< 8) = decode (encode (.blkEnc b)) :=
    congrArg decode (written_blkWord_eq 0x3 hb)
  _ = .ok (.blkEnc b) := decode_encode (decide_eq_true hb)

theorem decode_written_blkDec {b : Nat} (hb : b < 256) :
    decode (0x00000004 ||| BitVec.ofNat 32 b <<< 8) = .ok (.blkDec b) := calc
  decode (0x00000004 ||| BitVec.ofNat 32 b <<< 8) = decode (encode (.blkDec b)) :=
    congrArg decode (written_blkWord_eq 0x4 hb)
  _ = .ok (.blkDec b) := decode_encode (decide_eq_true hb)

namespace Machine

/-! ### A block that exists -/

/-- `BLK_ENC` completes one chained encryption (42_block.md R102). -/
theorem exec_blkEnc_of_exists {s : State} {b : Nat} (hv : s.ksValid = true) (hb : b < dbufBlocks s.cfg) :
    ∃ t x d, exec (.blkEnc b) s = .next t ∧ blockReadsAs s.mem b x
      ∧ t = complete .none { s with
          draws := d
          mem := (writeBlock b (encryptWith s (quadXor x s.cv)) s).mem
          cv := encryptWith s (quadXor x s.cv) } := by
  obtain ⟨x, d, hx, hchain⟩ := chainEncrypt_spec b s.cv s
  refine ⟨_, x, d, ?_, hx, rfl⟩
  simp [exec, execBlkEnc, blockInRange, hv, hb, hchain]

/-- `BLK_DEC` completes one chained decryption (42_block.md R103). -/
theorem exec_blkDec_of_exists {s : State} {b : Nat} (hv : s.ksValid = true) (hb : b < dbufBlocks s.cfg) :
    ∃ t x d, exec (.blkDec b) s = .next t ∧ blockReadsAs s.mem b x
      ∧ t = complete .none { s with
          draws := d
          mem := (writeBlock b (quadXor (decryptWith s x) s.cv) s).mem
          cv := x } := by
  obtain ⟨x, d, hx, hchain⟩ := chainDecrypt_spec b s.cv s
  refine ⟨_, x, d, ?_, hx, rfl⟩
  simp [exec, execBlkDec, blockInRange, hv, hb, hchain]

/-- What a completed block command leaves: block `b` holds `q` and `CV` holds `c`, and apart from them only the completion
and the count of draws set `t` apart from `s`. -/
theorem completed_block_in_place {s t : State} {b d : Nat} {q c : Quad}
    (ht : t = complete .none { s with draws := d, mem := (writeBlock b q s).mem, cv := c }) :
    t.cv = c ∧ memBlock t.mem b = some q ∧ (∀ a, ¬ inBlock b a → memRead t.mem a = memRead s.mem a)
      ∧ t = complete .none { s with mem := t.mem, cv := t.cv, draws := t.draws } := by
  have hmem : t.mem = (writeBlock b q s).mem := by rw [ht, complete_mem]
  have hcv : t.cv = c := by rw [ht, complete_cv]
  have hdraws : t.draws = d := by rw [ht, complete_draws]
  rw [hmem, hcv, hdraws]
  exact ⟨rfl, memBlock_writeBlock_self b q s, fun a ha => memRead_writeBlock_ne b q s ha, ht⟩

/-! ### A block that does not exist -/

theorem exec_blkEnc_out_of_range {s : State} {b : Nat} (hv : s.ksValid = true) (hb : dbufBlocks s.cfg ≤ b) :
    exec (.blkEnc b) s = .next (complete .blkRange s) := by
  simp [exec, execBlkEnc, blockInRange, hv, hb]

theorem exec_blkDec_out_of_range {s : State} {b : Nat} (hv : s.ksValid = true) (hb : dbufBlocks s.cfg ≤ b) :
    exec (.blkDec b) s = .next (complete .blkRange s) := by
  simp [exec, execBlkDec, blockInRange, hv, hb]

/-! ### The two commands -/

/-- Settles O37: `BLK_ENC` completes one chained encryption, and the ciphertext it writes is the new `CV`. -/
theorem blkEncEncryptsInPlace : Obligations.BlkEncEncryptsInPlace := by
  intro s b
  refine ⟨fun hv hb => ?_, fun hv => exec_blkEnc_of_invalid hv b, exec_blkEnc_out_of_range, decode_written_blkEnc⟩
  obtain ⟨t, x, d, hexec, hx, ht⟩ := exec_blkEnc_of_exists hv hb
  obtain ⟨hcv, hblock, hframe, hstate⟩ := completed_block_in_place ht
  exact ⟨t, x, hexec, hx, hcv, hcv ▸ hblock, hframe, hstate⟩

/-- Settles O38: `BLK_DEC` completes one chained decryption, and the ciphertext it read is the new `CV`. -/
theorem blkDecDecryptsInPlace : Obligations.BlkDecDecryptsInPlace := by
  intro s b
  refine ⟨fun hv hb => ?_, fun hv => exec_blkDec_of_invalid hv b, exec_blkDec_out_of_range, decode_written_blkDec⟩
  obtain ⟨t, x, d, hexec, hx, ht⟩ := exec_blkDec_of_exists hv hb
  obtain ⟨hcv, hblock, hframe, hstate⟩ := completed_block_in_place ht
  exact ⟨t, x, hexec, hx, hblock, hcv, hframe, hstate⟩

end Machine
end Sys2Proof
end

section
/-! PROOFS, 43_cbc.md. What a run of the block loops reads, writes and passes on, and the commands `LOAD_IV`, `CBC_ENC`
and `CBC_DEC`. -/

namespace Sys2Proof

/-- A well-formed command has exactly one word, its encoding. -/
theorem decode_eq_ok_iff_eq_encode {i : Instr} (hi : i.WellFormed) (w : Word) : decode w = .ok i ↔ w = encode i := by
  rw [decode_eq_ok_iff]
  exact ⟨fun ⟨_, h⟩ => h.symm, fun h => ⟨hi, h.symm⟩⟩

namespace Machine

/-! ### A block write seen from another block -/

theorem memReadWord_writeBlock_ne {b b' : Nat} (q : Quad) (s : State) (h : b ≠ b') (j : Fin 4) :
    memReadWord (writeBlock b q s).mem (dbufOffset (blockStart b' + j.val))
      = memReadWord s.mem (dbufOffset (blockStart b' + j.val)) := by
  rw [writeBlock_mem, memReadWord_memWriteWord_ne, memReadWord_memWriteWord_ne, memReadWord_memWriteWord_ne,
    memReadWord_memWriteWord_ne]
  all_goals simp only [dbufOffset, blockStart]; omega

theorem blockReadsAs_writeBlock_ne {b b' : Nat} {q x : Quad} {s : State} (h : b ≠ b') :
    blockReadsAs (writeBlock b q s).mem b' x ↔ blockReadsAs s.mem b' x := by
  simp only [blockReadsAs, memReadWord_writeBlock_ne q s h]

/-! ### A run of chained blocks -/

/-- The chaining value on the way into block `k` of a run that starts from `c` and passes `v k` on from each block `k`
(43_cbc.md R112, R113). -/
def chainInto (c : Quad) (v : Nat → Quad) : Nat → Quad
  | 0 => c
  | k + 1 => v k

theorem chainInto_eq_ite (c : Quad) (v : Nat → Quad) (k : Nat) : chainInto c v k = if k = 0 then c else v (k - 1) := by
  cases k with
  | zero => rfl
  | succ k => rfl

/-- A run over `n` blocks from block `b` takes the memory `m` to `m'`: block `b + k` reads as `x k` before it and holds
`q k` after it, which is `out` of the value read and the chaining value; `c` is the first chaining value and `v k` the one
that block `b + k` passes on. -/
structure ChainedBlocks (out : Quad → Quad → Quad) (m m' : Memory) (b n : Nat) (c : Quad) (x q v : Nat → Quad) : Prop where
  reads : ∀ k < n, blockReadsAs m (b + k) (x k)
  writes : ∀ k < n, memBlock m' (b + k) = some (q k)
  chained : ∀ k < n, q k = out (x k) (chainInto c v k)

/-- A block, then a run over the blocks after it that leaves the block alone, is a run. -/
theorem ChainedBlocks.cons {out : Quad → Quad → Quad} {s : State} {m m' : Memory} {b n : Nat} {c x₀ v₀ : Quad}
    {x q v : Nat → Quad} (hx : blockReadsAs s.mem b x₀) (hm : (writeBlock b (out x₀ c) s).mem = m)
    (hkeep : ∀ a, inBlock b a → memRead m' a = memRead m a) (h : ChainedBlocks out m m' (b + 1) n v₀ x q v) :
    ChainedBlocks out s.mem m' b (n + 1) c (chainInto x₀ x) (chainInto (out x₀ c) q) (chainInto v₀ v) where
  reads
    | 0, _ => hx
    | k + 1, hk => by
      have hread := h.reads k (Nat.lt_of_succ_lt_succ hk)
      rw [← hm, blockReadsAs_writeBlock_ne (by omega), Nat.add_right_comm] at hread
      exact hread
  writes
    | 0, _ => (memBlock_congr hkeep).trans (hm ▸ memBlock_writeBlock_self b (out x₀ c) s)
    | k + 1, hk => by
      have hwrite := h.writes k (Nat.lt_of_succ_lt_succ hk)
      rw [Nat.add_right_comm] at hwrite
      exact hwrite
  chained
    | 0, _ => rfl
    | k + 1, hk => h.chained k (Nat.lt_of_succ_lt_succ hk)

/-- A block of `CBC_ENC`: the encryption of its value XOR the chaining value (43_cbc.md R112). -/
def cbcEncOut (s : State) (x c : Quad) : Quad := encryptWith s (quadXor x c)

/-- A block of `CBC_DEC`: the decryption of its value, XOR the chaining value (43_cbc.md R113). -/
def cbcDecOut (s : State) (x c : Quad) : Quad := quadXor (decryptWith s x) c

theorem cbcEncOut_withMem (s : State) (d : Nat) (m : Memory) :
    cbcEncOut { s with draws := d, mem := m } = cbcEncOut s := rfl

theorem cbcDecOut_withMem (s : State) (d : Nat) (m : Memory) :
    cbcDecOut { s with draws := d, mem := m } = cbcDecOut s := rfl

/-- The bytes of a block lie before the blocks after it. -/
theorem lt_next_block {b a : Nat} (h : inBlock b a) : a < dbufOffset (blockStart (b + 1)) := by
  simp only [inBlock, dbufOffset, blockStart] at h ⊢
  omega

/-- The encryption loop passes on what it wrote (43_cbc.md R112). -/
theorem cbcEncLoop_chained (n b : Nat) (c : Quad) (s : State) : ∃ x y,
    ChainedBlocks (cbcEncOut s) s.mem (cbcEncLoop n b c s).2.mem b n c x y y
      ∧ (cbcEncLoop n b c s).1 = chainInto c y n := by
  induction n generalizing b c s with
  | zero => exact ⟨fun _ => c, fun _ => c, ⟨nofun, nofun, nofun⟩, rfl⟩
  | succ n ih =>
    obtain ⟨x₀, d, hx, hstep⟩ := chainEncrypt_spec b c s
    rw [← cbcEncOut] at hstep
    generalize hm : (writeBlock b (cbcEncOut s x₀ c) s).mem = m at hstep
    simp only [cbcEncLoop, hstep]
    obtain ⟨x, y, hrest, hlast⟩ := ih (b + 1) (cbcEncOut s x₀ c) { s with draws := d, mem := m }
    rw [cbcEncOut_withMem] at hrest
    exact ⟨_, _, hrest.cons hx hm fun a ha => cbcEncLoop_frame n (b + 1) _ _ (.inl (lt_next_block ha)), hlast⟩

/-- The decryption loop passes on what it read (43_cbc.md R113). -/
theorem cbcDecLoop_chained (n b : Nat) (c : Quad) (s : State) : ∃ x q,
    ChainedBlocks (cbcDecOut s) s.mem (cbcDecLoop n b c s).2.mem b n c x q x
      ∧ (cbcDecLoop n b c s).1 = chainInto c x n := by
  induction n generalizing b c s with
  | zero => exact ⟨fun _ => c, fun _ => c, ⟨nofun, nofun, nofun⟩, rfl⟩
  | succ n ih =>
    obtain ⟨x₀, d, hx, hstep⟩ := chainDecrypt_spec b c s
    rw [← cbcDecOut] at hstep
    generalize hm : (writeBlock b (cbcDecOut s x₀ c) s).mem = m at hstep
    simp only [cbcDecLoop, hstep]
    obtain ⟨x, q, hrest, hlast⟩ := ih (b + 1) x₀ { s with draws := d, mem := m }
    rw [cbcDecOut_withMem] at hrest
    exact ⟨_, _, hrest.cons hx hm fun a ha => cbcDecLoop_frame n (b + 1) _ _ (.inl (lt_next_block ha)), hlast⟩

/-! ### A legal length -/

/-- What a CBC command of a legal length leaves: a run over the blocks below `LEN` div 16 from the IV, whose last chaining
value is in `CV`; apart from them only the completion and the count of draws set `t` apart from `s` (43_cbc.md R111). -/
structure CbcResult (out : Quad → Quad → Quad) (s t : State) (x q v : Nat → Quad) : Prop where
  blocks : ChainedBlocks out s.mem t.mem 0 (s.len.toNat / 16) s.iv x q v
  cv : t.cv = chainInto s.iv v (s.len.toNat / 16)
  frame : ∀ a, a < 0x1000 ∨ 0x1000 + s.len.toNat ≤ a → memRead t.mem a = memRead s.mem a
  empty : s.len = 0 → t.mem = s.mem
  state : t = complete .none { s with mem := t.mem, cv := t.cv, draws := t.draws }

namespace CbcResult
variable {out : Quad → Quad → Quad} {s t : State} {x q v : Nat → Quad} (h : CbcResult out s t x q v)
include h

theorem reads {b : Nat} (hb : b < s.len.toNat / 16) : blockReadsAs s.mem b (x b) := by
  simpa only [Nat.zero_add] using h.blocks.reads b hb

theorem writes {b : Nat} (hb : b < s.len.toNat / 16) : memBlock t.mem b = some (q b) := by
  simpa only [Nat.zero_add] using h.blocks.writes b hb

theorem chained {b : Nat} (hb : b < s.len.toNat / 16) :
    q b = out (x b) (if b = 0 then s.iv else v (b - 1)) := by
  rw [← chainInto_eq_ite]
  exact h.blocks.chained b hb

theorem cv_eq_ite : t.cv = if s.len.toNat / 16 = 0 then s.iv else v (s.len.toNat / 16 - 1) := by
  rw [h.cv, chainInto_eq_ite]

/-- What the length check promises of a legal length, for either command (43_cbc.md R111). -/
theorem lengthChecked :
    t.err = .none ∧ (∀ b, b < s.len.toNat / 16 → (memBlock t.mem b).isSome = true)
      ∧ (∀ a, a < 0x1000 ∨ 0x1000 + s.len.toNat ≤ a → memRead t.mem a = memRead s.mem a)
      ∧ (s.len = 0 → t.mem = s.mem ∧ t.cv = s.iv) := by
  refine ⟨by rw [h.state, complete_err], fun b hb => ?_, h.frame, fun h0 => ⟨h.empty h0, ?_⟩⟩
  · rw [h.writes hb, Option.isSome_some]
  · rw [h.cv, h0]
    rfl

end CbcResult

/-- The completion of a loop `r` over the blocks below `LEN` div 16 is such a result. -/
theorem cbcResult_of_loop {out : Quad → Quad → Quad} {s : State} {r : Quad × State} {x q v : Nat → Quad}
    (hl : lenLegal s.cfg s.len = true)
    (hblocks : ChainedBlocks out s.mem r.2.mem 0 (cbcBlocks s.len) s.iv x q v)
    (hlast : r.1 = chainInto s.iv v (cbcBlocks s.len))
    (hframe : ∀ {a}, a < dbufOffset (blockStart 0) ∨ dbufOffset (blockStart 0) + 16 * cbcBlocks s.len ≤ a →
      memRead r.2.mem a = memRead s.mem a)
    (hempty : s.len = 0 → r.2.mem = s.mem)
    (hstate : ∃ d m, r.2 = { s with draws := d, mem := m }) :
    CbcResult out s (complete .none { r.2 with cv := r.1 }) x q v := by
  obtain ⟨hmod, -⟩ := lenLegal_iff.mp hl
  refine ⟨hblocks, hlast, fun a ha => hframe ?_, hempty, ?_⟩
  · simp only [dbufOffset, blockStart, cbcBlocks]
    omega
  · obtain ⟨d, m, e⟩ := hstate
    rw [e]
    rfl

/-- `CBC_ENC` completes the encryption loop (43_cbc.md R112). -/
theorem exec_cbcEnc_of_legal {s : State} (hv : s.ksValid = true) (hl : lenLegal s.cfg s.len = true) :
    ∃ t x y, exec .cbcEnc s = .next t ∧ CbcResult (cbcEncOut s) s t x y y := by
  obtain ⟨x, y, hblocks, hlast⟩ := cbcEncLoop_chained (cbcBlocks s.len) 0 s.iv s
  refine ⟨_, x, y, ?_, cbcResult_of_loop hl hblocks hlast (cbcEncLoop_frame _ 0 _ s) (fun h => ?_)
    (cbcEncLoop_state _ 0 _ s)⟩
  · simp [exec, execCbcEnc, hv, hl]
  · rw [h]
    rfl

/-- `CBC_DEC` completes the decryption loop (43_cbc.md R113). -/
theorem exec_cbcDec_of_legal {s : State} (hv : s.ksValid = true) (hl : lenLegal s.cfg s.len = true) :
    ∃ t x q, exec .cbcDec s = .next t ∧ CbcResult (cbcDecOut s) s t x q x := by
  obtain ⟨x, q, hblocks, hlast⟩ := cbcDecLoop_chained (cbcBlocks s.len) 0 s.iv s
  refine ⟨_, x, q, ?_, cbcResult_of_loop hl hblocks hlast (cbcDecLoop_frame _ 0 _ s) (fun h => ?_)
    (cbcDecLoop_state _ 0 _ s)⟩
  · simp [exec, execCbcDec, hv, hl]
  · rw [h]
    rfl

/-! ### An illegal length -/

theorem lenLegal_eq_false {s : State} (h : s.len.toNat % 16 ≠ 0 ∨ 16 * dbufBlocks s.cfg < s.len.toNat) :
    lenLegal s.cfg s.len = false := by
  rw [Bool.eq_false_iff, ne_eq, lenLegal_iff, dbufBytes]
  omega

theorem exec_cbcEnc_of_illegal {s : State} (hv : s.ksValid = true)
    (h : s.len.toNat % 16 ≠ 0 ∨ 16 * dbufBlocks s.cfg < s.len.toNat) :
    exec .cbcEnc s = .next (complete .blockLength s) := by simp [exec, execCbcEnc, hv, lenLegal_eq_false h]

theorem exec_cbcDec_of_illegal {s : State} (hv : s.ksValid = true)
    (h : s.len.toNat % 16 ≠ 0 ∨ 16 * dbufBlocks s.cfg < s.len.toNat) :
    exec .cbcDec s = .next (complete .blockLength s) := by simp [exec, execCbcDec, hv, lenLegal_eq_false h]

/-! ### The three commands -/

/-- Settles O36: `LOAD_IV` is this completion by definition, and its word is its encoding. -/
theorem loadIvCopiesTheIv : Obligations.LoadIvCopiesTheIv :=
  ⟨fun _ => rfl, decode_eq_ok_iff_eq_encode (i := .loadIv) rfl⟩

/-- Settles O40: in a run of `CBC_ENC` the value passed on from a block is the ciphertext written to it. -/
theorem cbcEncChainsCiphertext : Obligations.CbcEncChainsCiphertext := by
  refine ⟨fun s hv hmod hmax => ?_, fun _ => exec_cbcEnc_of_invalid, fun _ => exec_cbcEnc_of_illegal,
    decode_eq_ok_iff_eq_encode (i := .cbcEnc) rfl⟩
  obtain ⟨t, x, y, hexec, h⟩ := exec_cbcEnc_of_legal hv (lenLegal_iff.mpr ⟨hmod, hmax⟩)
  exact ⟨t, x, y, hexec, fun b hb => ⟨h.reads hb, h.writes hb, h.chained hb⟩, h.cv_eq_ite, h.frame, h.state⟩

/-- Settles O41: in a run of `CBC_DEC` the value passed on from a block is the ciphertext read from it. -/
theorem cbcDecChainsSavedCiphertext : Obligations.CbcDecChainsSavedCiphertext := by
  refine ⟨fun s hv hmod hmax => ?_, fun _ => exec_cbcDec_of_invalid, fun _ => exec_cbcDec_of_illegal,
    decode_eq_ok_iff_eq_encode (i := .cbcDec) rfl⟩
  obtain ⟨t, x, q, hexec, h⟩ := exec_cbcDec_of_legal hv (lenLegal_iff.mpr ⟨hmod, hmax⟩)
  refine ⟨t, x, hexec, fun b hb => ⟨h.reads hb, ?_⟩, h.cv_eq_ite, h.frame, h.state⟩
  exact (h.writes hb).trans (congrArg some (h.chained hb))

/-- Settles O39: a legal length gives either command's run, an illegal one the error. -/
theorem cbcChecksTheLength : Obligations.CbcChecksTheLength := by
  rintro i s (rfl | rfl) hv
  · refine ⟨exec_cbcEnc_of_illegal hv, fun hmod hmax => ?_⟩
    obtain ⟨t, x, y, hexec, hresult⟩ := exec_cbcEnc_of_legal hv (lenLegal_iff.mpr ⟨hmod, hmax⟩)
    exact ⟨t, hexec, hresult.lengthChecked⟩
  · refine ⟨exec_cbcDec_of_illegal hv, fun hmod hmax => ?_⟩
    obtain ⟨t, x, q, hexec, hresult⟩ := exec_cbcDec_of_legal hv (lenLegal_iff.mpr ⟨hmod, hmax⟩)
    exact ⟨t, hexec, hresult.lengthChecked⟩

end Machine
end Sys2Proof
end

section
/-! PROOFS, 44_control.md. The write of `CMD` as a bus access, and `NOP` as the one command whose `OP` is 0. -/

namespace Sys2Proof
namespace Machine

/-! ### The write of `CMD` -/

/-- A word-wide write at offset 0x010 is the write of `CMD` (20_memory.md R43, R44). -/
theorem busWrite_cmd (s : State) (w : Word) :
    busWrite (s.cfg.aesBase + 0x010) 4 w s = .next { writeLoc .cmd w s with response := .written } :=
  busWrite_legal s w (by decide) rfl

theorem writeLoc_cmd_idle {s : State} (hb : s.busy = false) (w : Word) :
    writeLoc .cmd w s = { s with pending := some w, busy := true } := unlessBusy_idle hb

theorem writeLoc_cmd_busy {s : State} (hb : s.busy = true) (w : Word) :
    writeLoc .cmd w s = { s with irq := s.irq ||| ovrBit } := unlessBusy_busy hb

/-- Settles O25: the access reaches `CMD`, which looks at `BUSY` and not at the word. -/
theorem cmdWriteLatchesTheWord : Obligations.CmdWriteLatchesTheWord := by
  intro s w
  rw [busWrite_cmd]
  constructor
  · intro hb
    rw [writeLoc_cmd_idle hb]
  · intro hb
    rw [writeLoc_cmd_busy hb]
    rfl

/-! ### `NOP` -/

/-- `NOP` is the only command with `OP = 0` (30_encoding.md R61). -/
theorem eq_nop_of_opField_encode {i : Instr} (h : opField (encode i) = 0) : i = .nop := by
  cases i with
  | nop => rfl
  | expandKey | loadIv | blkEnc b | blkDec b | cbcEnc | cbcDec => simp [encode, commandWord_fields] at h

/-- The word 0 is the only legal one with `OP = 0`. -/
theorem eq_zero_of_decode_ok {w : Word} {i : Instr} (h : decode w = .ok i) (hop : opField w = 0) : w = 0 := by
  obtain ⟨-, rfl⟩ := decode_eq_ok_iff.mp h
  rw [eq_nop_of_opField_encode hop]
  rfl

/-- Settles O32: `NOP` is a bare completion, and a word with `OP = 0` that decodes is the word 0. -/
theorem nopOnlyCompletes : Obligations.NopOnlyCompletes := by
  refine ⟨fun _ => rfl, decode_nop, fun w hop hne => ?_⟩
  cases hd : decode w with
  | error e => exact ⟨e, rfl⟩
  | ok i => exact absurd (eq_zero_of_decode_ok hd hop) hne

end Machine
end Sys2Proof
end

section
/-! PROOFS, 60_exceptions.md. The code of a completion, what a completion with an error changes, which agent raises which
interrupt source, and the interrupt line bit by bit. -/

namespace Sys2Proof
namespace Machine

/-! ### A completion with an error -/

theorem completionBits_of_error {c : ErrCode} (hc : c ≠ .none) : completionBits c = 0b011 := by
  cases c with
  | none => exact absurd rfl hc
  | illegalCmd | keyLength | blockLength | noSchedule | blkRange => rfl

/-- A completion with an error, of a command that then had no effect, is the old state with the marks of that completion
(60_exceptions.md R131). -/
theorem eq_of_error_completion {s t u : State} {c : ErrCode} (hu : c ≠ .none → u = s) (ht : t = complete c u)
    (herr : t.err ≠ .none) :
    t = { s with err := t.err, irq := s.irq ||| 0b011, busy := false, pending := none,
                 engineTurns := s.engineTurns + 1, waited := 0 } := by
  subst ht
  rw [complete_err] at herr ⊢
  rw [hu herr, ← completionBits_of_error herr]
  rfl

/-- Settles O27: a code other than 0 goes with no effect, for a command and for a word alike. -/
theorem errorsChangeNothingElse : Obligations.ErrorsChangeNothingElse := by
  constructor
  · intro i s t h
    obtain ⟨c, u, hexec, -, hu⟩ := exec_cases i s
    exact eq_of_error_completion hu (Host.Outcome.next.inj (h.symm.trans hexec))
  · intro w s t h
    obtain ⟨-, c, u, hword, -, hu, -⟩ := completeWord_cases w s
    exact eq_of_error_completion hu (Host.Outcome.next.inj (h.symm.trans hword))

/-! ### The code of a completion -/

/-- The outcome is a completion with code `c`, whatever the command did before it. -/
def CompletesWith (c : ErrCode) (o : Host.Outcome State Fault Refusal) : Prop := ∃ u, o = .next (complete c u)

theorem CompletesWith.err_eq {c : ErrCode} {o : Host.Outcome State Fault Refusal} {t : State} (hc : CompletesWith c o)
    (ht : o = .next t) : t.err = c := by
  obtain ⟨u, rfl⟩ := hc
  rw [← Host.Outcome.next.inj ht, complete_err]

/-- The order of a cipher command's checks: first the schedule, then its own operand (60_exceptions.md R132). -/
theorem completesWith_cipherChecks {s : State} {o : Host.Outcome State Fault Refusal} {bad : Prop} [Decidable bad]
    {e : ErrCode} (hinvalid : s.ksValid = false → o = .next (complete .noSchedule s))
    (hbad : s.ksValid = true → bad → o = .next (complete e s))
    (hgood : s.ksValid = true → ¬ bad → CompletesWith .none o) :
    CompletesWith (if s.ksValid = false then .noSchedule else if bad then e else .none) o := by
  cases hv : s.ksValid with
  | false => exact ⟨s, hinvalid hv⟩
  | true =>
    by_cases hb : bad
    · simpa [hb] using ⟨s, hbad hv hb⟩
    · simpa [hb] using hgood hv hb

theorem completesWith_blkEnc (s : State) (b : Nat) :
    CompletesWith (if s.ksValid = false then .noSchedule else if dbufBlocks s.cfg ≤ b then .blkRange else .none)
      (exec (.blkEnc b) s) := by
  refine completesWith_cipherChecks (exec_blkEnc_of_invalid · b) exec_blkEnc_out_of_range fun hv hb => ?_
  obtain ⟨t, x, d, hexec, -, rfl⟩ := exec_blkEnc_of_exists hv (not_le.mp hb)
  exact ⟨_, hexec⟩

theorem completesWith_blkDec (s : State) (b : Nat) :
    CompletesWith (if s.ksValid = false then .noSchedule else if dbufBlocks s.cfg ≤ b then .blkRange else .none)
      (exec (.blkDec b) s) := by
  refine completesWith_cipherChecks (exec_blkDec_of_invalid · b) exec_blkDec_out_of_range fun hv hb => ?_
  obtain ⟨t, x, d, hexec, -, rfl⟩ := exec_blkDec_of_exists hv (not_le.mp hb)
  exact ⟨_, hexec⟩

theorem lenLegal_of_not_illegal {s : State} (h : ¬ (s.len.toNat % 16 ≠ 0 ∨ 16 * dbufBlocks s.cfg < s.len.toNat)) :
    lenLegal s.cfg s.len = true := by
  obtain ⟨hmod, hmax⟩ := not_or.mp h
  exact lenLegal_iff.mpr ⟨not_not.mp hmod, not_lt.mp hmax⟩

theorem completesWith_cbcEnc (s : State) :
    CompletesWith (if s.ksValid = false then .noSchedule
      else if s.len.toNat % 16 ≠ 0 ∨ 16 * dbufBlocks s.cfg < s.len.toNat then .blockLength else .none)
      (exec .cbcEnc s) := by
  refine completesWith_cipherChecks exec_cbcEnc_of_invalid exec_cbcEnc_of_illegal fun hv hl => ?_
  obtain ⟨t, x, y, hexec, hresult⟩ := exec_cbcEnc_of_legal hv (lenLegal_of_not_illegal hl)
  exact ⟨_, hexec.trans (congrArg _ hresult.state)⟩

theorem completesWith_cbcDec (s : State) :
    CompletesWith (if s.ksValid = false then .noSchedule
      else if s.len.toNat % 16 ≠ 0 ∨ 16 * dbufBlocks s.cfg < s.len.toNat then .blockLength else .none)
      (exec .cbcDec s) := by
  refine completesWith_cipherChecks exec_cbcDec_of_invalid exec_cbcDec_of_illegal fun hv hl => ?_
  obtain ⟨t, x, q, hexec, hresult⟩ := exec_cbcDec_of_legal hv (lenLegal_of_not_illegal hl)
  exact ⟨_, hexec.trans (congrArg _ hresult.state)⟩

theorem completesWith_expandKey (s : State) :
    CompletesWith (if s.keylen.toNat = 16 ∨ s.keylen.toNat = 24 ∨ s.keylen.toNat = 32 then .none else .keyLength)
      (exec .expandKey s) := by
  cases hk : keyWords s.keylen with
  | none =>
    have hlen : ¬ (s.keylen.toNat = 16 ∨ s.keylen.toNat = 24 ∨ s.keylen.toNat = 32) := by
      rintro (h | h | h) <;> simp [keyWords, h] at hk
    rw [if_neg hlen]
    exact ⟨s, exec_expandKey_of_illegal hk⟩
  | some nk =>
    obtain ⟨hnk, hlen⟩ := keyWords_cases hk
    rw [if_pos (by omega)]
    exact ⟨_, exec_expandKey_of_legal hk⟩

theorem completeWord_of_ok {w : Word} {i : Instr} (h : decode w = .ok i) (s : State) : completeWord w s = exec i s := by
  simp only [completeWord, h]

/-! ### Which agent raises which source -/

/-- A completion leaves `OVR` alone (44_control.md R121). -/
theorem completionBits_ovr (c : ErrCode) : (completionBits c).getLsbD 2 = false := by
  cases c <;> rfl

theorem engineStep_keeps_ovr {s t : State} (h : engineStep s = .next t) : t.irq.getLsbD 2 = s.irq.getLsbD 2 := by
  rcases engineStep_cases h with ⟨-, rfl⟩ | ⟨-, -, rfl⟩ | ⟨w, i, c, u, -, -, -, rfl, he, -, -⟩
  · rfl
  · rfl
  · have hirq : u.irq = s.irq := by rw [commandEffect_frame he]
    rw [complete_irq, BitVec.getLsbD_or, completionBits_ovr, Bool.or_false, hirq]

/-- A write of a location sets no bit of `IRQ_STATUS` but `OVR` (20_memory.md R47, R49). -/
theorem writeEffect_raises_only_ovr {s u : State} {v : Word} {l : Loc} {k : Nat} (he : WriteEffect s v l u)
    (hk : k < 2) (hu : u.irq.getLsbD k = true) : s.irq.getLsbD k = true := by
  cases he with
  | ignored | ctrl | cmd | keylen | len | key | iv | dbuf => exact hu
  | dropped hb =>
    have hovr : ovrBit.getLsbD k = false := by interval_cases k <;> rfl
    simpa [hovr] using hu
  | irqStatus =>
    rw [writeOneToClear, BitVec.getLsbD_and, Bool.and_eq_true] at hu
    exact hu.1

/-- A HOST step sets no bit of `IRQ_STATUS` but `OVR`. -/
theorem hostEffect_raises_only_ovr {s t : State} {k : Nat} (h : HostEffect s t) (hk : k < 2)
    (ht : t.irq.getLsbD k = true) : s.irq.getLsbD k = true := by
  cases h with
  | idle => exact ht
  | read | wait | outside => rwa [← hostTick_irq]
  | write _ _ _ _ _ _ _ u he => simpa only [hostTick_irq] using writeEffect_raises_only_ovr he hk ht
  | reset rest hi => simp [State.reset] at ht

/-- Settles O28: each command's checks stand in the fixed order; the ENGINE never raises `OVR`, and the HOST raises
nothing else. -/
theorem errorPriorityIsFixed : Obligations.ErrorPriorityIsFixed := by
  constructor
  · intro w s t h
    cases hd : decode w with
    | error e => exact CompletesWith.err_eq ⟨s, completeWord_of_error hd s⟩ h
    | ok i =>
      rw [completeWord_of_ok hd] at h
      cases i with
      | nop => exact CompletesWith.err_eq ⟨s, rfl⟩ h
      | loadIv => exact CompletesWith.err_eq ⟨_, rfl⟩ h
      | expandKey => exact (completesWith_expandKey s).err_eq h
      | blkEnc b => exact (completesWith_blkEnc s b).err_eq h
      | blkDec b => exact (completesWith_blkDec s b).err_eq h
      | cbcEnc => exact (completesWith_cbcEnc s).err_eq h
      | cbcDec => exact (completesWith_cbcDec s).err_eq h
  · rintro s t h ⟨hovr, hovr', hrise⟩
    rcases step_cases h with ⟨-, hengine⟩ | ⟨-, hhost⟩
    · rw [engineStep_keeps_ovr hengine, hovr] at hovr'
      exact Bool.false_ne_true hovr'
    · have keeps {k : Nat} (hk : k < 2) : ¬ (s.irq.getLsbD k = false ∧ t.irq.getLsbD k = true) := fun ⟨hs, ht⟩ =>
        Bool.false_ne_true (hs.symm.trans (hostEffect_raises_only_ovr hhost hk ht))
      exact hrise.elim (keeps (by decide)) (keeps (by decide))

/-! ### The interrupt line -/

theorem decide_ne_zero_eq_or_bits :
    ∀ x : BitVec 3, decide (x ≠ 0) = (x.getLsbD 0 || x.getLsbD 1 || x.getLsbD 2) := by decide

/-- Settles O29: three bits are not all 0 when one of them is 1, and each bit of an AND is the AND of the bits. -/
theorem irqLineIsPendingAndEnabled : Obligations.IrqLineIsPendingAndEnabled := by
  intro s
  rw [irqLine, decide_ne_zero_eq_or_bits]
  simp only [BitVec.getLsbD_and]

end Machine
end Sys2Proof
end

section
/-! PROOFS, 70_reset_and_hazards.md. The time between a reset and the table-generation step. -/

namespace Sys2Proof
namespace Machine

/-! ### While table generation is pending -/

theorem latchedWord_generating {s : State} (hg : s.genPending = true) : latchedWord s = none := by
  simp [latchedWord, hg]

theorem engineStep_generating {s : State} (hg : s.genPending = true) : engineStep s = .next (tableStep s) := by
  simp [engineStep, hg]

/-! ### Before the tables are ready -/

/-- Every word of a generated table reads as a draw until the tables are ready (10_state.md R37). -/
theorem unlessHidden_tablesHidden_of_not_ready {s : State} (hr : s.tablesReady = false) (w : Word) :
    unlessHidden (tablesHidden s) w = none := by
  simp [unlessHidden, tablesHidden, hr]

/-! ### `STATUS` -/

theorem locValue_status (s : State) : locValue s .status =
    some (BitVec.ofNat 32 (s.busy.toNat + 2 * s.tablesReady.toNat + 4 * s.ksValid.toNat)) := by
  rw [locValue, statusWord]
  cases s.busy <;> cases s.tablesReady <;> cases s.ksValid <;> rfl

/-- Settles O3: the reset state is busy with table generation pending, so the ENGINE generates the tables and the HOST's
command inputs are dropped as in any busy state; no table is ready, so each of its words reads as a draw. -/
theorem afterResetTablesComeFirst : Obligations.AfterResetTablesComeFirst := by
  intro cfg l r
  have dropped (u : State) : unlessBusy r u = { r with irq := 0b100 } := by
    have hovr : r.irq ||| ovrBit = 0b100 := BitVec.zero_or
    rw [unlessBusy_busy rfl, hovr]
  have hidden (w : Word) : unlessHidden (tablesHidden r) w = none := unlessHidden_tablesHidden_of_not_ready rfl w
  refine ⟨latchedWord_generating rfl, ⟨tableStep r, engineStep_generating rfl, rfl, ?_⟩, ?_, ?_, ?_, ?_⟩
  · exact locValue_status (tableStep r)
  · exact locValue_status r
  · exact fun v => ⟨dropped _, dropped _, dropped _, fun _ => dropped _, fun _ => dropped _, fun _ => dropped _⟩
  · exact fun b => ⟨hidden _, hidden _⟩
  · exact fun k b => ⟨hidden _, hidden _⟩

end Machine
end Sys2Proof
end

section
/-! PROOFS, the model as a whole. The ciphers as textbook ciphers, the invariant and what a step of either agent may change,
GF(2^8) and the walk, the commands on DBUF, the address map and the registers, and the schedule that no one may see. -/

namespace Sys2Proof
namespace Machine

/-! ### The table rounds as textbook rounds -/

/-- One row of a circulant product is a sum of products with the bytes of the column, so the whole is linear. -/
theorem textCirculant_xor (c0 c1 c2 c3 : Byte) (v w : Word) :
    textCirculant c0 c1 c2 c3 (v ^^^ w) = textCirculant c0 c1 c2 c3 v ^^^ textCirculant c0 c1 c2 c3 w := by
  simp only [textCirculant, byteK_xor, gmul_xor_left, pack_xor]
  congr 1 <;> ac_rfl

theorem textMixColumn_xor (v w : Word) : textMixColumn (v ^^^ w) = textMixColumn v ^^^ textMixColumn w :=
  textCirculant_xor _ _ _ _ v w

theorem textInvMixColumn_xor (v w : Word) : textInvMixColumn (v ^^^ w) = textInvMixColumn v ^^^ textInvMixColumn w :=
  textCirculant_xor _ _ _ _ v w

/-- The four `SUB_MIX` columns of a column add up to its MixColumns (40_tables.md R76, R77). -/
theorem mixEntry_sum (a b c d : Byte) :
    mixEntry a ^^^ rotr32 (mixEntry b) 8 ^^^ rotr32 (mixEntry c) 16 ^^^ rotr32 (mixEntry d) 24
      = textMixColumn (pack a b c d) := by
  simp only [mixEntry, rotr32_pack_8, rotr32_pack_16, rotr32_pack_24, pack_xor, textMixColumn, textCirculant,
    byteK0_pack, byteK1_pack, byteK2_pack, byteK3_pack, gmul_one_right]

/-- The four `INV_SUB_MIX` columns of a column add up to its InvMixColumns (40_tables.md R76, R78). -/
theorem invMixEntry_sum (a b c d : Byte) :
    invMixEntry a ^^^ rotr32 (invMixEntry b) 8 ^^^ rotr32 (invMixEntry c) 16 ^^^ rotr32 (invMixEntry d) 24
      = textInvMixColumn (pack a b c d) := by
  simp only [invMixEntry, rotr32_pack_8, rotr32_pack_16, rotr32_pack_24, pack_xor, textInvMixColumn, textCirculant,
    byteK0_pack, byteK1_pack, byteK2_pack, byteK3_pack]

theorem mixColumn_genTables (u : Tables) (a b c d : Word) :
    mixColumn (genTables u) a b c d = textMixColumn (subColumn (genTables u) a b c d) := by
  simp only [mixColumn, subColumn, genTables_sbox, genTables_subMix0, genTables_subMix1, genTables_subMix2,
    genTables_subMix3, mixEntry_sum]

theorem invMixColumn_genTables (u : Tables) (a b c d : Word) :
    invMixColumn (genTables u) a b c d = textInvMixColumn (invSubColumn (genTables u) a b c d) := by
  simp only [invMixColumn, invSubColumn, genTables_invSbox, genTables_invSubMix0, genTables_invSubMix1,
    genTables_invSubMix2, genTables_invSubMix3, invMixEntry_sum]

theorem invMixWord_eq_textInvMixColumn (u : Tables) (w : Word) :
    invMixWord (genTables u) w = textInvMixColumn w := by
  rw [invMixWord_genTables, invMixEntry_sum, pack_byteK]

/-- Looking bytes up after choosing them is choosing them from the looked-up words: ShiftRows after SubBytes. -/
theorem encFinal_eq (t : Tables) (s : Quad) : encFinal t s = textShiftRows (textSubBytes t s) := by
  simp only [encFinal, subColumn, textShiftRows, textSubBytes, textColumn, subWord, byteK0_pack, byteK1_pack,
    byteK2_pack, byteK3_pack]

theorem decFinal_eq (t : Tables) (s : Quad) : decFinal t s = textInvSubBytes t (textInvShiftRows s) := by
  simp only [decFinal, invSubColumn, textInvShiftRows, textInvSubBytes, textColumn, invSubWord, byteK0_pack,
    byteK1_pack, byteK2_pack, byteK3_pack]

theorem encMix_genTables (u : Tables) (s : Quad) :
    encMix (genTables u) s = textMixColumns (textShiftRows (textSubBytes (genTables u) s)) := by
  rw [← encFinal_eq]
  simp only [encMix, encFinal, mixColumn_genTables, textMixColumns]

theorem decMix_genTables (u : Tables) (s : Quad) :
    decMix (genTables u) s = textInvMixColumns (textInvSubBytes (genTables u) (textInvShiftRows s)) := by
  rw [← decFinal_eq]
  simp only [decMix, decFinal, invMixColumn_genTables, textInvMixColumns]

theorem encRounds_genTables (u : Tables) (ks : Vector Word 60) (n rd : Nat) (s : Quad) :
    encRounds (genTables u) ks n rd s = textRounds (genTables u) (roundKey ks) n rd s := by
  induction n generalizing rd s with
  | zero => rfl
  | succ n ih => rw [encRounds, textRounds, ih, encMix_genTables]

theorem encryptBlock_genTables (u : Tables) (ks : Vector Word 60) (nr : Nat) (x : Quad) :
    encryptBlock (genTables u) ks nr x = textCipher (genTables u) (roundKey ks) nr x := by
  rw [encryptBlock, textCipher, encRounds_genTables, encFinal_eq]

/-- Settles O45: round by round, the table lookups are SubBytes, ShiftRows and MixColumns. -/
theorem encryptBlockIsTheTextbookCipher : Obligations.EncryptBlockIsTheTextbookCipher :=
  encryptBlock_genTables

/-! ### The inverse rounds with the forward round keys -/

theorem textInvMixColumns_xor (p q : Quad) :
    textInvMixColumns (quadXor p q) = quadXor (textInvMixColumns p) (textInvMixColumns q) := by
  simp only [textInvMixColumns, quadXor, textInvMixColumn_xor]

/-- The round keys of `iks` are those of `ks` taken backwards, the interior ones through InvMixColumns
(41_key_schedule.md R89). -/
structure ReversedKeys (ks iks : Vector Word 60) (nr : Nat) : Prop where
  first : roundKey iks 0 = roundKey ks nr
  last : roundKey iks nr = roundKey ks 0
  interior : ∀ g, 1 ≤ g → g < nr → roundKey iks g = textInvMixColumns (roundKey ks (nr - g))

/-- InvMixColumns is linear, so it may be taken of the state and of the round key apart. -/
theorem decRounds_genTables (u : Tables) {ks iks : Vector Word 60} {nr : Nat} (h : ReversedKeys ks iks nr) (n rd : Nat)
    (hrd : 1 ≤ rd) (hn : rd + n = nr) (s : Quad) :
    decRounds (genTables u) iks n rd s = textInvRounds (genTables u) (roundKey ks) n s := by
  induction n generalizing rd s with
  | zero => rfl
  | succ n ih =>
    have hkey : nr - rd = n + 1 := by omega
    rw [decRounds, textInvRounds, ih (rd + 1) (by omega) (by omega), decMix_genTables, h.interior rd hrd (by omega), hkey,
      textInvMixColumns_xor]

theorem decryptBlock_genTables (u : Tables) {ks iks : Vector Word 60} {nr : Nat} (h : ReversedKeys ks iks nr)
    (hnr : 1 ≤ nr) (c : Quad) :
    decryptBlock (genTables u) iks nr c = textInvCipher (genTables u) (roundKey ks) nr c := by
  rw [decryptBlock, textInvCipher, decRounds_genTables u h (nr - 1) 1 le_rfl (by omega), decFinal_eq, h.first, h.last]

theorem Inv.reversedKeys {s : State} (h : Inv s) (hv : s.ksValid = true) :
    1 ≤ s.nr.toNat ∧ ReversedKeys s.ks s.iks s.nr.toNat := by
  obtain ⟨nk, hwords, hnr, hks, hiks⟩ := h.validKey hv
  obtain ⟨hk, -⟩ := keyWords_cases hwords
  have houter := inverse_outer_groups hk hks hiks
  have hinner := inverse_interior_groups hk hks hiks
  rw [hnr, roundsOf_toNat hk]
  refine ⟨by omega, ?_, ?_, fun g h1 hg => ?_⟩
  · simp only [roundKey, (houter 1 (by decide)).1, (houter 2 (by decide)).1, (houter 3 (by decide)).1]
    simpa using (houter 0 (by decide)).1
  · simp only [roundKey, (houter 1 (by decide)).2, (houter 2 (by decide)).2, (houter 3 (by decide)).2]
    simpa using (houter 0 (by decide)).2
  · have hg' : g ≤ nk + 5 := by omega
    rw [h.tables_of_valid hv] at hinner
    simp only [invMixWord_eq_textInvMixColumn] at hinner
    simp only [roundKey, textInvMixColumns, hinner g 1 h1 hg' (by decide), hinner g 2 h1 hg' (by decide),
      hinner g 3 h1 hg' (by decide)]
    simpa using hinner g 0 h1 hg' (by decide)

/-- Settles O46: `IKS` holds the round keys backwards, with InvMixColumns already taken of the interior ones. -/
theorem decryptBlockIsTheTextbookInverse : Obligations.DecryptBlockIsTheTextbookInverse := by
  intro s c hinv hv
  obtain ⟨hnr, hkeys⟩ := hinv.reversedKeys hv
  rw [hinv.tables_of_valid hv]
  exact decryptBlock_genTables _ hkeys hnr c

/-! ### The textbook rounds undo each other -/

/-- The column with `b` in row `k` and 0 in the other rows. -/
def atRow (k : Fin 4) (b : Byte) : Word :=
  match k with
  | 0 => pack b 0 0 0
  | 1 => pack 0 b 0 0
  | 2 => pack 0 0 b 0
  | 3 => pack 0 0 0 b

theorem atRow_xor (k : Fin 4) (a b : Byte) : atRow k (a ^^^ b) = atRow k a ^^^ atRow k b := by
  fin_cases k <;> simp [atRow, pack_xor]

theorem pack_eq_rows (a b c d : Byte) : pack a b c d = atRow 0 a ^^^ atRow 1 b ^^^ atRow 2 c ^^^ atRow 3 d := by
  simp [atRow, pack_xor]

/-- A linear function that fixes every power of x in every row fixes every column. -/
theorem column_fixed {f : Word → Word} (hf : ∀ v w, f (v ^^^ w) = f v ^^^ f w)
    (h : ∀ (k : Fin 4) (i : Fin 8), f (atRow k (1 <<< i.val)) = atRow k (1 <<< i.val)) (w : Word) : f w = w := by
  have hrow (k : Fin 4) (b : Byte) : f (atRow k b) = atRow k b :=
    linear_ext (f := fun b => f (atRow k b)) (fun a b => by rw [atRow_xor, hf]) (atRow_xor k)
      ⟨h k 0, h k 1, h k 2, h k 3, h k 4, h k 5, h k 6, h k 7⟩ b
  rw [← pack_byteK w, pack_eq_rows]
  simp only [hf, hrow]

/-- The two circulant matrices are inverse to each other (40_tables.md R76). -/
theorem textInvMixColumn_textMixColumn (w : Word) : textInvMixColumn (textMixColumn w) = w :=
  column_fixed (f := fun w => textInvMixColumn (textMixColumn w))
    (fun v w => by rw [textMixColumn_xor, textInvMixColumn_xor]) (by decide +kernel) w

theorem textMixColumn_textInvMixColumn (w : Word) : textMixColumn (textInvMixColumn w) = w :=
  column_fixed (f := fun w => textMixColumn (textInvMixColumn w))
    (fun v w => by rw [textInvMixColumn_xor, textMixColumn_xor]) (by decide +kernel) w

@[simp] theorem textInvMixColumns_textMixColumns (s : Quad) : textInvMixColumns (textMixColumns s) = s := by
  simp only [textInvMixColumns, textMixColumns, textInvMixColumn_textMixColumn]

@[simp] theorem textMixColumns_textInvMixColumns (s : Quad) : textMixColumns (textInvMixColumns s) = s := by
  simp only [textInvMixColumns, textMixColumns, textMixColumn_textInvMixColumn]

@[simp] theorem textInvShiftRows_textShiftRows (s : Quad) : textInvShiftRows (textShiftRows s) = s := by
  simp only [textInvShiftRows, textShiftRows, textColumn, byteK0_pack, byteK1_pack, byteK2_pack, byteK3_pack, pack_byteK]

@[simp] theorem textShiftRows_textInvShiftRows (s : Quad) : textShiftRows (textInvShiftRows s) = s := by
  simp only [textInvShiftRows, textShiftRows, textColumn, byteK0_pack, byteK1_pack, byteK2_pack, byteK3_pack, pack_byteK]

@[simp] theorem textInvSubBytes_textSubBytes (u : Tables) (s : Quad) :
    textInvSubBytes (genTables u) (textSubBytes (genTables u) s) = s := by
  simp only [textInvSubBytes, textSubBytes, invSubWord, subWord, genTables_sbox, genTables_invSbox, byteK0_pack,
    byteK1_pack, byteK2_pack, byteK3_pack, specInvSbox_specSbox, pack_byteK]

@[simp] theorem textSubBytes_textInvSubBytes (u : Tables) (s : Quad) :
    textSubBytes (genTables u) (textInvSubBytes (genTables u) s) = s := by
  simp only [textInvSubBytes, textSubBytes, invSubWord, subWord, genTables_sbox, genTables_invSbox, byteK0_pack,
    byteK1_pack, byteK2_pack, byteK3_pack, specSbox_specInvSbox, pack_byteK]

/-- The rounds with the last of them taken off, where the inverse cipher begins. -/
theorem textRounds_succ (t : Tables) (key : Nat → Quad) (n rd : Nat) (s : Quad) :
    textRounds t key (n + 1) rd s
      = quadXor (textMixColumns (textShiftRows (textSubBytes t (textRounds t key n rd s)))) (key (rd + n)) := by
  induction n generalizing rd s with
  | zero => rfl
  | succ n ih => rw [textRounds, ih, textRounds, Nat.add_right_comm, Nat.add_assoc]

/-- The inverse rounds undo the rounds, both seen after SubBytes and ShiftRows. -/
theorem textInvRounds_textRounds (u : Tables) (key : Nat → Quad) (n : Nat) (s : Quad) :
    textInvRounds (genTables u) key n (textShiftRows (textSubBytes (genTables u) (textRounds (genTables u) key n 1 s)))
      = textShiftRows (textSubBytes (genTables u) s) := by
  induction n with
  | zero => rfl
  | succ n ih =>
    rw [textRounds_succ, textInvRounds, textInvShiftRows_textShiftRows, textInvSubBytes_textSubBytes, Nat.add_comm 1 n,
      quadXor_self_right, textInvMixColumns_textMixColumns, ih]

/-- The rounds undo the inverse rounds, both seen before InvSubBytes and InvShiftRows. -/
theorem textRounds_textInvRounds (u : Tables) (key : Nat → Quad) (n : Nat) (s : Quad) :
    textRounds (genTables u) key n 1
        (textInvSubBytes (genTables u) (textInvShiftRows (textInvRounds (genTables u) key n s)))
      = textInvSubBytes (genTables u) (textInvShiftRows s) := by
  induction n generalizing s with
  | zero => rfl
  | succ n ih =>
    rw [textRounds_succ, textInvRounds, ih, textSubBytes_textInvSubBytes, textShiftRows_textInvShiftRows,
      Nat.add_comm 1 n, textMixColumns_textInvMixColumns, quadXor_self_right]

theorem textInvCipher_textCipher (u : Tables) (key : Nat → Quad) (nr : Nat) (x : Quad) :
    textInvCipher (genTables u) key nr (textCipher (genTables u) key nr x) = x := by
  rw [textInvCipher, textCipher, quadXor_self_right, textInvRounds_textRounds, textInvShiftRows_textShiftRows,
    textInvSubBytes_textSubBytes, quadXor_self_right]

theorem textCipher_textInvCipher (u : Tables) (key : Nat → Quad) (nr : Nat) (c : Quad) :
    textCipher (genTables u) key nr (textInvCipher (genTables u) key nr c) = c := by
  rw [textInvCipher, textCipher, quadXor_self_right, textRounds_textInvRounds, textSubBytes_textInvSubBytes,
    textShiftRows_textInvShiftRows, quadXor_self_right]

/-- Settles O44: both transforms are textbook ciphers over the same round keys, and those undo each other. -/
theorem decryptBlockUndoesEncryptBlock : Obligations.DecryptBlockUndoesEncryptBlock := by
  intro s x hinv hv
  obtain ⟨hnr, hkeys⟩ := hinv.reversedKeys hv
  simp only [hinv.tables_of_valid hv, encryptBlock_genTables, decryptBlock_genTables _ hkeys hnr]
  exact ⟨textInvCipher_textCipher _ _ _ x, textCipher_textInvCipher _ _ _ x⟩

/-! ### The invariant -/

/-- At reset DBUF is empty, table generation is pending, and no schedule is valid (70_reset_and_hazards.md R150). -/
theorem inv_resetDevice (s : State) : Inv (resetDevice s) where
  memWf := rfl
  memIn := rfl
  memWhole _ _ _ := rfl
  busyIff := ⟨fun _ => .inl rfl, fun _ => rfl⟩
  genAlone _ := rfl
  readyIff := rfl
  tablesGen := nofun
  validReady := nofun
  validKey := nofun

/-- The part of a state that the invariant speaks of, the rest as at reset. -/
def invPart (s : State) : State :=
  { State.reset with
    cfg := s.cfg, busy := s.busy, tablesReady := s.tablesReady, ksValid := s.ksValid, keylen := s.keylen, key := s.key
    nr := s.nr, ks := s.ks, iks := s.iks, tables := s.tables, mem := s.mem, pending := s.pending
    genPending := s.genPending }

theorem inv_invPart_iff (s : State) : Inv (invPart s) ↔ Inv s := by
  constructor <;> intro h <;>
    exact ⟨h.memWf, h.memIn, h.memWhole, h.busyIff, h.genAlone, h.readyIff, h.tablesGen, h.validReady, h.validKey⟩

/-- The invariant says nothing of `CTRL`, the flags, `LEN`, `IV`, `CV` and the model's own fields. -/
theorem Inv.of_invPart_eq {s t : State} (h : Inv s) (e : invPart t = invPart s) : Inv t := by
  rw [← inv_invPart_iff, e, inv_invPart_iff]
  exact h

theorem Inv.memGood {s : State} (h : Inv s) : MemGood s.cfg s.mem := ⟨h.memWf, h.memIn, h.memWhole⟩

/-- Settles O4: what a platform reset leaves, in the reference configuration. -/
theorem resetMeetsTheInvariant : Obligations.ResetMeetsTheInvariant :=
  (inv_resetDevice State.reset).of_invPart_eq rfl

theorem inv_tableStep {s : State} (h : Inv s) (hg : s.genPending = true) : Inv (tableStep s) := by
  have hvalid : s.ksValid ≠ true := fun hv => by simpa [hg, h.validReady hv] using h.readyIff
  refine ⟨h.memWf, h.memIn, h.memWhole, ?_, nofun, rfl, fun _ => genTables_indep _ _, fun _ => rfl,
    fun hv => absurd hv hvalid⟩
  simp [h.genAlone hg]

/-- A command keeps the schedule that of the key: it leaves it alone, or it is `EXPAND_KEY` (41_key_schedule.md R88). -/
theorem commandEffect_scheduleIsOfKey {s u : State} {i : Instr} (h : s.ksValid = true → scheduleIsOfKey s)
    (he : CommandEffect s i u) (hv : u.ksValid = true) : scheduleIsOfKey u := by
  rcases commandEffect_schedule he with ⟨hks, hiks, hnr, hvalid⟩ | ⟨-, nk, hwords, rfl⟩
  · obtain ⟨nk, hwords, hnr', hks', hiks'⟩ := h (hvalid.symm.trans hv)
    have hframe := commandEffect_frame he
    rw [hframe]
    exact ⟨nk, hwords, hnr.trans hnr', hks.trans hks', hiks.trans hiks'⟩
  · exact ⟨nk, hwords, rfl, rfl, rfl⟩

theorem inv_complete {s u : State} {i : Instr} (h : Inv s) (hg : s.genPending = false) (c : ErrCode)
    (he : CommandEffect s i u) : Inv (complete c u) := by
  have hready : s.tablesReady = true := by simpa [hg] using h.readyIff
  have hgood := commandEffect_good he h.memGood
  have hkey := commandEffect_scheduleIsOfKey h.validKey he
  obtain ⟨mem, cv, ks, iks, nr, ksValid, draws, rfl⟩ : ∃ mem cv ks iks nr ksValid draws, u = { s with
      mem := mem, cv := cv, ks := ks, iks := iks, nr := nr, ksValid := ksValid, draws := draws } :=
    ⟨_, _, _, _, _, _, _, commandEffect_frame he⟩
  exact ⟨hgood.wf, hgood.inWindow, hgood.whole, by simp [hg], fun _ => rfl, h.readyIff, h.tablesGen,
    fun _ => hready, hkey⟩

theorem inv_engineStep {s t : State} (h : Inv s) (ht : engineStep s = .next t) : Inv t := by
  rcases engineStep_cases ht with ⟨hg, rfl⟩ | ⟨-, -, rfl⟩ | ⟨w, i, c, u, hg, -, -, rfl, he, -, -⟩
  · exact inv_tableStep h hg
  · exact h
  · exact inv_complete h hg c he

theorem inv_writeEffect {s u : State} {v : Word} {off : Nat} (h : Inv s) (hoff : off % 4 = 0)
    (he : WriteEffect s v (locate s.cfg off) u) : Inv u := by
  generalize hl : locate s.cfg off = l at he
  cases he with
  | ignored => exact h
  | dropped | ctrl | irqStatus | len | iv => exact h.of_invPart_eq rfl
  | cmd hb =>
    have hg : s.genPending = false := Bool.eq_false_iff.mpr fun hg => by simpa [hb] using h.busyIff.mpr (.inl hg)
    exact ⟨h.memWf, h.memIn, h.memWhole, by simp, by simp [hg], h.readyIff, h.tablesGen, h.validReady, h.validKey⟩
  | keylen | key =>
    exact ⟨h.memWf, h.memIn, h.memWhole, h.busyIff, h.genAlone, h.readyIff, h.tablesGen, nofun, nofun⟩
  | dbuf n =>
    have hgood := memWriteWord_good v (locate_dbuf hoff hl) h.memGood
    exact ⟨hgood.wf, hgood.inWindow, hgood.whole, h.busyIff, h.genAlone, h.readyIff, h.tablesGen, h.validReady,
      h.validKey⟩

theorem invPart_hostTick (s : State) : invPart (hostTick s) = invPart s := by rw [hostTick_eq]; rfl

theorem inv_hostEffect {s t : State} (h : Inv s) (he : HostEffect s t) : Inv t := by
  cases he with
  | idle => exact h
  | read | wait | outside => exact h.of_invPart_eq (invPart_hostTick s)
  | write _ _ rest _ off _ ha u he =>
    have hticked : Inv { hostTick s with inputs := rest } := h.of_invPart_eq (invPart_hostTick s)
    have hu : Inv u := inv_writeEffect hticked ha (by simpa using he)
    exact hu.of_invPart_eq rfl
  | reset => exact inv_resetDevice _

/-- Settles O5: each agent's step is one of the effects of `engineStep_cases` and `HostEffect`, and each keeps `Inv`. -/
theorem everyStepKeepsTheInvariant : Obligations.EveryStepKeepsTheInvariant := by
  intro s t h ht
  rcases step_cases ht with ⟨-, he⟩ | ⟨-, he⟩
  · exact inv_engineStep h he
  · exact inv_hostEffect h he

/-! ### The ENGINE's delay -/

theorem step_of_engineMoves {s : State} (h : engineMoves s = true) : step s = engineStep s := by simp [step, h]

theorem step_of_not_engineMoves {s : State} (h : engineMoves s = false) : step s = hostStep s := by simp [step, h]

theorem engineMoves_of_no_inputs {s : State} (hi : s.inputs = []) (hen : engineEnabled s = true) :
    engineMoves s = true := by simp [engineMoves, hen, hi]

theorem engineMoves_of_waited {s : State} (hw : Config.engineDelay s.engineTurns ≤ s.waited)
    (hen : engineEnabled s = true) : engineMoves s = true := by simp [engineMoves, hen, hw]

/-- The outcome is a next state or a fault. -/
def Answers (o : Host.Outcome State Fault Refusal) : Prop := (∃ t, o = .next t) ∨ ∃ f, o = .fault f

theorem busRead_answers (addr size : Nat) (s : State) : Answers (busRead addr size s) := by
  unfold busRead
  split
  · exact .inl ⟨_, rfl⟩
  · split
    · exact .inl ⟨_, rfl⟩
    · exact .inr ⟨_, rfl⟩

theorem busWrite_answers (addr size : Nat) (v : Word) (s : State) : Answers (busWrite addr size v s) := by
  unfold busWrite
  split
  · exact .inl ⟨_, rfl⟩
  · split
    · exact .inl ⟨_, rfl⟩
    · exact .inr ⟨_, rfl⟩

/-- A HOST step answers a next state or a bus error (20_memory.md R45). -/
theorem hostStep_answers (s : State) : Answers (hostStep s) := by
  unfold hostStep
  split
  · exact .inl ⟨_, rfl⟩
  · exact busRead_answers ..
  · exact busWrite_answers ..
  · exact busRead_answers ..
  · exact .inl ⟨_, rfl⟩

/-- `t` is `s` one HOST step later, the ENGINE still enabled for the same operation and still waiting. -/
structure WaitsOne (s t : State) : Prop where
  enabled : engineEnabled t = engineEnabled s
  turns : t.engineTurns = s.engineTurns
  waited : t.waited = s.waited + 1
  inputs : t.inputs ⊆ s.inputs
  pending : t.pending = s.pending
  genPending : t.genPending = s.genPending

/-- A HOST access other than a reset leaves an enabled ENGINE enabled and is counted (44_control.md R123; log 5). -/
theorem hostEffect_waitsOne {s t : State} (hen : engineEnabled s = true) (hin : s.inputs ≠ [])
    (hr : BusInput.reset ∉ s.inputs) (h : HostEffect s t) : WaitsOne s t := by
  have htick : hostTick s = { s with waited := s.waited + 1 } := by rw [hostTick_eq, if_pos hen]
  cases h with
  | idle hi => exact absurd hi hin
  | read addr size rest hi =>
    rw [htick]
    exact ⟨rfl, rfl, rfl, hi ▸ List.subset_cons_self _ _, rfl, rfl⟩
  | wait rest hi =>
    rw [htick, if_pos (engineEnabled_busy hen), ← hi]
    exact ⟨rfl, rfl, rfl, List.Subset.refl _, rfl, rfl⟩
  | outside addr size v rest hi =>
    rw [htick]
    exact ⟨rfl, rfl, rfl, hi ▸ List.subset_cons_self _ _, rfl, rfl⟩
  | write addr v rest hi off _ _ u he =>
    obtain ⟨ctrl, irq, rfl⟩ := writeEffect_busy he (by simpa using engineEnabled_busy hen)
    rw [htick]
    exact ⟨rfl, rfl, rfl, hi ▸ List.subset_cons_self _ _, rfl, rfl⟩
  | reset rest hi => exact absurd (hi ▸ List.mem_cons_self) hr

/-- Settles O12: each HOST step takes one off what is left of the delay, and with none left the ENGINE moves. -/
theorem engineMovesWithinItsDelay : Obligations.EngineMovesWithinItsDelay := by
  intro s
  generalize hd : Config.engineDelay s.engineTurns - s.waited = d
  induction d generalizing s with
  | zero =>
    intro hen _ _
    have hmoves := engineMoves_of_waited (Nat.sub_eq_zero_iff_le.mp hd) hen
    exact ⟨0, s, le_rfl, rfl, hmoves, rfl, rfl⟩
  | succ d ih =>
    intro hen hr hfault
    cases hmoves : engineMoves s with
    | true => exact ⟨0, s, Nat.zero_le _, rfl, hmoves, rfl, rfl⟩
    | false =>
      have hstep := step_of_not_engineMoves hmoves
      have hin : s.inputs ≠ [] := fun hi => by simp [engineMoves_of_no_inputs hi hen] at hmoves
      obtain ⟨t, ht⟩ : ∃ t, step s = .next t := hstep ▸ (hostStep_answers s).resolve_right fun ⟨f, hf⟩ =>
        hfault 1 f (by omega) (by simp [stepN, hstep, hf])
      obtain ⟨hen', hturns, hwaited, hsub, hpending, hgen⟩ :=
        hostEffect_waitsOne hen hin hr (hostStep_cases (hstep ▸ ht))
      have hlater (k : Nat) : stepN (k + 1) s = stepN k t := by simp [stepN, ht]
      obtain ⟨k, u, hk, hu, hmoves', hpending', hgen'⟩ := ih t (by rw [hturns, hwaited]; omega) (hen'.trans hen)
        (fun h => hr (hsub h)) (fun k f hk => hlater k ▸ hfault (k + 1) f (by omega))
      exact ⟨k + 1, u, by omega, (hlater k).trans hu, hmoves', hpending'.trans hpending, hgen'.trans hgen⟩

/-! ### One step of either agent -/

/-- Settles O2: `resetDevice` does not look at what is pending. -/
theorem platformResetDiscardsEverything : Obligations.PlatformResetDiscardsEverything := by
  intro s rest hi
  exact ⟨by simp only [hostStep, hi]; rfl, step_of_not_engineMoves⟩

theorem engineStep_pending {s : State} {w : Word} (hg : s.genPending = false) (hp : s.pending = some w) :
    engineStep s = completeWord w s := by simp [engineStep, hg, hp]

/-- `withFetchWord` latches its word with the tables generated (log 13). -/
theorem withFetchWord_latched (s : State) (nbits w : Nat) :
    (s.withFetchWord nbits w).genPending = false ∧ (s.withFetchWord nbits w).pending = some (tableWord nbits w)
      ∧ engineEnabled (s.withFetchWord nbits w) = true ∧ (s.withFetchWord nbits w).inputs = [] := by
  have hg : (s.withFetchWord nbits w).genPending = false := by
    unfold State.withFetchWord placeCommand
    cases hs : s.genPending <;> simp [hs]
  exact ⟨hg, rfl, by simp [engineEnabled, State.withFetchWord, placeCommand], rfl⟩

/-- Settles O10: the ENGINE's step is `completeWord`, which is `exec` of what the word decodes to. -/
theorem stepRunsTheLatchedCommand : Obligations.StepRunsTheLatchedCommand := by
  refine ⟨fun s w i _ hg hp hd hm => ?_, fun s => engineMoves_of_no_inputs, fun s nbits w => ?_⟩
  · rw [step_of_engineMoves hm, engineStep_pending hg hp, completeWord_of_ok hd]
  · obtain ⟨hg, hp, hen, hi⟩ := withFetchWord_latched s nbits w
    rw [step_of_engineMoves (engineMoves_of_no_inputs hi hen), engineStep_pending hg hp]

/-- Settles O58: with generation pending the ENGINE's step is `tableStep`. -/
theorem tableStepGeneratesTheTables : Obligations.TableStepGeneratesTheTables := by
  intro s _ hg hm
  rw [step_of_engineMoves hm, engineStep_generating hg]
  rfl

/-- A read of `STATUS`, which is never a draw (10_state.md R26). -/
theorem busRead_status (s : State) :
    busRead (s.cfg.aesBase + offsetOf .status) 4 s = .next { s with response := .data (statusWord s) } :=
  busRead_legal s (by decide) rfl

/-- Settles O11: the HOST's step by its next access; `wait` is a read of `STATUS`. -/
theorem stepRunsTheHostAccess : Obligations.StepRunsTheHostAccess := by
  intro s hm ticked
  have htick : hostTick s = ticked := hostTick_eq s
  rw [step_of_not_engineMoves hm]
  refine ⟨fun hi => ?_, fun addr size rest hi => ?_, fun addr size v rest hi => ?_, fun rest hi => ?_⟩
  · simp only [hostStep, hi]
  · simp only [hostStep, hi, htick]
  · simp only [hostStep, hi, htick]
  · simp only [hostStep, hi, htick]
    exact busRead_status { ticked with inputs := if s.busy then .wait :: rest else rest }

/-! ### What a HOST write may do, by its location -/

/-- A write takes effect at the address of its location (20_memory.md R43). -/
theorem addr_of_locate {cfg : Config.Params} {addr off : Nat} {l : Loc} (ho : busOffset cfg addr = some off)
    (ha : off % 4 = 0) (hl : locate cfg off = l) (hne : l ≠ .reserved) :
    off = offsetOf l ∧ addr = cfg.aesBase + offsetOf l := by
  have hoff := locate_offset (cfg := cfg) ha (hl ▸ hne)
  rw [hl] at hoff
  rw [hoff]
  exact ⟨rfl, (busOffset_some ho).1⟩

/-- Only a write of `IRQ_STATUS` with the bit 1 clears a pending source (10_state.md R27). -/
theorem writeEffect_clears_irq {s u : State} {v : Word} {l : Loc} {k : Nat} (he : WriteEffect s v l u) (hk : k < 3)
    (hs : s.irq.getLsbD k = true) (hu : u.irq.getLsbD k = false) : l = .irqStatus ∧ v.getLsbD k = true := by
  cases he with
  | ignored | ctrl | cmd | keylen | len | key | iv | dbuf => exact absurd (hs.symm.trans hu) (by decide)
  | dropped => simp [hs] at hu
  | irqStatus => exact ⟨rfl, by simpa [writeOneToClear, hs, hk] using hu⟩

theorem writeEffect_err {s u : State} {v : Word} {l : Loc} (he : WriteEffect s v l u) : u.err = s.err := by
  cases he <;> rfl

/-- Only a write of `CMD` sets `BUSY`, and it latches its word (44_control.md R120). -/
theorem writeEffect_wakes {s u : State} {v : Word} {l : Loc} (he : WriteEffect s v l u) (hs : s.busy = false)
    (hu : u.busy = true) : l = .cmd ∧ u.pending = some v := by
  cases he with
  | cmd => exact ⟨rfl, rfl⟩
  | ignored | dropped | ctrl | irqStatus | keylen | len | key | iv | dbuf => exact absurd (hs.symm.trans hu) (by decide)

/-- `t` has the schedule of `s`, and it is as valid. -/
def sameSchedule (s t : State) : Prop := t.ks = s.ks ∧ t.iks = s.iks ∧ t.nr = s.nr ∧ t.ksValid = s.ksValid

/-- Only an accepted write of `KEY` or `KEYLEN` touches the schedule (10_state.md R41). -/
theorem writeEffect_schedule {s u : State} {v : Word} {l : Loc} (he : WriteEffect s v l u) :
    sameSchedule s u ∨ (s.busy = false ∧ isKeyLoc l) := by
  cases he with
  | keylen hb => exact .inr ⟨hb, .inl rfl⟩
  | key i hb => exact .inr ⟨hb, .inr ⟨i, rfl⟩⟩
  | ignored | dropped | ctrl | irqStatus | cmd | len | iv | dbuf => exact .inl ⟨rfl, rfl, rfl, rfl⟩

/-! ### What stays through a step -/

/-- The ENGINE clears no pending source: a completion only sets bits (44_control.md R121; 40_tables.md R81). -/
theorem engineStep_keeps_irq {s t : State} (h : engineStep s = .next t) {k : Nat} (hs : s.irq.getLsbD k = true) :
    t.irq.getLsbD k = true := by
  rcases engineStep_cases h with ⟨-, rfl⟩ | ⟨-, -, rfl⟩ | ⟨w, i, c, u, -, -, -, rfl, he, -, -⟩
  · exact hs
  · exact hs
  · rw [complete_irq, BitVec.getLsbD_or, commandEffect_frame he, hs, Bool.true_or]

/-- A HOST step clears a pending source by a reset or a write of `IRQ_STATUS` only (60_exceptions.md R136). -/
theorem hostEffect_clears_irq {s t : State} {k : Nat} (h : HostEffect s t) (hk : k < 3) (hs : s.irq.getLsbD k = true)
    (ht : t.irq.getLsbD k = false) :
    s.inputs.head? = some .reset
      ∨ ∃ v, s.inputs.head? = some (.write (s.cfg.aesBase + 0x00C) 4 v) ∧ v.getLsbD k = true := by
  cases h with
  | idle => exact absurd (hs.symm.trans ht) (by decide)
  | read | wait | outside => simp [hs] at ht
  | write addr v rest hi off ho ha u he =>
    obtain ⟨hl, hv⟩ := writeEffect_clears_irq he hk (by simpa using hs) ht
    obtain ⟨-, rfl⟩ := addr_of_locate ho ha hl (by decide)
    exact .inr ⟨v, by rw [hi]; rfl, hv⟩
  | reset rest hi => exact .inl (by rw [hi]; rfl)

theorem engineStep_generating_err {s t : State} (h : engineStep s = .next t) (hg : s.genPending = true) :
    t.err = s.err := by
  rw [engineStep_generating hg] at h
  rw [← Host.Outcome.next.inj h, tableStep_err]

/-- Of the HOST's steps only a reset changes `ERR` (60_exceptions.md R136). -/
theorem hostEffect_err {s t : State} (h : HostEffect s t) : t.err = s.err ∨ s.inputs.head? = some .reset := by
  cases h with
  | idle => exact .inl rfl
  | read | wait | outside => exact .inl (hostTick_err s)
  | write _ _ _ _ _ _ _ u he => exact .inl ((writeEffect_err he).trans (hostTick_err s))
  | reset rest hi => exact .inr (by rw [hi]; rfl)

/-- Settles O30: a completion sets bits, and among the HOST's steps `IRQ_STATUS` is the only register that clears them. -/
theorem pendingSourcesAreSticky : Obligations.PendingSourcesAreSticky := by
  constructor
  · intro s t k hk h hs ht
    rcases step_cases h with ⟨-, he⟩ | ⟨-, he⟩
    · exact absurd ((engineStep_keeps_irq he hs).symm.trans ht) (by decide)
    · exact hostEffect_clears_irq he hk hs ht
  · intro s t h hne
    rcases step_cases h with ⟨hm, he⟩ | ⟨-, he⟩
    · exact .inr ⟨hm, Bool.eq_false_iff.mpr fun hg => hne (engineStep_generating_err he hg)⟩
    · exact .inl ((hostEffect_err he).resolve_left hne)

theorem hostEffect_wakes {s t : State} (h : HostEffect s t) (hs : s.busy = false) (ht : t.busy = true) :
    s.inputs.head? = some .reset
      ∨ ∃ v, s.inputs.head? = some (.write (s.cfg.aesBase + 0x010) 4 v) ∧ t.pending = some v := by
  cases h with
  | idle => exact absurd (hs.symm.trans ht) (by decide)
  | read | wait | outside => simp [hs] at ht
  | write addr v rest hi off ho ha u he =>
    obtain ⟨hl, hp⟩ := writeEffect_wakes he (by simpa using hs) ht
    obtain ⟨-, rfl⟩ := addr_of_locate ho ha hl (by decide)
    exact .inr ⟨v, by rw [hi]; rfl, hp⟩
  | reset rest hi => exact .inl (by rw [hi]; rfl)

/-- Settles O31: an idle device's ENGINE does not move, and of the HOST's accesses only these two set `BUSY`. -/
theorem onlyCmdWakesTheEngine : Obligations.OnlyCmdWakesTheEngine := by
  intro s t hs h ht
  rcases step_cases h with ⟨hm, -⟩ | ⟨-, he⟩
  · exact absurd ((engineEnabled_busy (engineMoves_enabled hm)).symm.trans hs) (by decide)
  · exact hostEffect_wakes he hs ht

/-- A command other than `EXPAND_KEY` leaves the schedule alone (41_key_schedule.md R88). -/
theorem exec_sameSchedule {i : Instr} {s t : State} (hi : i ≠ .expandKey) (h : exec i s = .next t) :
    sameSchedule s t := by
  obtain ⟨c, u, hexec, he, -⟩ := exec_cases i s
  obtain rfl := Host.Outcome.next.inj (hexec.symm.trans h)
  rcases commandEffect_schedule he with hsame | ⟨rfl, -⟩
  · exact hsame
  · exact absurd rfl hi

/-- The ENGINE writes the schedule in the completion of `EXPAND_KEY` only. -/
theorem engineStep_schedule {s t : State} (h : engineStep s = .next t) :
    sameSchedule s t ∨ ∃ w, s.pending = some w ∧ decode w = .ok .expandKey := by
  rcases engineStep_cases h with ⟨-, rfl⟩ | ⟨-, -, rfl⟩ | ⟨w, i, c, u, -, hp, -, rfl, he, -, hd⟩
  · exact .inl ⟨rfl, rfl, rfl, rfl⟩
  · exact .inl ⟨rfl, rfl, rfl, rfl⟩
  · by_cases hu : u = s
    · exact .inl (hu ▸ ⟨rfl, rfl, rfl, rfl⟩)
    · rcases commandEffect_schedule he with hsame | ⟨rfl, -⟩
      · exact .inl hsame
      · exact .inr ⟨w, hp, hd hu⟩

/-- A key location is at an offset of `KEYLEN` or `KEY` (20_memory.md R43). -/
theorem offsetOf_isKeyLoc {l : Loc} (h : isKeyLoc l) :
    l ≠ .reserved ∧ (offsetOf l = 0x018 ∨ (0x040 ≤ offsetOf l ∧ offsetOf l < 0x060)) := by
  obtain rfl | ⟨i, rfl⟩ := h
  · exact ⟨by decide, .inl rfl⟩
  · exact ⟨by simp, .inr ⟨by simp [offsetOf], by simp only [offsetOf]; omega⟩⟩

theorem hostEffect_schedule {s t : State} (h : HostEffect s t) :
    sameSchedule s t ∨ s.inputs.head? = some .reset
      ∨ (s.busy = false ∧ ∃ v off, s.inputs.head? = some (.write (s.cfg.aesBase + off) 4 v)
        ∧ (off = 0x018 ∨ (0x040 ≤ off ∧ off < 0x060))) := by
  cases h with
  | idle => exact .inl ⟨rfl, rfl, rfl, rfl⟩
  | read | wait | outside => exact .inl ⟨hostTick_ks s, hostTick_iks s, hostTick_nr s, hostTick_ksValid s⟩
  | write addr v rest hi off ho ha u he =>
    rcases writeEffect_schedule he with ⟨hks, hiks, hnr, hvalid⟩ | ⟨hb, hl⟩
    · exact .inl ⟨hks.trans (hostTick_ks s), hiks.trans (hostTick_iks s), hnr.trans (hostTick_nr s),
        hvalid.trans (hostTick_ksValid s)⟩
    · obtain ⟨hne, hoff⟩ := offsetOf_isKeyLoc hl
      obtain ⟨-, rfl⟩ := addr_of_locate ho ha rfl hne
      exact .inr (.inr ⟨by simpa using hb, v, _, by rw [hi]; rfl, hoff⟩)
  | reset rest hi => exact .inr (.inl (by rw [hi]; rfl))

/-- Settles O35: what each agent's step leaves of the schedule. -/
theorem validScheduleStaysUntilKeyWrite : Obligations.ValidScheduleStaysUntilKeyWrite := by
  refine ⟨fun s t h hv => ?_, fun i s t => exec_sameSchedule⟩
  rcases step_cases h with ⟨hm, he⟩ | ⟨-, he⟩
  · rcases engineStep_schedule he with ⟨hks, hiks, hnr, hvalid⟩ | hexpand
    · exact .inl ⟨hvalid.trans hv, hks, hiks, hnr⟩
    · exact .inr (.inr (.inl ⟨hm, hexpand⟩))
  · rcases hostEffect_schedule he with ⟨hks, hiks, hnr, hvalid⟩ | hreset | hwrite
    · exact .inl ⟨hvalid.trans hv, hks, hiks, hnr⟩
    · exact .inr (.inl hreset)
    · exact .inr (.inr (.inr hwrite))

/-! ### Words -/

/-- Settles O6: the decoder reads back the fields that the encoder sets. -/
theorem decodeUndoesEncode : Obligations.DecodeUndoesEncode := fun _ => decode_encode

/-- Settles O9: the legal words are encodings, and each of the others breaks one rule. -/
theorem writtenOutWordsDecode : Obligations.WrittenOutWordsDecode := by
  refine ⟨decode_encode (i := .nop) rfl, decode_encode (i := .expandKey) rfl, decode_encode (i := .loadIv) rfl,
    decode_encode (i := .blkEnc 255) rfl, decode_encode (i := .blkDec 3) rfl, decode_encode (i := .cbcEnc) rfl,
    decode_encode (i := .cbcDec) rfl, ?_⟩
  decide

/-! ### GF(2^8) and the walk -/

theorem gmul_two_right (b : Byte) : gmul b 2 = xtime b := calc
  gmul b 2 = gmul (xtime 1) b := gmul_comm b 2
  _ = xtime b := by rw [gmul_xtime_left, gmul_one_left]

/-- The walk of 40_tables.md R71, its bytes numbered. -/
theorem walkPairs_eq_map (n : Nat) (x xi : Byte) :
    walkPairs n x xi = (List.range n).map fun k => ((gmul · 0x03)^[k] x, (gmul · 0xF6)^[k] xi) := by
  induction n generalizing x xi with
  | zero => rfl
  | succ n ih => rw [walkPairs, ih, List.range_succ_eq_map, List.map_cons, List.map_map]; rfl

/-- Every byte other than 0 stands in the walk (40_tables.md R71). -/
theorem mem_walkList_of_ne_zero {b : Byte} (hb : b ≠ 0) : ∃ p ∈ walkList, p.1 = b := by
  obtain ⟨p, hp, rfl⟩ := List.mem_map.mp (genPairs_cover b)
  rcases List.mem_cons.mp hp with rfl | hp
  · exact absurd rfl hb
  · exact ⟨p, hp, rfl⟩

/-- Settles O53: the inverse of a byte stands beside it in the walk. -/
theorem gmulIsAFieldMultiplication : Obligations.GmulIsAFieldMultiplication := by
  refine ⟨gmul_comm, gmul_assoc, gmul_xor_right, gmul_one_right, gmul_two_right, fun b hb => ?_⟩
  obtain ⟨p, hp, rfl⟩ := mem_walkList_of_ne_zero hb
  exact ⟨p.2, walkList_inverse hp, fun c hc => eq_of_gmul_eq_one hc (walkList_inverse hp)⟩

/-- Byte `k` of the walk, a power of the generator. -/
def walkByte (k : Nat) : Byte := (gmul · 0x03)^[k] 0x01

theorem walk_inverse (k : Nat) : gmul (walkByte k) ((gmul · 0xF6)^[k] 0x01) = 1 := by
  have hmem : (walkByte k, (gmul · 0xF6)^[k] 0x01) ∈ walkPairs (k + 1) 0x01 0x01 := by
    rw [walkPairs_eq_map]
    exact List.mem_map_of_mem (List.mem_range.mpr (Nat.lt_succ_self k))
  have hinv := walkPairs_inverse (gmul_one_left 1) _ hmem
  exact hinv

theorem walkByte_ne_zero (k : Nat) : walkByte k ≠ 0 := fun h => by
  have hinv := walk_inverse k
  rw [h, gmul_zero_left] at hinv
  exact absurd hinv (by decide)

theorem walkByte_surjective {b : Byte} (hb : b ≠ 0) : ∃ k < 255, walkByte k = b := by
  obtain ⟨p, hp, rfl⟩ := mem_walkList_of_ne_zero hb
  rw [← walkPairs_eq, walkPairs_eq_map] at hp
  obtain ⟨k, hk, rfl⟩ := List.mem_map.mp hp
  exact ⟨k, List.mem_range.mp hk, rfl⟩

/-- 255 steps that reach 255 bytes reach none of them twice. -/
theorem walkByte_injOn : Set.InjOn (fun k => (walkByte k).toNat) (Finset.range 255) := by
  refine Finset.injOn_of_surjOn_of_card_le (t := Finset.Icc 1 255) _ (fun k _ => ?_) (fun n hn => ?_) (by simp)
  · have hne : (walkByte k).toNat ≠ 0 := fun h => walkByte_ne_zero k (BitVec.eq_of_toNat_eq h)
    have := (walkByte k).isLt
    simp only [Finset.coe_Icc, Set.mem_Icc]
    omega
  · simp only [Finset.coe_Icc, Set.mem_Icc] at hn
    have hto : (BitVec.ofNat 8 n).toNat = n := by rw [BitVec.toNat_ofNat]; omega
    obtain ⟨k, hk, hb⟩ := walkByte_surjective (b := BitVec.ofNat 8 n) fun h =>
      absurd (congrArg BitVec.toNat h) (by rw [hto]; exact Nat.ne_of_gt hn.1)
    exact ⟨k, by simpa using hk, by simp only [hb, hto]⟩

/-- Settles O54: the walk is the list of the generator's powers and their inverses, and covers every byte but 0. -/
theorem walkVisitsEveryByteOnce : Obligations.WalkVisitsEveryByteOnce := by
  refine ⟨walk_inverse, fun b hb => ?_, by decide +kernel⟩
  obtain ⟨k, hk, rfl⟩ := walkByte_surjective hb
  refine ⟨k, ⟨hk, rfl⟩, fun j ⟨hj, hjk⟩ => ?_⟩
  exact walkByte_injOn (by simpa using hj) (by simpa using hk) (congrArg BitVec.toNat hjk)

/-! ### What a command leaves unchanged -/

/-- No command reports `ILLEGAL_CMD`: that is the code of an illegal word (60_exceptions.md R130). -/
theorem exec_err_ne_illegalCmd {i : Instr} {s t : State} (h : exec i s = .next t) : t.err ≠ .illegalCmd := by
  cases i with
  | nop => rw [CompletesWith.err_eq ⟨s, rfl⟩ h]; decide
  | loadIv => rw [CompletesWith.err_eq ⟨_, rfl⟩ h]; decide
  | expandKey => rw [(completesWith_expandKey s).err_eq h]; split_ifs <;> decide
  | blkEnc b => rw [(completesWith_blkEnc s b).err_eq h]; split_ifs <;> decide
  | blkDec b => rw [(completesWith_blkDec s b).err_eq h]; split_ifs <;> decide
  | cbcEnc => rw [(completesWith_cbcEnc s).err_eq h]; split_ifs <;> decide
  | cbcDec => rw [(completesWith_cbcDec s).err_eq h]; split_ifs <;> decide

/-- `ERR` is set with every code but 0 (44_control.md R121). -/
theorem completionBits_eq (c : ErrCode) : completionBits c = if errValue c = 0 then 0b001 else 0b011 := by
  cases c <;> rfl

/-- Settles O26: either way the word's completion step is `complete`. -/
theorem everyWordCompletes : Obligations.EveryWordCompletes := by
  intro s w hg hp
  obtain ⟨i, c, u, hword, he, -, -⟩ := completeWord_cases w s
  refine ⟨complete c u, (engineStep_pending hg hp).trans hword, rfl, rfl, ?_, fun ⟨e, hd⟩ => ?_, fun j hd => ?_⟩
  · rw [complete_irq, complete_err, completionBits_eq, commandEffect_frame he]
  · rw [← Host.Outcome.next.inj ((completeWord_of_error hd s).symm.trans hword), complete_err]
  · have hexec := (completeWord_of_ok hd s).symm.trans hword
    exact ⟨hexec, exec_err_ne_illegalCmd hexec⟩

/-- `NOP` and `EXPAND_KEY` leave `CV`; they and `LOAD_IV` read no block, so they take no draw and write no byte
(20_memory.md R48, R50). -/
theorem commandEffect_blockless {s u : State} {i : Instr} (he : CommandEffect s i u) :
    ((i = .nop ∨ i = .expandKey) → u.cv = s.cv)
      ∧ ((i = .nop ∨ i = .expandKey ∨ i = .loadIv) → u.draws = s.draws ∧ u.mem = s.mem) := by
  cases he with
  | nothing => exact ⟨fun _ => rfl, fun _ => ⟨rfl, rfl⟩⟩
  | schedule nk h => exact ⟨fun _ => rfl, fun _ => ⟨rfl, rfl⟩⟩
  | loadIv => exact ⟨by simp, fun _ => ⟨rfl, rfl⟩⟩
  | blkEnc | blkDec | cbcEnc | cbcDec => simp

/-- Settles O42: a completion changes the fields of `CommandEffect` and its own marks, no other. -/
theorem commandsKeepOtherRegisters : Obligations.CommandsKeepOtherRegisters := by
  intro i s t h
  obtain ⟨c, u, hexec, he, -⟩ := exec_cases i s
  obtain rfl := Host.Outcome.next.inj (hexec.symm.trans h)
  obtain ⟨hcv, hdraws⟩ := commandEffect_blockless he
  have hirq : (complete c u).irq = s.irq ||| completionBits c := by rw [complete_irq, commandEffect_frame he]
  have hframe : ∃ mem cv ks iks nr ksValid draws, u = { s with
      mem := mem, cv := cv, ks := ks, iks := iks, nr := nr, ksValid := ksValid, draws := draws } :=
    ⟨_, _, _, _, _, _, _, commandEffect_frame he⟩
  have hsame : i ≠ .expandKey → sameSchedule s (complete c u) := fun hi => exec_sameSchedule hi h
  obtain ⟨mem, cv, ks, iks, nr, ksValid, draws, rfl⟩ := hframe
  refine ⟨rfl, rfl, rfl, rfl, rfl, rfl, rfl, rfl, rfl, rfl, rfl, ?_, fun k hk => ?_, hsame, hcv, fun hi => (hdraws hi).1⟩
  · rw [hirq, BitVec.getLsbD_or, completionBits_ovr, Bool.or_false]
  · rw [hirq, BitVec.getLsbD_or, hk, Bool.true_or]

/-- A block command leaves every byte outside its block (42_block.md R102, R103). -/
theorem commandEffect_block_frame {s u : State} {i : Instr} {b a : Nat} (he : CommandEffect s i u)
    (hi : i = .blkEnc b ∨ i = .blkDec b) (ha : ¬ inBlock b a) : memRead u.mem a = memRead s.mem a := by
  cases he with
  | nothing => rfl
  | blkEnc b' =>
    obtain rfl : b' = b := by simpa using hi
    obtain ⟨x, d, -, e⟩ := chainEncrypt_spec b' s.cv s
    simp only [e, memRead_writeBlock_ne b' _ s ha]
  | blkDec b' =>
    obtain rfl : b' = b := by simpa using hi
    obtain ⟨x, d, -, e⟩ := chainDecrypt_spec b' s.cv s
    simp only [e, memRead_writeBlock_ne b' _ s ha]
  | schedule | loadIv | cbcEnc | cbcDec => simp at hi

/-- A CBC command leaves every byte outside its blocks (43_cbc.md R112, R113). -/
theorem commandEffect_cbc_frame {s u : State} {i : Instr} {a : Nat} (he : CommandEffect s i u)
    (hi : i = .cbcEnc ∨ i = .cbcDec)
    (ha : a < dbufOffset (blockStart 0) ∨ dbufOffset (blockStart 0) + 16 * cbcBlocks s.len ≤ a) :
    memRead u.mem a = memRead s.mem a := by
  cases he with
  | nothing => rfl
  | cbcEnc => exact cbcEncLoop_frame _ 0 _ s ha
  | cbcDec => exact cbcDecLoop_frame _ 0 _ s ha
  | schedule | loadIv | blkEnc | blkDec => simp at hi

/-- Settles O43: the frame of each kind of command. -/
theorem commandsKeepOtherDbufBytes : Obligations.CommandsKeepOtherDbufBytes := by
  intro i s t a h
  obtain ⟨c, u, hexec, he, -⟩ := exec_cases i s
  obtain rfl := Host.Outcome.next.inj (hexec.symm.trans h)
  rw [complete_mem]
  refine ⟨fun hi => ?_, fun b hi ha => ?_, fun hi ha => ?_⟩
  · obtain ⟨-, hmem⟩ := (commandEffect_blockless he).2 hi
    rw [hmem]
  · exact commandEffect_block_frame he hi (by unfold inBlock; omega)
  · exact commandEffect_cbc_frame he hi (by simp only [dbufOffset, blockStart] at ha ⊢; omega)

/-! ### DBUF by its blocks -/

theorem memRead_of_memReadWord {m : Memory} {a k : Nat} {w : Word} (h : memReadWord m a = some w) (hk : k < 4) :
    memRead m (a + k) = some (byteK k w) := by
  unfold memReadWord at h
  split at h
  · next b0 b1 b2 b3 h0 h1 h2 h3 =>
    obtain rfl := Option.some.inj h
    interval_cases k <;> simp [h0, h1, h2, h3]
  · cases h

/-- The bytes of a written block are those of its value. -/
theorem memRead_eq_of_memBlock {m n : Memory} {b a : Nat} {q : Quad} (hm : memBlock m b = some q)
    (hn : memBlock n b = some q) (ha : inBlock b a) : memRead m a = memRead n a := by
  obtain ⟨j, k, hk, rfl⟩ : ∃ (j : Fin 4) (k : Nat), k < 4 ∧ a = dbufOffset (blockStart b + j.val) + k := by
    simp only [inBlock, dbufOffset, blockStart] at ha ⊢
    exact ⟨⟨(a - 4096) / 4 % 4, by omega⟩, a % 4, by omega, by dsimp only; omega⟩
  rw [memRead_of_memReadWord (memBlock_some.mp hm j) hk, memRead_of_memReadWord (memBlock_some.mp hn j) hk]

/-- A written block reads as its own value only (20_memory.md R48). -/
theorem eq_of_blockReadsAs {m : Memory} {b : Nat} {q x : Quad} (hm : memBlock m b = some q) (hx : blockReadsAs m b x) :
    x = q :=
  quad_ext fun j => hx j _ (memBlock_some.mp hm j)

/-- Two DBUFs in canonical form are equal if they hold the same values in the blocks of `B`, and the same bytes
elsewhere. -/
theorem mem_eq_of_blocks {m n : Memory} (hm : Memory.wf m = true) (hn : Memory.wf n = true) (B : Nat → Prop)
    (hblocks : ∀ b, B b → ∃ q, memBlock m b = some q ∧ memBlock n b = some q)
    (hrest : ∀ a, (∀ b, B b → ¬ inBlock b a) → memRead m a = memRead n a) : m = n := by
  refine mem_ext hm hn fun a => ?_
  by_cases ha : ∃ b, B b ∧ inBlock b a
  · obtain ⟨b, hb, ha⟩ := ha
    obtain ⟨q, hmq, hnq⟩ := hblocks b hb
    exact memRead_eq_of_memBlock hmq hnq ha
  · exact hrest a fun b hb hin => ha ⟨b, hb, hin⟩

theorem exec_good {i : Instr} {s t : State} (h : exec i s = .next t) (hs : MemGood s.cfg s.mem) :
    MemGood s.cfg t.mem := by
  obtain ⟨c, u, hexec, he, -⟩ := exec_cases i s
  rw [← Host.Outcome.next.inj (hexec.symm.trans h), complete_mem]
  exact commandEffect_good he hs

/-! ### Round trips -/

theorem Inv.decryptWith_encryptWith {s : State} (h : Inv s) (hv : s.ksValid = true) (x : Quad) :
    decryptWith s (encryptWith s x) = x := by
  obtain ⟨hdec, -⟩ := decryptBlockUndoesEncryptBlock s x h hv
  exact hdec

/-- Decrypting a block of the chain gives its value back, if the chaining value is the same (43_cbc.md R114). -/
theorem Inv.cbcDecOut_cbcEncOut {s : State} (h : Inv s) (hv : s.ksValid = true) (x c : Quad) :
    cbcDecOut s (cbcEncOut s x c) c = x := by
  rw [cbcDecOut, cbcEncOut, h.decryptWith_encryptWith hv, quadXor_self_right]

/-- `t` decrypts as `s` does, and finds the same blocks and the same IV and `LEN`. -/
structure SameCipher (s t : State) : Prop where
  valid : t.ksValid = s.ksValid
  cfg : t.cfg = s.cfg
  iv : t.iv = s.iv
  len : t.len = s.len
  decrypt : decryptWith t = decryptWith s

/-- A command on blocks leaves the cipher as it was. -/
theorem sameCipher_of_completed {s t : State} {m : Memory} {cv : Quad} {d : Nat}
    (ht : t = complete .none { s with mem := m, cv := cv, draws := d }) : SameCipher s t := by
  subst ht
  exact ⟨rfl, rfl, rfl, rfl, rfl⟩

/-- Settles O47: the decryption gives back what was read, and either command leaves the bytes outside the block alone. -/
theorem blkDecUndoesBlkEnc : Obligations.BlkDecUndoesBlkEnc := by
  intro s t b x hinv hv hb hx ht
  obtain ⟨t', x', d, hexec, hread, ht'⟩ := exec_blkEnc_of_exists hv hb
  obtain rfl := Host.Outcome.next.inj (hexec.symm.trans ht)
  obtain rfl := eq_of_blockReadsAs hx hread
  obtain ⟨-, hblock, hframe, hstate⟩ := completed_block_in_place ht'
  obtain ⟨hvalid, hcfg, -, -, hdec⟩ := sameCipher_of_completed hstate
  have hgood : MemGood t'.cfg t'.mem := hcfg ▸ exec_good hexec hinv.memGood
  obtain ⟨u, y, d', hexec', hread', hu⟩ :=
    exec_blkDec_of_exists (s := { t' with cv := s.cv }) (b := b) (hvalid.trans hv) (hcfg ▸ hb)
  obtain ⟨-, hblock', hframe', -⟩ := completed_block_in_place hu
  obtain rfl := eq_of_blockReadsAs hblock hread'
  have hdec' : decryptWith { t' with cv := s.cv } = decryptWith s := hdec
  rw [hdec', hinv.decryptWith_encryptWith hv, quadXor_self_right] at hblock'
  refine ⟨u, hexec', mem_eq_of_blocks (exec_good hexec' hgood).wf hinv.memWf (· = b) ?_ fun a ha => ?_⟩
  · rintro _ rfl
    exact ⟨x', hblock', hx⟩
  · exact (hframe' a (ha b rfl)).trans (hframe a (ha b rfl))

theorem CbcResult.sameCipher {out : Quad → Quad → Quad} {s t : State} {x q v : Nat → Quad}
    (h : CbcResult out s t x q v) : SameCipher s t := sameCipher_of_completed h.state

/-- What a CBC command reads of a written block is its value. -/
theorem CbcResult.read_eq {out : Quad → Quad → Quad} {s t : State} {x q v : Nat → Quad} (h : CbcResult out s t x q v)
    {b : Nat} {p : Quad} (hb : b < s.len.toNat / 16) (hp : memBlock s.mem b = some p) : x b = p :=
  eq_of_blockReadsAs hp (h.reads hb)

/-- `CBC_DEC` after `CBC_ENC`: block by block it reads what was written, and chains the same values. -/
theorem CbcResult.decrypts {s t u : State} {x y x' q : Nat → Quad} (hinv : Inv s) (hv : s.ksValid = true)
    (henc : CbcResult (cbcEncOut s) s t x y y) (hdec : CbcResult (cbcDecOut t) t u x' q x') {b : Nat}
    (hb : b < s.len.toNat / 16) : x' b = y b ∧ q b = x b := by
  obtain ⟨-, -, hiv, hlen, hcipher⟩ := henc.sameCipher
  have hread {k : Nat} (hk : k < s.len.toNat / 16) : x' k = y k := hdec.read_eq (hlen.symm ▸ hk) (henc.writes hk)
  have hchain : (if b = 0 then t.iv else x' (b - 1)) = if b = 0 then s.iv else y (b - 1) := by
    rw [hiv, hread (by omega)]
  refine ⟨hread hb, ?_⟩
  rw [hdec.chained (hlen.symm ▸ hb), hchain, hread hb, henc.chained hb, cbcDecOut, hcipher, ← cbcDecOut]
  exact hinv.cbcDecOut_cbcEncOut hv _ _

/-- Settles O48: `CBC_DEC` reads the ciphertext in the order in which it was chained, so each block comes back. -/
theorem cbcDecUndoesCbcEnc : Obligations.CbcDecUndoesCbcEnc := by
  intro s t hinv hv hmod hmax hwritten ht
  have hl := lenLegal_iff.mpr ⟨hmod, hmax⟩
  obtain ⟨t', x, y, hexec, henc⟩ := exec_cbcEnc_of_legal hv hl
  obtain rfl := Host.Outcome.next.inj (hexec.symm.trans ht)
  obtain ⟨hvalid, hcfg, hiv, hlen, -⟩ := henc.sameCipher
  have hgood : MemGood t'.cfg t'.mem := hcfg ▸ exec_good hexec hinv.memGood
  obtain ⟨u, x', q, hexec', hdec⟩ := exec_cbcDec_of_legal (hvalid.trans hv) (hcfg.symm ▸ hlen.symm ▸ hl)
  have hback {b : Nat} (hb : b < s.len.toNat / 16) := henc.decrypts hinv hv hdec hb
  refine ⟨u, hexec', mem_eq_of_blocks (exec_good hexec' hgood).wf hinv.memWf (· < s.len.toNat / 16) ?_ ?_, ?_⟩
  · intro b hb
    obtain ⟨p, hp⟩ := Option.isSome_iff_exists.mp (hwritten b hb)
    refine ⟨p, ?_, hp⟩
    rw [hdec.writes (hlen.symm ▸ hb), (hback hb).2, henc.read_eq hb hp]
  · intro a ha
    have hout : a < 0x1000 ∨ 0x1000 + s.len.toNat ≤ a := by
      by_contra hin
      exact ha ((a - 0x1000) / 16) (by omega) (by simp only [inBlock, dbufOffset, blockStart]; omega)
    exact (hdec.frame a (hlen.symm ▸ hout)).trans (henc.frame a hout)
  · rw [hdec.cv_eq_ite, henc.cv_eq_ite, hlen, hiv]
    split
    · rfl
    · exact (hback (by omega)).1

/-! ### What the chaining value does to the ciphertext -/

/-- Settles O51: XOR with a zero chaining value changes nothing. -/
theorem zeroIvIsTheRawTransform : Obligations.ZeroIvIsTheRawTransform := by
  intro s x hv hlen hiv hx
  have hl : lenLegal s.cfg s.len = true := lenLegal_iff.mpr (by rw [hlen, dbufBytes, dbufBlocks]; simp)
  have h0 : 0 < s.len.toNat / 16 := by rw [hlen]; decide
  obtain ⟨t, x', y, hexec, henc⟩ := exec_cbcEnc_of_legal hv hl
  refine ⟨t, hexec, ?_⟩
  rw [henc.writes h0, henc.chained h0, henc.read_eq h0 hx, if_pos rfl, hiv]
  simp [cbcEncOut, encryptWith, quadXor]

/-- Under a valid schedule a block of the chain tells the chaining values apart. -/
theorem Inv.cbcEncOut_inj {s : State} (h : Inv s) (hv : s.ksValid = true) {x c c' : Quad}
    (he : cbcEncOut s x c = cbcEncOut s x c') : c = c' := by
  have hx : quadXor x c = quadXor x c' := by
    rw [← h.decryptWith_encryptWith hv (quadXor x c), ← h.decryptWith_encryptWith hv (quadXor x c')]
    exact congrArg (decryptWith s) he
  rw [← quadXor_self_right c x, ← quadXor_self_right c' x, quadXor_comm c, quadXor_comm c', hx]

/-- Settles O52: if two ciphertexts of a block agree, so do the chaining values before it, back to the IVs. -/
theorem differentIvsDifferEverywhere : Obligations.DifferentIvsDifferEverywhere := by
  intro s t u iv hinv hv hmod hmax hiv hwritten ht hu b hb
  have hl := lenLegal_iff.mpr ⟨hmod, hmax⟩
  obtain ⟨t', x, y, hexec, henc⟩ := exec_cbcEnc_of_legal hv hl
  obtain rfl := Host.Outcome.next.inj (hexec.symm.trans ht)
  obtain ⟨u', x', y', hexec', henc'⟩ := exec_cbcEnc_of_legal (s := { s with iv := iv }) hv hl
  obtain rfl := Host.Outcome.next.inj (hexec'.symm.trans hu)
  have hread {k : Nat} (hk : k < s.len.toNat / 16) : x' k = x k := by
    obtain ⟨p, hp⟩ := Option.isSome_iff_exists.mp (hwritten k hk)
    rw [henc.read_eq hk hp, henc'.read_eq hk hp]
  have hchains {k : Nat} (hk : k < s.len.toNat / 16) (he : y k = y' k) :
      (if k = 0 then s.iv else y (k - 1)) = if k = 0 then iv else y' (k - 1) := by
    rw [henc.chained hk, henc'.chained hk, hread hk] at he
    exact hinv.cbcEncOut_inj hv he
  have hne : y b ≠ y' b := by
    induction b with
    | zero => exact fun he => hiv (hchains hb he).symm
    | succ k ih => exact fun he => ih (by omega) (hchains hb he)
  rw [henc.writes hb, henc'.writes hb]
  exact fun he => hne (Option.some.inj he)

/-! ### A CBC command as a sequence of block commands -/

/-- A successful block command after its transform: the chaining value is stored, and the command completes. -/
def finish (c : Quad) (s : State) : State := complete .none { s with cv := c }

/-- `n` blocks from block `b`, chaining from `c` by `f`: the two CBC loops in one. -/
def chainLoop (f : Nat → Quad → State → Quad × State) : Nat → Nat → Quad → State → Quad × State
  | 0, _, c, s => (c, s)
  | n + 1, b, c, s => chainLoop f n (b + 1) (f b c s).1 (f b c s).2

theorem cbcEncLoop_eq_chainLoop (n b : Nat) (c : Quad) (s : State) :
    cbcEncLoop n b c s = chainLoop chainEncrypt n b c s := by
  induction n generalizing b c s with
  | zero => rfl
  | succ n ih => rw [cbcEncLoop, chainLoop, ih]

theorem cbcDecLoop_eq_chainLoop (n b : Nat) (c : Quad) (s : State) :
    cbcDecLoop n b c s = chainLoop chainDecrypt n b c s := by
  induction n generalizing b c s with
  | zero => rfl
  | succ n ih => rw [cbcDecLoop, chainLoop, ih]

/-- The command `mk b` transforms block `b` by `f` from `CV`, and `f` does not see that a command before it completed. -/
structure BlockCommand (mk : Nat → Instr) (f : Nat → Quad → State → Quad × State) : Prop where
  completes {s : State} {b : Nat} (hv : s.ksValid = true) (hb : b < dbufBlocks s.cfg) :
    exec (mk b) s = .next (finish (f b s.cv s).1 (f b s.cv s).2)
  afterFinish (b : Nat) (c c' : Quad) (s : State) : f b c (finish c' s) = ((f b c s).1, finish c' (f b c s).2)
  frame (b : Nat) (c : Quad) (s : State) : (f b c s).2.ksValid = s.ksValid ∧ (f b c s).2.cfg = s.cfg

section blockCommand
variable {mk : Nat → Instr} {f : Nat → Quad → State → Quad × State} (h : BlockCommand mk f)
include h

theorem chainLoop_finish (n b : Nat) (c c' : Quad) (s : State) :
    chainLoop f n b c (finish c' s) = ((chainLoop f n b c s).1, finish c' (chainLoop f n b c s).2) := by
  induction n generalizing b c s with
  | zero => rfl
  | succ n ih => rw [chainLoop, h.afterFinish, ih, chainLoop]

/-- One block command after another leaves what the loop leaves (43_cbc.md R114). -/
theorem execAll_blocks (n b : Nat) (c : Quad) {s : State} (hv : s.ksValid = true) (hb : b + n ≤ dbufBlocks s.cfg) :
    ∃ u, execAll ((List.range' b n).map mk) (finish c s) = .next u ∧ u.mem = (chainLoop f n b c s).2.mem
      ∧ u.cv = (chainLoop f n b c s).1 ∧ u.err = .none := by
  induction n generalizing b c s with
  | zero => exact ⟨finish c s, rfl, rfl, rfl, rfl⟩
  | succ n ih =>
    obtain ⟨hvalid, hcfg⟩ := h.frame b c s
    have hstep : exec (mk b) (finish c s) = .next (finish (f b c s).1 (finish c (f b c s).2)) := by
      have hf : f b (finish c s).cv (finish c s) = ((f b c s).1, finish c (f b c s).2) := h.afterFinish b c c s
      rw [h.completes (s := finish c s) hv (show b < dbufBlocks s.cfg by omega), hf]
    obtain ⟨u, hu, hmem, hcv, herr⟩ := ih (b + 1) (f b c s).1 (s := finish c (f b c s).2) (hvalid.trans hv)
      (show b + 1 + n ≤ dbufBlocks (f b c s).2.cfg by rw [hcfg]; omega)
    rw [chainLoop_finish h] at hmem hcv
    refine ⟨u, ?_, hmem, hcv, herr⟩
    rw [List.range'_succ, List.map_cons, execAll, hstep]
    exact hu

/-- `LOAD_IV` and the block commands leave what the completed loop over the same blocks leaves. -/
theorem execAll_loadIv_blocks {s : State} {n : Nat} (hv : s.ksValid = true) (hn : n ≤ dbufBlocks s.cfg) :
    ∃ u, execAll (.loadIv :: (List.range n).map mk) s = .next u
      ∧ u.mem = (chainLoop f n 0 s.iv s).2.mem ∧ u.cv = (chainLoop f n 0 s.iv s).1 ∧ u.err = .none := by
  rw [List.range_eq_range']
  exact execAll_blocks h n 0 s.iv hv (by omega)

end blockCommand

/-! #### The two block commands -/

theorem dbufRead_finish (i : Nat) (c : Quad) (s : State) :
    dbufRead i (finish c s) = ((dbufRead i s).1, finish c (dbufRead i s).2) := by
  have hmem : (finish c s).mem = s.mem := rfl
  unfold dbufRead
  rw [hmem]
  split <;> rfl

theorem readBlock_finish (b : Nat) (c : Quad) (s : State) :
    readBlock b (finish c s) = ((readBlock b s).1, finish c (readBlock b s).2) := by
  simp only [readBlock, dbufRead_finish]

theorem dbufWrite_finish (i : Nat) (w : Word) (c : Quad) (s : State) :
    dbufWrite i w (finish c s) = finish c (dbufWrite i w s) := rfl

theorem writeBlock_finish (b : Nat) (q c : Quad) (s : State) :
    writeBlock b q (finish c s) = finish c (writeBlock b q s) := by
  simp only [writeBlock, dbufWrite_finish]

theorem encryptWith_finish (c : Quad) (s : State) : encryptWith (finish c s) = encryptWith s := rfl

theorem decryptWith_finish (c : Quad) (s : State) : decryptWith (finish c s) = decryptWith s := rfl

theorem blkEnc_blockCommand : BlockCommand .blkEnc chainEncrypt where
  completes hv hb := by simp [exec, execBlkEnc, blockInRange, hv, hb, finish]
  afterFinish b c c' s := by
    simp only [chainEncrypt, readBlock_finish, writeBlock_finish, encryptWith_finish]
  frame b c s := by
    obtain ⟨x, d, -, e⟩ := chainEncrypt_spec b c s
    rw [e]
    exact ⟨rfl, rfl⟩

theorem blkDec_blockCommand : BlockCommand .blkDec chainDecrypt where
  completes hv hb := by simp [exec, execBlkDec, blockInRange, hv, hb, finish]
  afterFinish b c c' s := by
    simp only [chainDecrypt, readBlock_finish, writeBlock_finish, decryptWith_finish]
  frame b c s := by
    obtain ⟨x, d, -, e⟩ := chainDecrypt_spec b c s
    rw [e]
    exact ⟨rfl, rfl⟩

theorem exec_cbcEnc_eq_finish {s : State} (hv : s.ksValid = true) (hl : lenLegal s.cfg s.len = true) :
    exec .cbcEnc s = .next (finish (chainLoop chainEncrypt (cbcBlocks s.len) 0 s.iv s).1
      (chainLoop chainEncrypt (cbcBlocks s.len) 0 s.iv s).2) := by
  simp [exec, execCbcEnc, hv, hl, finish, cbcEncLoop_eq_chainLoop]

theorem exec_cbcDec_eq_finish {s : State} (hv : s.ksValid = true) (hl : lenLegal s.cfg s.len = true) :
    exec .cbcDec s = .next (finish (chainLoop chainDecrypt (cbcBlocks s.len) 0 s.iv s).1
      (chainLoop chainDecrypt (cbcBlocks s.len) 0 s.iv s).2) := by
  simp [exec, execCbcDec, hv, hl, finish, cbcDecLoop_eq_chainLoop]

/-- Settles O49: both are the same loop, and `LOAD_IV` starts the chain with the IV. -/
theorem cbcEncIsBlockByBlock : Obligations.CbcEncIsBlockByBlock := by
  intro s hv hmod hmax
  have hl := lenLegal_iff.mpr ⟨hmod, hmax⟩
  obtain ⟨u, hu, hmem, hcv, herr⟩ := execAll_loadIv_blocks blkEnc_blockCommand hv (cbcBlocks_le hl)
  exact ⟨_, u, exec_cbcEnc_eq_finish hv hl, hu, hmem, hcv, herr⟩

/-- Settles O50: both are the same loop, and `LOAD_IV` starts the chain with the IV. -/
theorem cbcDecIsBlockByBlock : Obligations.CbcDecIsBlockByBlock := by
  intro s hv hmod hmax
  have hl := lenLegal_iff.mpr ⟨hmod, hmax⟩
  obtain ⟨u, hu, hmem, hcv, herr⟩ := execAll_loadIv_blocks blkDec_blockCommand hv (cbcBlocks_le hl)
  exact ⟨_, u, exec_cbcDec_eq_finish hv hl, hu, hmem, hcv, herr⟩

/-! ### The storage of an invalid schedule -/

theorem forgetSchedule_invalid {s : State} (hv : s.ksValid = false) : forgetSchedule s = clearSchedule s := by
  simp [forgetSchedule, hv]

theorem forgetSchedule_valid {s : State} (hv : s.ksValid = true) : forgetSchedule s = s := by
  simp [forgetSchedule, hv]

/-- Clearing an invalid schedule first makes no difference to what is then known. -/
theorem forgetSchedule_clearSchedule {s : State} (hv : s.ksValid = false) :
    forgetSchedule (clearSchedule s) = forgetSchedule s := by
  have hv' : (clearSchedule s).ksValid = false := hv
  rw [forgetSchedule_invalid hv, forgetSchedule_invalid hv']
  rfl

/-- `o'` is the outcome `o` with the storage cleared in its next state, in which no schedule is valid. -/
def ClearedOutcome (o o' : Host.Outcome State Fault Refusal) : Prop :=
  o' = mapOutcome clearSchedule o ∧ ∀ t, o = .next t → t.ksValid = false

/-- Such an outcome tells nothing of the storage. -/
theorem ClearedOutcome.forget_eq {o o' : Host.Outcome State Fault Refusal} (h : ClearedOutcome o o') :
    mapOutcome forgetSchedule o = mapOutcome forgetSchedule o' := by
  obtain ⟨rfl, hv⟩ := h
  cases o with
  | next t => exact congrArg Host.Outcome.next (forgetSchedule_clearSchedule (hv t rfl)).symm
  | fault | refused => rfl

theorem clearedOutcome_complete {s : State} (hv : s.ksValid = false) (c : ErrCode) :
    ClearedOutcome (.next (complete c s)) (.next (complete c (clearSchedule s))) := by
  refine ⟨rfl, fun t ht => ?_⟩
  rw [← Host.Outcome.next.inj ht, complete_ksValid, hv]

/-- `EXPAND_KEY` writes the whole storage; every other command needs a valid schedule or does not look at one. -/
theorem exec_clearSchedule {s : State} (hv : s.ksValid = false) (i : Instr) :
    ClearedOutcome (exec i s) (exec i (clearSchedule s)) ∨ exec i (clearSchedule s) = exec i s := by
  have hv' : (clearSchedule s).ksValid = false := hv
  cases i with
  | nop => exact .inl (clearedOutcome_complete hv .none)
  | loadIv => exact .inl (clearedOutcome_complete (s := { s with cv := s.iv }) hv .none)
  | expandKey =>
    cases hk : keyWords s.keylen with
    | none =>
      rw [exec_expandKey_of_illegal hk, exec_expandKey_of_illegal (s := clearSchedule s) hk]
      exact .inl (clearedOutcome_complete hv .keyLength)
    | some nk =>
      rw [exec_expandKey_of_legal hk, exec_expandKey_of_legal (s := clearSchedule s) hk]
      exact .inr rfl
  | blkEnc b =>
    rw [exec_blkEnc_of_invalid hv, exec_blkEnc_of_invalid hv']
    exact .inl (clearedOutcome_complete hv .noSchedule)
  | blkDec b =>
    rw [exec_blkDec_of_invalid hv, exec_blkDec_of_invalid hv']
    exact .inl (clearedOutcome_complete hv .noSchedule)
  | cbcEnc =>
    rw [exec_cbcEnc_of_invalid hv, exec_cbcEnc_of_invalid hv']
    exact .inl (clearedOutcome_complete hv .noSchedule)
  | cbcDec =>
    rw [exec_cbcDec_of_invalid hv, exec_cbcDec_of_invalid hv']
    exact .inl (clearedOutcome_complete hv .noSchedule)

theorem engineStep_clearSchedule {s : State} (hv : s.ksValid = false) :
    ClearedOutcome (engineStep s) (engineStep (clearSchedule s)) ∨ engineStep (clearSchedule s) = engineStep s := by
  cases hg : s.genPending with
  | true =>
    rw [engineStep_generating hg, engineStep_generating (s := clearSchedule s) hg]
    exact .inl ⟨rfl, fun t ht => Host.Outcome.next.inj ht ▸ hv⟩
  | false =>
    cases hp : s.pending with
    | none =>
      have hstay {u : State} (hg : u.genPending = false) (hp : u.pending = none) : engineStep u = .next u := by
        simp [engineStep, hg, hp]
      rw [hstay hg hp, hstay (u := clearSchedule s) hg hp]
      exact .inl ⟨rfl, fun t ht => Host.Outcome.next.inj ht ▸ hv⟩
    | some w =>
      rw [engineStep_pending hg hp, engineStep_pending (s := clearSchedule s) hg hp]
      cases hd : decode w with
      | ok i =>
        rw [completeWord_of_ok hd, completeWord_of_ok hd]
        exact exec_clearSchedule hv i
      | error e =>
        rw [completeWord_of_error hd, completeWord_of_error hd]
        exact .inl (clearedOutcome_complete hv .illegalCmd)

/-- Reads hide an invalid schedule (10_state.md R35, R36). -/
theorem locValue_clearSchedule {s : State} (hv : s.ksValid = false) (l : Loc) :
    locValue (clearSchedule s) l = locValue s l := by
  have hv' : (clearSchedule s).ksValid = false := hv
  cases l with
  | ks i => rw [locValue_ks_of_invalid hv, locValue_ks_of_invalid hv']
  | iks i => rw [locValue_iks_of_invalid hv, locValue_iks_of_invalid hv']
  | nrounds =>
    have hzero {u : State} (hu : u.ksValid = false) : nroundsWord u = 0 := by simp [nroundsWord, hu]
    rw [locValue, locValue, hzero hv, hzero hv']
    rfl
  | id | ctrl | status | irqStatus | cmd | err | keylen | len | key | iv | cv | dbuf | sbox | invSbox | rcon | subMix
  | invSubMix | reserved => rfl

theorem readLoc_clearSchedule {s : State} (hv : s.ksValid = false) (l : Loc) :
    readLoc l (clearSchedule s) = ((readLoc l s).1, clearSchedule (readLoc l s).2) := by
  unfold readLoc
  rw [locValue_clearSchedule hv]
  split <;> rfl

theorem unlessBusy_clearSchedule (s written : State) :
    unlessBusy (clearSchedule s) (clearSchedule written) = clearSchedule (unlessBusy s written) := by
  cases hb : s.busy with
  | true => rw [unlessBusy_busy hb, unlessBusy_busy (s := clearSchedule s) hb]; rfl
  | false => rw [unlessBusy_idle hb, unlessBusy_idle (s := clearSchedule s) hb]

/-- No write reaches the storage (20_memory.md R46). -/
theorem writeLoc_clearSchedule (l : Loc) (v : Word) (s : State) :
    writeLoc l v (clearSchedule s) = clearSchedule (writeLoc l v s) := by
  cases l with
  | cmd | keylen | len | key | iv | dbuf =>
    simp only [writeLoc, ← unlessBusy_clearSchedule]
    rfl
  | id | ctrl | status | irqStatus | err | nrounds | cv | ks | iks | sbox | invSbox | rcon | subMix | invSubMix
  | reserved => rfl

theorem busRead_clearSchedule {s : State} (hv : s.ksValid = false) (addr size : Nat) :
    busRead addr size (clearSchedule s) = mapOutcome clearSchedule (busRead addr size s) := by
  have hcfg : (clearSchedule s).cfg = s.cfg := rfl
  simp only [busRead, hcfg, readLoc_clearSchedule hv]
  split
  · rfl
  · split <;> rfl

theorem busWrite_clearSchedule (addr size : Nat) (v : Word) (s : State) :
    busWrite addr size v (clearSchedule s) = mapOutcome clearSchedule (busWrite addr size v s) := by
  have hcfg : (clearSchedule s).cfg = s.cfg := rfl
  simp only [busWrite, hcfg, writeLoc_clearSchedule]
  split
  · rfl
  · split <;> rfl

/-- A write makes no schedule valid (10_state.md R41). -/
theorem writeEffect_keeps_invalid {s u : State} {v : Word} {l : Loc} (hv : s.ksValid = false)
    (h : WriteEffect s v l u) : u.ksValid = false := by
  cases h with
  | keylen | key => rfl
  | ignored | dropped | ctrl | irqStatus | cmd | len | iv | dbuf => exact hv

/-- A HOST step makes no schedule valid. -/
theorem hostEffect_keeps_invalid {s t : State} (hv : s.ksValid = false) (h : HostEffect s t) : t.ksValid = false := by
  cases h with
  | idle => exact hv
  | read | wait | outside => exact (hostTick_ksValid s).trans hv
  | write _ _ _ _ _ _ _ u he =>
    have hu : u.ksValid = false := writeEffect_keeps_invalid (by simpa using hv) he
    exact hu
  | reset => rfl

theorem hostStep_clearSchedule {s : State} (hv : s.ksValid = false) :
    ClearedOutcome (hostStep s) (hostStep (clearSchedule s)) := by
  refine ⟨?_, fun t ht => hostEffect_keeps_invalid hv (hostStep_cases ht)⟩
  have htick (l : List BusInput) :
      { hostTick (clearSchedule s) with inputs := l } = clearSchedule { hostTick s with inputs := l } := by
    rw [hostTick_eq, hostTick_eq]
    rfl
  have hticked (l : List BusInput) : ({ hostTick s with inputs := l } : State).ksValid = false :=
    (hostTick_ksValid s).trans hv
  have hin : (clearSchedule s).inputs = s.inputs := rfl
  unfold hostStep
  rw [hin]
  split
  · rfl
  · rw [htick, busRead_clearSchedule (hticked _)]
  · rw [htick, busWrite_clearSchedule]
  · rw [htick]
    exact busRead_clearSchedule (hticked _) _ _
  · rfl

/-- Settles O60: without a valid schedule a step goes the same way whatever is stored, and what it leaves stored is as it
was, or all of it written by `EXPAND_KEY`. -/
theorem invalidScheduleIsNeverSeen : Obligations.InvalidScheduleIsNeverSeen := by
  intro s
  cases hv : s.ksValid with
  | true => rw [forgetSchedule_valid hv]
  | false =>
    rw [forgetSchedule_invalid hv]
    cases hm : engineMoves s with
    | true =>
      rw [step_of_engineMoves hm, step_of_engineMoves (s := clearSchedule s) hm]
      rcases engineStep_clearSchedule hv with h | h
      · exact h.forget_eq
      · rw [h]
    | false =>
      rw [step_of_not_engineMoves hm, step_of_not_engineMoves (s := clearSchedule s) hm]
      exact (hostStep_clearSchedule hv).forget_eq

/-! ### The address map -/

theorem dbufBytes_le (cfg : Config.Params) : dbufBytes cfg ≤ 0x1000 := by
  have := cfg.blocksLessOne.isLt
  simp only [dbufBytes, dbufBlocks]
  omega

theorem locate_register {cfg : Config.Params} {off : Nat} (h : off < 0x100) : locate cfg off = locateRegister off :=
  if_pos h

/-- Past the registers and the schedules every offset that is not in DBUF is looked up among the tables. -/
theorem locate_past {cfg : Config.Params} {off : Nat} (h : 0x2F0 ≤ off)
    (hd : off < 0x1000 ∨ 0x1000 + dbufBytes cfg ≤ off) : locate cfg off = locateTable off := by
  rw [locate, if_neg (by omega), dif_neg (by omega), dif_neg (by omega), if_neg (by omega)]

theorem locate_ks (cfg : Config.Params) (i : Fin 60) : locate cfg (0x100 + 4 * i.val) = .ks i := by
  rw [locate, if_neg (by omega), dif_pos (by omega)]
  congr
  omega

theorem locate_iks (cfg : Config.Params) (i : Fin 60) : locate cfg (0x200 + 4 * i.val) = .iks i := by
  rw [locate, if_neg (by omega), dif_neg (by omega), dif_pos (by omega)]
  congr
  omega

theorem locate_dbuf_word {cfg : Config.Params} {n : Nat} (h : n < 4 * dbufBlocks cfg) :
    locate cfg (0x1000 + 4 * n) = .dbuf n := by
  have hb : dbufBytes cfg = 16 * dbufBlocks cfg := rfl
  rw [locate, if_neg (by omega), dif_neg (by omega), dif_neg (by omega), if_pos (by omega)]
  congr
  omega

/-- The words of `KEY`, `IV` and `CV` (20_memory.md R43). -/
theorem locateRegister_arrays :
    (∀ i : Fin 8, locateRegister (0x040 + 4 * i.val) = .key i) ∧ (∀ j : Fin 4, locateRegister (0x060 + 4 * j.val) = .iv j)
      ∧ ∀ j : Fin 4, locateRegister (0x070 + 4 * j.val) = .cv j := by decide

theorem locateRegister_reserved {off : Nat} (h : (0x024 ≤ off ∧ off < 0x040) ∨ 0x080 ≤ off) :
    locateRegister off = .reserved := by
  rw [locateRegister, if_neg (by omega), if_neg (by omega), if_neg (by omega), if_neg (by omega), if_neg (by omega),
    if_neg (by omega), if_neg (by omega), if_neg (by omega), if_neg (by omega), dif_neg (by omega), dif_neg (by omega),
    dif_neg (by omega)]

theorem locateTable_reserved {off : Nat} (h : off < 0x2000 ∨ (0x282C ≤ off ∧ off < 0x3000)) :
    locateTable off = .reserved := by
  rw [locateTable, if_neg (by omega), if_neg (by omega), dif_neg (by omega), dif_neg (by omega), dif_neg (by omega)]

theorem locateTable_sbox (b : Byte) : locateTable (0x2000 + 4 * b.toNat) = .sbox b := by
  have := b.isLt
  rw [locateTable, if_pos (by omega), Nat.add_sub_cancel_left, Nat.mul_div_cancel_left _ (by decide), BitVec.ofNat_toNat,
    BitVec.setWidth_eq]

theorem locateTable_invSbox (b : Byte) : locateTable (0x2400 + 4 * b.toNat) = .invSbox b := by
  have := b.isLt
  rw [locateTable, if_neg (by omega), if_pos (by omega), Nat.add_sub_cancel_left, Nat.mul_div_cancel_left _ (by decide),
    BitVec.ofNat_toNat, BitVec.setWidth_eq]

theorem locateTable_rcon : ∀ i : Fin 11, locateTable (0x2800 + 4 * i.val) = .rcon i := by decide

/-- Entry `b` of table `k` in a window of four tables: the table and the entry from the distance to the window. -/
theorem tableEntry_of_distance (k : Fin 4) (b : Byte) (base : Nat) :
    (base + 0x400 * k.val + 4 * b.toNat - base) / 0x400 = k.val
      ∧ BitVec.ofNat 8 ((base + 0x400 * k.val + 4 * b.toNat - base) % 0x400 / 4) = b := by
  have := b.isLt
  have hentry : (base + 0x400 * k.val + 4 * b.toNat - base) % 0x400 / 4 = b.toNat := by omega
  exact ⟨by omega, by rw [hentry, BitVec.ofNat_toNat, BitVec.setWidth_eq]⟩

theorem locateTable_subMix (k : Fin 4) (b : Byte) :
    locateTable (0x3000 + 0x400 * k.val + 4 * b.toNat) = .subMix k b := by
  have := b.isLt
  obtain ⟨hk, hb⟩ := tableEntry_of_distance k b 0x3000
  rw [locateTable, if_neg (by omega), if_neg (by omega), dif_neg (by omega), dif_pos (by omega), hb]
  congr

theorem locateTable_invSubMix (k : Fin 4) (b : Byte) :
    locateTable (0x4000 + 0x400 * k.val + 4 * b.toNat) = .invSubMix k b := by
  have := b.isLt
  obtain ⟨hk, hb⟩ := tableEntry_of_distance k b 0x4000
  rw [locateTable, if_neg (by omega), if_neg (by omega), dif_neg (by omega), dif_neg (by omega), dif_pos (by omega), hb]
  congr

theorem locate_reserved {cfg : Config.Params} {off : Nat}
    (h : (0x024 ≤ off ∧ off < 0x040) ∨ (0x080 ≤ off ∧ off < 0x100) ∨ (0x1F0 ≤ off ∧ off < 0x200)
        ∨ (0x2F0 ≤ off ∧ off < 0x1000) ∨ (0x1000 + dbufBytes cfg ≤ off ∧ off < 0x2000)
        ∨ (0x282C ≤ off ∧ off < 0x3000)) : locate cfg off = .reserved := by
  have hd := dbufBytes_le cfg
  rcases h with h | h | h | h | h | h
  · rw [locate_register (by omega), locateRegister_reserved (.inl h)]
  · rw [locate_register h.2, locateRegister_reserved (.inr h.1)]
  · rw [locate, if_neg (by omega), dif_neg (by omega), dif_neg (by omega), if_neg (by omega),
      locateTable_reserved (.inl (by omega))]
  · rw [locate_past h.1 (.inl h.2), locateTable_reserved (.inl (by omega))]
  · rw [locate_past (by omega) (.inr h.1), locateTable_reserved (.inl h.2)]
  · rw [locate_past (by omega) (.inr (by omega)), locateTable_reserved (.inr h)]

/-- Settles O13: one row of the map after another. -/
theorem addressMapIsTheTable : Obligations.AddressMapIsTheTable := by
  refine ⟨fun cfg => ?_, fun s addr size v h => ?_⟩
  · have hd := dbufBytes_le cfg
    obtain ⟨hkey, hiv, hcv⟩ := locateRegister_arrays
    have table {off : Nat} (h : 0x2000 ≤ off) : locate cfg off = locateTable off :=
      locate_past (by omega) (.inr (by omega))
    refine ⟨rfl, rfl, rfl, rfl, rfl, rfl, rfl, rfl, rfl, fun i => ?_, fun j => ?_, fun j => ?_, locate_ks cfg,
      locate_iks cfg, fun n => locate_dbuf_word, fun b => ?_, fun b => ?_, fun i => ?_, fun k b => ?_, fun k b => ?_,
      fun off => locate_reserved⟩
    · rw [locate_register (by omega), hkey]
    · rw [locate_register (by omega), hiv]
    · rw [locate_register (by omega), hcv]
    · rw [table (by omega), locateTable_sbox]
    · rw [table (by omega), locateTable_invSbox]
    · rw [table (by omega), locateTable_rcon]
    · rw [table (by omega), locateTable_subMix]
    · rw [table (by omega), locateTable_invSubMix]
  · have ho := busOffset_out h
    exact ⟨by simp only [busRead, ho], by simp only [busWrite, ho]⟩

/-! ### What registers read as -/

/-- Settles O1: the reset state, register by register; no schedule is valid, no table ready and no word of DBUF
written. -/
theorem resetLeavesTheStatedValues : Obligations.ResetLeavesTheStatedValues := by
  unfold Obligations.ResetLeavesTheStatedValues
  intro r
  have hidden (w : Word) : unlessHidden (tablesHidden r) w = none := unlessHidden_tablesHidden_of_not_ready rfl w
  refine ⟨rfl, rfl, rfl, rfl, rfl, locValue_status r, rfl, rfl, rfl, rfl, rfl, rfl, by decide, by decide, by decide,
    fun i => ⟨locValue_ks_of_invalid rfl i, locValue_iks_of_invalid rfl i⟩, fun b => ⟨hidden _, hidden _⟩,
    fun k b => ⟨hidden _, hidden _⟩, rfl, fun _ => rfl, fun _ => rfl, rfl, rfl, engineStep_generating rfl⟩

/-- Settles O15: `busRead_next` names all that a read changes. -/
theorem readsHaveNoSideEffect : Obligations.ReadsHaveNoSideEffect := by
  intro s t addr size h
  obtain ⟨d, r, rfl⟩ := busRead_next h
  rfl

theorem unlessHidden_false (w : Word) : unlessHidden false w = some w := rfl

theorem scheduleHidden_idle {s : State} (hb : s.busy = false) : scheduleHidden s = !s.ksValid := by
  simp [scheduleHidden, pendingWrites_idle hb]

theorem tablesHidden_idle {s : State} (hb : s.busy = false) : tablesHidden s = !s.tablesReady := by
  simp [tablesHidden, hb]

theorem locValue_dbuf_idle {s : State} (hb : s.busy = false) (n : Nat) :
    locValue s (.dbuf n) = memReadWord s.mem (dbufOffset n) := by
  simp [locValue, pendingWrites_idle hb]

/-- Settles O16: with the ENGINE idle nothing is pending, so a location is hidden by its valid or ready bit only. -/
theorem idleReadsReturnTheRegisters : Obligations.IdleReadsReturnTheRegisters := by
  intro s hb
  refine ⟨rfl, rfl, ?_, rfl, rfl, rfl, rfl, rfl, ?_, fun _ => rfl, fun _ => rfl, fun j => ?_, fun hv i => ?_,
    fun hr b => ?_, fun _ => rfl, locValue_dbuf_idle hb, rfl⟩
  · rw [locValue_status, hb, Bool.toNat_false, Nat.zero_add]
  · simp only [locValue, pendingWrites_idle hb, unlessHidden_false, nroundsWord]
  · simp only [locValue, pendingWrites_idle hb, unlessHidden_false]
  · simp only [locValue, scheduleHidden_idle hb, hv, Bool.not_true, unlessHidden_false, and_self]
  · simp only [locValue, tablesHidden_idle hb, hr, Bool.not_true, unlessHidden_false, and_self, implies_true]

/-- Settles O24: none of these has a value to read, for the reason of its own rule. -/
theorem unspecifiedReadsAreFresh : Obligations.UnspecifiedReadsAreFresh := by
  intro s l h
  refine readLoc_draw ?_
  rcases h with ⟨hv, ⟨i, rfl⟩ | ⟨i, rfl⟩⟩ | ⟨hr, ⟨b, rfl⟩ | ⟨b, rfl⟩ | ⟨k, b, rfl⟩ | ⟨k, b, rfl⟩⟩ | ⟨n, rfl, hn⟩
  · exact locValue_ks_of_invalid hv i
  · exact locValue_iks_of_invalid hv i
  · exact unlessHidden_tablesHidden_of_not_ready hr _
  · exact unlessHidden_tablesHidden_of_not_ready hr _
  · exact unlessHidden_tablesHidden_of_not_ready hr _
  · exact unlessHidden_tablesHidden_of_not_ready hr _
  · rw [locValue, dbufOffset, hn, ite_self]

/-! ### What registers hold after a write -/

/-- Settles O19: bit by bit, `IRQ_STATUS` loses the bits that are 1 in the word. -/
theorem irqStatusIsWriteOneToClear : Obligations.IrqStatusIsWriteOneToClear := by
  intro s v
  refine ⟨_, rfl, rfl, fun k hk => ?_⟩
  simp [writeLoc, writeOneToClear, hk]

/-- The bits that a register of fewer than 32 bits keeps of a word, read back as a word. -/
theorem setWidth_setWidth_eq_and (v : Word) {n : Nat} {mask : Word} (hm : ∀ i < 32, mask.getLsbD i = decide (i < n)) :
    (v.setWidth n).setWidth 32 = v &&& mask := by
  apply BitVec.eq_of_getLsbD_eq
  intro i hi
  rw [BitVec.getLsbD_setWidth, BitVec.getLsbD_setWidth, BitVec.getLsbD_and, hm i hi, decide_eq_true hi, Bool.true_and,
    Bool.and_comm]

/-- Word `k` of DBUF after a write of word `n`. -/
theorem memReadWord_write_dbuf (m : Memory) (n k : Nat) (v : Word) :
    memReadWord (memWriteWord m (dbufOffset n) v) (dbufOffset k)
      = if k = n then some v else memReadWord m (dbufOffset k) := by
  split
  · next h => rw [h, memReadWord_memWriteWord_self]
  · next h => exact memReadWord_memWriteWord_ne m v (by simp only [dbufOffset]; omega)

/-- Word `k` of a key after a write of word `i`. -/
theorem getElem_write_key (key : Vector Word 8) (i k : Fin 8) (v : Word) :
    (key.set i v)[k] = if k = i then v else key[k] := by
  simp [Vector.getElem_set, Fin.ext_iff, eq_comm]

/-- Word `k` of four words after a write of word `j`. -/
theorem quadGet_quadSet (q : Quad) (j k : Fin 4) (v : Word) :
    quadGet (quadSet q j v) k = if k = j then v else quadGet q k := by
  split
  · next h => rw [h, quadGet_quadSet_self]
  · next h => exact quadGet_quadSet_ne q v (Ne.symm h)

/-- Settles O17: with `BUSY = 0` each write stores its register; an array is written in one word. -/
theorem writtenRegistersReadBack : Obligations.WrittenRegistersReadBack := by
  refine ⟨fun s v => ⟨congrArg some (setWidth_setWidth_eq_and v (by decide)), rfl⟩, fun s v hb => ?_⟩
  have stored (w : State) : unlessBusy s w = w := unlessBusy_idle hb
  refine ⟨?_, stored _, ?_, stored _, fun i k => ?_, fun i => ?_, fun j k => ?_, fun j => ?_, fun n k => ?_, fun n => ?_⟩
  · rw [writeLoc, stored]
    exact congrArg some (setWidth_setWidth_eq_and v (by decide))
  · rw [writeLoc, stored]
    exact congrArg some (setWidth_setWidth_eq_and v (by decide))
  · rw [writeLoc, stored]
    rw [locValue, getElem_write_key, apply_ite some]
    rfl
  · rw [writeLoc, stored]
  · rw [writeLoc, stored]
    rw [locValue, quadGet_quadSet, apply_ite some]
    rfl
  · rw [writeLoc, stored]
  · rw [writeLoc, stored, locValue_dbuf_idle (s := dbufWrite n v s) hb, locValue_dbuf_idle hb]
    exact memReadWord_write_dbuf s.mem n k v
  · rw [writeLoc, stored]
    rfl

theorem byteK_eq_shift (k : Nat) (w : Word) : byteK k w = (w >>> (8 * (3 - k))).setWidth 8 := by
  apply BitVec.eq_of_getLsbD_eq
  intro i hi
  simp [byteK, hi]

/-- Settles O18: a word write stores byte `k` of the word at offset `k`, the high byte first. -/
theorem dbufBytesAreBigEndian : Obligations.DbufBytesAreBigEndian := by
  intro s i w n
  rw [dbufWrite_mem, memRead_memWriteWord]
  constructor
  · intro hn
    rw [if_pos (by simp only [dbufOffset]; omega)]
    have hk : 0x1000 + n - dbufOffset i = n % 4 := by simp only [dbufOffset]; omega
    rw [hk, byteK_eq_shift]
  · intro hn
    rw [if_neg (by simp only [dbufOffset]; omega)]

/-! ### Reads while the ENGINE is busy -/

/-- The command `i`, with byte count `len`, writes the location (20_memory.md R50; log 7). -/
def isTarget (i : Instr) (len : BitVec 16) : Loc → Bool
  | .nrounds | .ks _ | .iks _ => writesSchedule i
  | .cv _ => writesCv i
  | .dbuf n => writesDbufWord i len n
  | .id | .ctrl | .status | .irqStatus | .cmd | .err | .keylen | .len | .key _ | .iv _ | .sbox _ | .invSbox _ | .rcon _
  | .subMix _ _ | .invSubMix _ _ | .reserved => false

/-- The targets of a command, listed (20_memory.md R50). -/
def TargetOf (i : Instr) (len : BitVec 16) (l : Loc) : Prop :=
  (i = .expandKey ∧ (l = .nrounds ∨ (∃ n, l = .ks n) ∨ ∃ n, l = .iks n))
    ∨ ((i = .loadIv ∨ (∃ b, i = .blkEnc b) ∨ (∃ b, i = .blkDec b) ∨ i = .cbcEnc ∨ i = .cbcDec) ∧ ∃ j, l = .cv j)
    ∨ (∃ b k, (i = .blkEnc b ∨ i = .blkDec b) ∧ k < 4 ∧ l = .dbuf (4 * b + k))
    ∨ ((i = .cbcEnc ∨ i = .cbcDec) ∧ ∃ n, n < 4 * (len.toNat / 16) ∧ l = .dbuf n)

theorem isTarget_iff (i : Instr) (len : BitVec 16) (l : Loc) : isTarget i len l = true ↔ TargetOf i len l := by
  cases l with
  | nrounds | ks | iks => cases i <;> simp [isTarget, writesSchedule, TargetOf]
  | cv => cases i <;> simp [isTarget, writesCv, TargetOf]
  | dbuf n =>
    have hblk (b : Nat) : n / 4 = b ↔ ∃ k < 4, n = 4 * b + k :=
      ⟨fun h => ⟨n % 4, by omega, by omega⟩, by rintro ⟨k, hk, rfl⟩; omega⟩
    have hcbc (m : Nat) : n / 4 < m ↔ n < 4 * m := by omega
    cases i <;> simp [isTarget, writesDbufWord, TargetOf, cbcBlocks, hblk, hcbc]
  | id | ctrl | status | irqStatus | cmd | err | keylen | len | key | iv | sbox | invSbox | rcon | subMix | invSubMix
  | reserved => simp [isTarget, TargetOf]

theorem pendingWrites_nothing (s : State) : pendingWrites s (fun _ => false) = false := by
  unfold pendingWrites
  split <;> rfl

/-- With no generation pending, a location other than `STATUS` is a draw if the pending command writes it, and reads
what it reads as with the ENGINE idle if not. -/
theorem locValue_pending {s : State} (hg : s.genPending = false) {l : Loc} (hl : l ≠ .status) :
    locValue s l = if pendingWrites s (isTarget · s.len l) then none
      else locValue { s with busy := false, pending := none } l := by
  have hidle (p : Instr → Bool) : pendingWrites { s with busy := false, pending := none } p = false :=
    pendingWrites_idle rfl p
  cases l with
  | nrounds =>
    simp only [locValue, isTarget, hidle]
    rfl
  | cv =>
    simp only [locValue, isTarget, hidle]
    rfl
  | ks | iks =>
    simp only [locValue, isTarget, scheduleHidden, hidle, Bool.or_false]
    cases pendingWrites s writesSchedule <;> simp [unlessHidden]
  | dbuf n => simp only [locValue, isTarget, hidle, Bool.false_eq_true, if_false]
  | status => exact absurd rfl hl
  | sbox | invSbox | subMix | invSubMix =>
    simp only [locValue, isTarget, pendingWrites_nothing, tablesHidden, hg, Bool.and_false, Bool.false_eq_true, if_false]
  | id | ctrl | irqStatus | cmd | err | keylen | len | key | iv | rcon | reserved =>
    simp only [locValue, isTarget, pendingWrites_nothing, Bool.false_eq_true, if_false]

theorem pendingWrites_illegal {s : State} {w : Word} {e : DecodeError} (hp : s.pending = some w)
    (hd : decode w = .error e) (p : Instr → Bool) : pendingWrites s p = false := by
  have hnone : pendingInstr s = none := by
    unfold pendingInstr latchedWord
    split_ifs
    · rw [hp]; simp only [hd]
    · rfl
  simp only [pendingWrites, hnone]

/-- During table generation no command has targets. -/
theorem pendingWrites_generating {s : State} (hg : s.genPending = true) (p : Instr → Bool) :
    pendingWrites s p = false := by
  simp [pendingWrites, pendingInstr, latchedWord_generating hg]

/-- The table windows (20_memory.md R43). -/
def IsTableLoc (l : Loc) : Prop :=
  (∃ b, l = .sbox b) ∨ (∃ b, l = .invSbox b) ∨ (∃ k b, l = .subMix k b) ∨ ∃ k b, l = .invSubMix k b

/-- During table generation the table windows are draws, and every other location but `STATUS` reads as with the ENGINE
idle (20_memory.md R50). -/
theorem locValue_generating {s : State} (hb : s.busy = true) (hg : s.genPending = true) (l : Loc) :
    (IsTableLoc l → locValue s l = none)
      ∧ (¬ IsTableLoc l → l ≠ .status → locValue s l = locValue { s with busy := false, genPending := false } l) := by
  have hidle (p : Instr → Bool) : pendingWrites { s with busy := false, genPending := false } p = false :=
    pendingWrites_idle rfl p
  have htables : tablesHidden s = true := by simp [tablesHidden, hb, hg]
  constructor
  · rintro (⟨b, rfl⟩ | ⟨b, rfl⟩ | ⟨k, b, rfl⟩ | ⟨k, b, rfl⟩) <;> simp [locValue, htables, unlessHidden]
  · intro hl hs
    cases l with
    | status => exact absurd rfl hs
    | sbox | invSbox | subMix | invSubMix => simp [IsTableLoc] at hl
    | nrounds =>
      simp only [locValue, pendingWrites_generating hg, hidle]
      rfl
    | cv | ks | iks | dbuf => simp only [locValue, scheduleHidden, pendingWrites_generating hg, hidle]
    | id | ctrl | irqStatus | cmd | err | keylen | len | key | iv | rcon | reserved => rfl

/-- Settles O23: what a location reads as is decided by whether the pending command writes it. -/
theorem busyReadsOfTargetsAreDraws : Obligations.BusyReadsOfTargetsAreDraws := by
  refine ⟨fun s w i hb hg hp hd l => ?_, fun s w e _ hg hp hd l hl => ?_, fun s l hb hg => locValue_generating hb hg l,
    fun s hb => ⟨?_, rfl⟩⟩
  · have hread (hl : l ≠ .status) := locValue_pending hg hl
    rw [pendingWrites_eq hb hg hp hd] at hread
    refine ⟨fun htarget => ?_, fun hother hl => ?_⟩
    · have hi := (isTarget_iff i s.len l).mpr htarget
      have hl : l ≠ .status := by rintro rfl; exact Bool.false_ne_true hi
      rw [hread hl, if_pos hi]
    · have hi : ¬ isTarget i s.len l = true := fun hi => hother ((isTarget_iff i s.len l).mp hi)
      rw [hread hl, if_neg hi]
  · rw [locValue_pending hg hl, pendingWrites_illegal hp hd]
    rfl
  · rw [locValue_status, hb, Bool.toNat_true]

end Machine
end Sys2Proof
end
